-- ==== Sys2Proof/Word.lean ====
section
/-! DEFINITION. The word types of the block: bytes and addresses of shared memory (20_memory.md R70),
32-bit words (30_encoding.md R110) and the 24-bit operand of a command word (30_encoding.md R124). -/

namespace Sys2Proof

/-- One byte of shared memory. -/
abbrev Byte := BitVec 8

/-- A 32-bit word: a descriptor word, a device register, a command word. -/
abbrev Word := BitVec 32

/-- A physical address, PADDR_W = 32 bits (00_scope.md R7). -/
abbrev Addr := BitVec 32

/-- The operand field `arg` of a command word, 24 bits (30_encoding.md R124); also the width CLIENT_ID_W of
the client handle (00_scope.md R7). -/
abbrev Arg := BitVec 24

end Sys2Proof
end

