-- ==== Sys2Proof/Syntax.lean ====
section
/-! DEFINITION. The 21 operations of the block (00_scope.md R17), one constructor for each row of
spec/opcode_table.json. A constructor carries exactly the operands that stand in the operation's word
(30_encoding.md R124): every other operand is an input of the machine (Machine/State.lean, `Bus`). -/

namespace Sys2Proof

/-- The direction operand of RING_INIT (30_encoding.md R124: bit 8, 0 TX, 1 RX); also names a ring. -/
inductive Dir where
  | tx
  | rx
  deriving DecidableEq, Repr

/-- The operations of 00_scope.md R17. Operand widths are those of the encoding, so every term is well-formed. -/
inductive Instr where
  /-- INIT, 43_engine_facade.md R221. -/
  | init
  /-- START(client_id), 43_engine_facade.md R223. -/
  | start (clientId : Arg)
  /-- STOP, 43_engine_facade.md R226. -/
  | stop
  /-- QUEUE_TX of `len` payload bytes, 43_engine_facade.md R229. -/
  | queueTx (len : Arg)
  /-- QUERY, 43_engine_facade.md R232. -/
  | query
  /-- RING_INIT(dir), 40_ring_primitives.md R151. -/
  | ringInit (dir : Dir)
  /-- TRY_CLAIM_NEXT_TX, 40_ring_primitives.md R153. -/
  | tryClaimNextTx
  /-- SUBMIT_TX, 40_ring_primitives.md R155. -/
  | submitTx
  /-- RECLAIM_TX_COMPLETED, 40_ring_primitives.md R158. -/
  | reclaimTxCompleted
  /-- REAP_RX, 40_ring_primitives.md R160. -/
  | reapRx
  /-- IRQ_WAIT, 41_interrupt_dispatcher.md R182. -/
  | irqWait
  /-- STATUS_RDCLR, 41_interrupt_dispatcher.md R184. -/
  | statusRdclr
  /-- LINK_PHASE, 41_interrupt_dispatcher.md R186. -/
  | linkPhase
  /-- RX_DRAIN, 41_interrupt_dispatcher.md R188. -/
  | rxDrain
  /-- ABNORMAL_COUNT, 41_interrupt_dispatcher.md R192. -/
  | abnormalCount
  /-- TX_RECLAIM_PASS, 41_interrupt_dispatcher.md R194. -/
  | txReclaimPass
  /-- LINK_UPDATE, 42_link_monitor.md R211. -/
  | linkUpdate
  /-- DEV_TX_COMPLETE, 44_device_agent.md R253. -/
  | devTxComplete
  /-- DEV_RX_FILL, 44_device_agent.md R255. -/
  | devRxFill
  /-- DEV_SET_STATUS, 44_device_agent.md R257. -/
  | devSetStatus
  /-- DEV_LINK_SET, 44_device_agent.md R259. -/
  | devLinkSet
  deriving DecidableEq, Repr

end Sys2Proof
end

