-- ==== Sys2Proof/Decode.lean ====
section
/-! DEFINITION. The decoder and the encoder of format C words (30_encoding.md R124 to R129, R134). -/

namespace Sys2Proof

/-- The operation code `CMD[7:0]` (30_encoding.md R124). -/
def wordOp (w : Word) : BitVec 8 := w.extractLsb' 0 8

/-- The operand `CMD[31:8]` (30_encoding.md R124). -/
def wordArg (w : Word) : Arg := w.extractLsb' 8 24

/-- A format C word from its two fields (30_encoding.md R124). -/
def mkWord (arg : Arg) (op : BitVec 8) : Word := arg ++ op

/-- Why a word is no operation. -/
inductive DecodeError where
  /-- The op is one of the reserved codes of 30_encoding.md R129 (0x00, 0x06 to 0x0F, 0x15 to 0x1F, 0x27 to 0x2F,
  0x34 to 0xFF). -/
  | reservedOp (op : BitVec 8)
  deriving DecidableEq, Repr

/-- The `dir` operand of RING_INIT: bit 8 of the word, bit 0 of `arg` (30_encoding.md R124, R127). -/
def decodeDir (arg : Arg) : Dir := if arg.getLsbD 0 then .rx else .tx

/-- Decodes a format C word by its op (30_encoding.md R126, R127); `arg` is ignored by every code but QUEUE_TX,
START and RING_INIT (R124). A reserved op is rejected by name (R129). -/
def decode (w : Word) : Except DecodeError Instr :=
  match (wordOp w).toNat with
  | 0x01 => .ok .init
  | 0x02 => .ok (.start (wordArg w))
  | 0x03 => .ok .stop
  | 0x04 => .ok (.queueTx (wordArg w))
  | 0x05 => .ok .query
  | 0x10 => .ok (.ringInit (decodeDir (wordArg w)))
  | 0x11 => .ok .tryClaimNextTx
  | 0x12 => .ok .submitTx
  | 0x13 => .ok .reclaimTxCompleted
  | 0x14 => .ok .reapRx
  | 0x20 => .ok .irqWait
  | 0x21 => .ok .statusRdclr
  | 0x22 => .ok .linkPhase
  | 0x23 => .ok .rxDrain
  | 0x24 => .ok .abnormalCount
  | 0x25 => .ok .txReclaimPass
  | 0x26 => .ok .linkUpdate
  | 0x30 => .ok .devTxComplete
  | 0x31 => .ok .devRxFill
  | 0x32 => .ok .devSetStatus
  | 0x33 => .ok .devLinkSet
  | _ => .error (.reservedOp (wordOp w))

/-- The operation code of an operation (30_encoding.md R126, R127). -/
def opcode : Instr → BitVec 8
  | .init => 0x01#8
  | .start _ => 0x02#8
  | .stop => 0x03#8
  | .queueTx _ => 0x04#8
  | .query => 0x05#8
  | .ringInit _ => 0x10#8
  | .tryClaimNextTx => 0x11#8
  | .submitTx => 0x12#8
  | .reclaimTxCompleted => 0x13#8
  | .reapRx => 0x14#8
  | .irqWait => 0x20#8
  | .statusRdclr => 0x21#8
  | .linkPhase => 0x22#8
  | .rxDrain => 0x23#8
  | .abnormalCount => 0x24#8
  | .txReclaimPass => 0x25#8
  | .linkUpdate => 0x26#8
  | .devTxComplete => 0x30#8
  | .devRxFill => 0x31#8
  | .devSetStatus => 0x32#8
  | .devLinkSet => 0x33#8

/-- The operand field of an operation's word (30_encoding.md R124); 0 where `arg` is ignored. -/
def encodeArg : Instr → Arg
  | .start clientId => clientId
  | .queueTx len => len
  | .ringInit .tx => 0#24
  | .ringInit .rx => 1#24
  | .init => 0#24
  | .stop => 0#24
  | .query => 0#24
  | .tryClaimNextTx => 0#24
  | .submitTx => 0#24
  | .reclaimTxCompleted => 0#24
  | .reapRx => 0#24
  | .irqWait => 0#24
  | .statusRdclr => 0#24
  | .linkPhase => 0#24
  | .rxDrain => 0#24
  | .abnormalCount => 0#24
  | .txReclaimPass => 0#24
  | .linkUpdate => 0#24
  | .devTxComplete => 0#24
  | .devRxFill => 0#24
  | .devSetStatus => 0#24
  | .devLinkSet => 0#24

/-- The word of an operation (30_encoding.md R124 to R127). -/
def encode (i : Instr) : Word := mkWord (encodeArg i) (opcode i)

/-- The five codes CMD accepts (30_encoding.md R125, R126). -/
def Instr.external : Instr → Bool
  | .init | .start _ | .stop | .queueTx _ | .query => true
  | .ringInit _ | .tryClaimNextTx | .submitTx | .reclaimTxCompleted | .reapRx | .irqWait | .statusRdclr | .linkPhase
  | .rxDrain | .abnormalCount | .txReclaimPass | .linkUpdate | .devTxComplete | .devRxFill | .devSetStatus
  | .devLinkSet => false

/-- The four Device moves (30_encoding.md R127, 44_device_agent.md R250). -/
def Instr.deviceMove : Instr → Bool
  | .devTxComplete | .devRxFill | .devSetStatus | .devLinkSet => true
  | .init | .start _ | .stop | .queueTx _ | .query | .ringInit _ | .tryClaimNextTx | .submitTx | .reclaimTxCompleted
  | .reapRx | .irqWait | .statusRdclr | .linkPhase | .rxDrain | .abnormalCount | .txReclaimPass | .linkUpdate => false

/-- The instruction the decoder reads from a table row's bits: a word of the block is one 32-bit word
(30_encoding.md R134), its bits above `nbits` are 0. -/
def decodeTableWord (nbits w : Nat) : Option Instr :=
  match decode (BitVec.ofNat 32 (w % 2 ^ nbits)) with
  | .ok i => some i
  | .error _ => none

end Sys2Proof
end

