-- ==== Sys2Proof/Config.lean ====
section
/-! DEFINITION. The parameters of the model (00_scope.md R7), the reference configuration REF (R9), and the
free values: constants without a body, about which nothing can be proved. -/

namespace Sys2Proof

/-- The implementation parameters of 00_scope.md R7, under the spec's names. PADDR_W and CLIENT_ID_W are fixed
by the spec and are the widths of `Addr` and `Arg`. A configuration is checked by `Config.wf` (R8). -/
structure Config where
  /-- `N_TX`, descriptors in the TX ring. -/
  nTx : Nat
  /-- `N_RX`, descriptors in the RX ring. -/
  nRx : Nat
  /-- `SLOT_SIZE`, bytes in one packet-buffer slot of either ring. -/
  slotSize : Nat
  /-- `DESC_STRIDE`, bytes from one descriptor to the next. -/
  descStride : Nat
  /-- `TX_DESC_BASE`. -/
  txDescBase : Nat
  /-- `RX_DESC_BASE`. -/
  rxDescBase : Nat
  /-- `TX_BUF_BASE`. -/
  txBufBase : Nat
  /-- `RX_BUF_BASE`. -/
  rxBufBase : Nat
  /-- `OWN_BIT`, the ownership bit of a status word. -/
  ownBit : Nat
  /-- `RX_LEN_LO`, low bit of FRAME_LEN in an RX status word. -/
  rxLenLo : Nat
  /-- `RX_LEN_W`, width of FRAME_LEN. -/
  rxLenW : Nat
  /-- `SIZE_LO`, low bit of SIZE in a control word. -/
  sizeLo : Nat
  /-- `SIZE_W`, width of SIZE. -/
  sizeW : Nat
  /-- `TX_INT_BIT`. -/
  txIntBit : Nat
  /-- `TX_LAST_BIT`. -/
  txLastBit : Nat
  /-- `TX_FIRST_BIT`. -/
  txFirstBit : Nat
  /-- `CHAIN_BIT`. -/
  chainBit : Nat
  /-- `ST_TX_COMPLETE`, bit of DMA_STATUS. -/
  stTxComplete : Nat
  /-- `ST_RX_COMPLETE`. -/
  stRxComplete : Nat
  /-- `ST_ABNORMAL`. -/
  stAbnormal : Nat
  /-- `ST_LINK_CHANGE`. -/
  stLinkChange : Nat
  /-- `LINK_UP_BIT`, bit of LINK_STATUS. -/
  linkUpBit : Nat
  /-- `CNT_W`, width of every event counter. -/
  cntW : Nat
  /-- The tx_en bit of `MAC_EN_MASK` (30_encoding.md R123: two distinct bits of the MAC configuration register). -/
  macTxBit : Nat
  /-- The rx_en bit of `MAC_EN_MASK`. -/
  macRxBit : Nat
  /-- `MTU`, returned by QUERY. -/
  mtu : BitVec 32
  /-- `MAC_ADDRESS`, returned by QUERY. -/
  macAddress : BitVec 48
  /-- `FEATURE_FLAGS`, returned by QUERY. -/
  featureFlags : BitVec 32
  /-- `OFF_DMA_STATUS`; no rule depends on the five offsets (10_state.md R40). -/
  offDmaStatus : Word
  /-- `OFF_TX_DOORBELL`. -/
  offTxDoorbell : Word
  /-- `OFF_RX_REARM`. -/
  offRxRearm : Word
  /-- `OFF_LINK_STATUS`. -/
  offLinkStatus : Word
  /-- `OFF_MAC_CONFIG`. -/
  offMacConfig : Word
  deriving DecidableEq, Repr

/-- The reference configuration REF: the column "REF" of 00_scope.md R7 (R9). The offsets and the two MAC_EN bits
have no REF value: they are the values of 93_implementation_defined.md G4, on which no rule depends
(DESIGN CHOICE, safe, log 1 and log 20). The first octet of MAC_ADDRESS 02:00:00:00:00:01 is taken as bits 47:40: the spec gives the
colon form and the width only (DESIGN CHOICE, unsafe, log 25). -/
def Config.ref : Config where
  nTx := 4
  nRx := 4
  slotSize := 16
  descStride := 64
  txDescBase := 0x00010000
  rxDescBase := 0x00010100
  txBufBase := 0x00020000
  rxBufBase := 0x00020040
  ownBit := 31
  rxLenLo := 16
  rxLenW := 14
  sizeLo := 0
  sizeW := 11
  txIntBit := 31
  txLastBit := 30
  txFirstBit := 29
  chainBit := 24
  stTxComplete := 0
  stRxComplete := 6
  stAbnormal := 15
  stLinkChange := 26
  linkUpBit := 3
  cntW := 32
  macTxBit := 3
  macRxBit := 2
  mtu := 1500#32
  macAddress := 0x020000000001#48
  featureFlags := 0#32
  offDmaStatus := 0x1014#32
  offTxDoorbell := 0x1004#32
  offRxRearm := 0x1008#32
  offLinkStatus := 0x00D8#32
  offMacConfig := 0x0000#32

/-- Free value: what the byte of shared memory at an address holds before anything has written it
(10_state.md R56, 93_implementation_defined.md U3, U6: any value). DESIGN CHOICE, safe, log 5. -/
opaque Config.unwrittenByte : Nat → Byte

/-- Free value: byte `j` of the TX payload input where the Client presented fewer bytes than the command word's
`len` (10_state.md R50); the first argument makes the values of different commands independent.
DESIGN CHOICE, safe, log 8. -/
opaque Config.undrivenByte : Nat → Nat → Byte

end Sys2Proof
end

