-- ==== Sys2Proof/Machine/State.lean ====
section
/-! DEFINITION. The state of the machine (10_state.md R20 to R57) as plain data, the outcomes that are no next
state, and the state after reset (10_state.md R65). -/

namespace Sys2Proof.Machine

/-! ## Enumerations (30_encoding.md R128, R131 to R133) -/

/-- The lifecycle register (10_state.md R29). -/
inductive Life where
  | uninit
  | running
  | stopping
  | stopped
  deriving DecidableEq, Repr

/-- The Worker state register (10_state.md R30). -/
inductive WState where
  | idle
  | waiting
  | processing
  | terminated
  deriving DecidableEq, Repr

/-- The phase inside PROCESSING (10_state.md R31). -/
inductive WPhase where
  | rdclr
  | link
  | rx
  | abn
  | txr
  deriving DecidableEq, Repr

/-- The result codes (30_encoding.md R128); codes 8 to 15 are reserved and never written. -/
inductive ResultCode where
  | ok
  | unavailable
  | invalidArgs
  | alreadyBound
  | badState
  | noMemory
  | timedOut
  | notSupported
  deriving DecidableEq, Repr

/-- The payload of RESULT: the three values of QUERY, all 0 for every other command (10_state.md R49). -/
structure ResultPayload where
  mtu : BitVec 32
  macAddress : BitVec 48
  featureFlags : BitVec 32
  deriving DecidableEq, Repr

/-- The payload of every command but QUERY. -/
def ResultPayload.zero : ResultPayload := ⟨0#32, 0#48, 0#32⟩

/-- The RESULT register (10_state.md R49). -/
structure ResultReg where
  code : ResultCode
  payload : ResultPayload
  deriving DecidableEq, Repr

/-- The output events of 00_scope.md R13. -/
inductive Event where
  | result (code : ResultCode) (payload : ResultPayload)
  | rxDeliver (clientId : Arg) (bytes : List Byte)
  | linkNotify (clientId : Arg) (online : Bool)
  | txDoorbell
  | rxRearm
  | macEnSet (txEn rxEn : Bool)
  | irqInvalidate
  | regionRelease
  deriving DecidableEq, Repr

/-! ## Memory -/

/-- Shared memory (20_memory.md R70): the bytes something has written, as (address, byte) pairs with strictly rising
addresses below 2^32. An address that is not listed holds no written byte, so no entry can equal what an unlisted
address reads as (`Mem` operations in Machine/Ops.lean; log 5). -/
structure Memory where
  cells : List Host.Cell
  deriving DecidableEq, Repr

/-- No written byte. -/
def Memory.empty : Memory := ⟨[]⟩

/-! ## Inputs -/

/-- What RX_TAKE answers (40_ring_primitives.md R161). -/
inductive RxTake where
  | empty
  | oversize
  | frame (bytes : List Byte)
  deriving DecidableEq, Repr

/-- The value the last operation tag that was run by itself returned to its caller (model's own field, log 9). -/
inductive OpReturn where
  /-- The operation returns no value. -/
  | nothing
  /-- TRY_CLAIM_NEXT_TX: `Some(slot)` or `None` (R153). -/
  | claim (slot : Option Nat)
  /-- RECLAIM_TX_COMPLETED: `count` (R158). -/
  | count (n : Nat)
  /-- One take of REAP_RX that yielded or dropped a frame (R161). -/
  | take (t : RxTake)
  /-- The end of the REAP_RX iterator: `returned` (R160). -/
  | reaped (returned : Nat)
  deriving DecidableEq, Repr

/-- The commands and Worker steps whose listings call a code that is no step of its own (30_encoding.md R136). -/
inductive Caller where
  /-- INIT calls RING_INIT (43_engine_facade.md R221). -/
  | init
  /-- QUEUE_TX calls TRY_CLAIM_NEXT_TX and SUBMIT_TX (43_engine_facade.md R229). -/
  | queueTx
  /-- LINK_PHASE calls LINK_UPDATE (41_interrupt_dispatcher.md R186). -/
  | linkPhase
  /-- RX_DRAIN drives REAP_RX (41_interrupt_dispatcher.md R188). -/
  | rxDrain
  /-- TX_RECLAIM_PASS calls RECLAIM_TX_COMPLETED (41_interrupt_dispatcher.md R194). -/
  | txReclaimPass
  deriving DecidableEq, Repr

/-- A Device move with its draws (44_device_agent.md R253 to R259). -/
inductive DevMove where
  | txComplete (flags : Word)
  | rxFill (data : List Byte) (len : Nat) (flags : Word)
  | setStatus (bits : Word)
  | linkSet (raw : Word)
  deriving DecidableEq, Repr

/-- The operands that do not stand in an operation's word: the TX payload input (10_state.md R50), the internal buses
(30_encoding.md R127) and the draws (00_scope.md R14). An input of the next operation, log 7. -/
structure Bus where
  /-- The bytes presented on the TX payload input (QUEUE_TX), or SUBMIT_TX's `payload`. -/
  payload : List Byte
  /-- The draw of INIT (43_engine_facade.md R221). -/
  allocOk : Bool
  /-- SUBMIT_TX's `slot`. -/
  slot : Nat
  /-- SUBMIT_TX's `flags`. -/
  flags : Word
  /-- LINK_UPDATE's or DEV_LINK_SET's `raw`. -/
  raw : Word
  /-- DEV_SET_STATUS's `bits`. -/
  bits : Word
  /-- The status flags draw `f` of DEV_TX_COMPLETE and DEV_RX_FILL. -/
  devFlags : Word
  /-- DEV_RX_FILL's `data`. -/
  data : List Byte
  /-- DEV_RX_FILL's declared length `L`. -/
  len : Nat
  /-- The Device moves that fall at the split point of QUEUE_TX (43_engine_facade.md R231, log 12). -/
  split : List DevMove
  deriving DecidableEq, Repr

/-- The bus with no operand presented and an allocation that succeeds (30_encoding.md R135: the draw defaults to ok). -/
def Bus.idle : Bus := ⟨[], true, 0, 0#32, 0#32, 0#32, 0#32, [], 0, []⟩

/-- Who issues an operation's word (60_exceptions.md R300): the Client on CMD, the block's own sequencer (internal codes,
30_encoding.md R127), or the Device. -/
inductive Port where
  | client
  | sequencer
  | device
  deriving DecidableEq, Repr

/-- A format C word issued on a port, with the operands that do not stand in it. -/
structure Op where
  port : Port
  word : Word
  bus : Bus
  deriving DecidableEq, Repr

/-- One entry of the schedule (30_encoding.md R135; log 6, log 19). -/
inductive Entry where
  /-- An operation's word on a port. -/
  | op (o : Op)
  /-- `W`: the one Worker step that is enabled. -/
  | worker
  /-- `W*`: Worker steps until none is enabled. -/
  | workerStar
  /-- The second half of STOP. -/
  | stopFinish
  /-- The well-formed DEV_RX_FILL half of `DEV.ECHO`: the frame just appended to `wire` (44_device_agent.md R267). -/
  | echoFill
  /-- The reset input (70_reset_and_hazards.md R320). -/
  | rst
  deriving DecidableEq, Repr

/-! ## The state -/

/-- The state of the machine: every piece of 10_state.md R20, and the model's own fields at the end. -/
structure State where
  /-- tx_claim_cur, R21. -/
  txClaimCur : Nat
  /-- tx_reclaim_cur, R22. -/
  txReclaimCur : Nat
  /-- tx_inflight, R23. -/
  txInflight : Nat
  /-- rx_cur, R24. -/
  rxCur : Nat
  /-- rx_fault_count, R25. -/
  rxFaultCount : Nat
  /-- err_count, R25. -/
  errCount : Nat
  /-- tx_reclaimed_count, R25. -/
  txReclaimedCount : Nat
  /-- rx_drop_count, R25. -/
  rxDropCount : Nat
  /-- isr_latch, R26. -/
  isrLatch : Word
  /-- online, R27. -/
  online : Bool
  /-- link_raw_last, R27. -/
  linkRawLast : Word
  /-- bound, R28. -/
  bound : Bool
  /-- client_id, R28. -/
  clientId : Arg
  /-- life, R29. -/
  life : Life
  /-- wstate, R30. -/
  wstate : WState
  /-- wphase, R31. -/
  wphase : WPhase
  /-- rx_hold, R32. -/
  rxHold : Bool
  /-- irq_valid, R33. -/
  irqValid : Bool
  /-- region_valid, R33. -/
  regionValid : Bool
  /-- DMA_STATUS, R41. -/
  dmaStatus : Word
  /-- irq_pending, R42. -/
  irqPending : Bool
  /-- LINK_STATUS, R43. -/
  linkStatus : Word
  /-- The MAC configuration register that holds MAC_EN, R46. -/
  macConfig : Word
  /-- RESULT, R49. -/
  result : ResultReg
  /-- Shared memory, R55, R56. -/
  mem : Memory
  /-- dev_tx_cur, R57. -/
  devTxCur : Nat
  /-- dev_rx_cur, R57. -/
  devRxCur : Nat
  /-- dev_quiesced, R57. -/
  devQuiesced : Bool
  /-- The output history, 00_scope.md R13, oldest first. -/
  out : List Event
  /-- The Device's transmit history, R57, oldest first. -/
  wire : List (List Byte)
  /-- The configuration, which no step changes (R20; log 1). -/
  cfg : Config
  /-- The trace still to run (log 6). -/
  sched : List Entry
  /-- The operands presented with the last operation issued (log 7). -/
  bus : Bus
  /-- The value the last tag run by itself returned (log 9). -/
  ret : OpReturn
  /-- The command or Worker step inside which the sequencer stands at a call; none between steps, since each of them is one step
  (00_scope.md R12; log 9). No step sets it. -/
  inside : Option Caller
  /-- REAP_RX's local `returned` (40_ring_primitives.md R160; log 17). -/
  reapReturned : Nat
  /-- Makes undriven payload bytes of different commands independent (log 8). -/
  drawCtr : Nat
  deriving DecidableEq, Repr

/-! ## Outcomes that are no next state -/

/-- Why the machine stops with a fault. The block itself has no fault (93_implementation_defined.md Part 1); both reasons
keep memory operations total and are safe: no state that meets `Safety.Inv` reaches one. -/
inductive Fault where
  /-- A 32-bit access at an address that is no multiple of 4 (20_memory.md R75 to R77). Raised by `memRead32` and
  `memWrite32`; safe. -/
  | misaligned
  /-- A controller access to shared memory while `region_valid = 0` (10_state.md R33, 20_memory.md R92). Raised by every
  controller access; safe. -/
  | regionNotMapped
  deriving DecidableEq, Repr

/-- Why the machine makes no move. -/
inductive Refusal where
  /-- An instruction without a meaning: none in this model. Safe. -/
  | notModelled (mnemonic : String)
  /-- The configuration is not well-formed (00_scope.md R8, 60_exceptions.md R309 "Refuse"). Raised by the step; safe. -/
  | illFormedConfig
  /-- The enabling condition or precondition of the operation does not hold: the spec has no such step (60_exceptions.md
  R309 "No move"; 41_interrupt_dispatcher.md R181, 44_device_agent.md R253, R255, 40_ring_primitives.md R152, R155). Raised
  by the meanings of internal and device codes; safe, log 10. -/
  | notEnabled
  /-- A Device move whose draw is outside its contract (44_device_agent.md R251, R255). Raised by DEV_RX_FILL; safe. -/
  | outsideContract
  /-- An operation issued by an agent that has no such operation (60_exceptions.md R300). Raised by the fetch; safe. -/
  | wrongAgent
  /-- A reserved op issued on a port other than CMD (30_encoding.md R129). Raised by the fetch; safe. -/
  | reservedTag
  /-- A `W` line with no Worker step enabled (30_encoding.md R135, "an error if none is"). Raised by the fetch; safe. -/
  | noWorkerStep
  deriving DecidableEq, Repr

/-! ## Reset -/

/-- Every field at the value of 10_state.md R65 for the configuration `c`. DMA_STATUS, LINK_STATUS, the other bits of the MAC
configuration register (DESIGN CHOICE 0, unsafe, log 3) and the Device's hidden state (DESIGN CHOICE 0, unsafe, log 4) have no
reset value in the spec; nothing of memory is listed (log 5); the model's own fields are DESIGN CHOICE (logs 6 to 9, 17). -/
def State.resetWith (c : Config) : State where
  txClaimCur := 0
  txReclaimCur := 0
  txInflight := 0
  rxCur := 0
  rxFaultCount := 0
  errCount := 0
  txReclaimedCount := 0
  rxDropCount := 0
  isrLatch := 0#32
  online := false
  linkRawLast := 0#32
  bound := false
  clientId := 0#24
  life := .uninit
  wstate := .idle
  wphase := .rdclr
  rxHold := false
  irqValid := false
  regionValid := false
  dmaStatus := 0#32
  irqPending := false
  linkStatus := 0#32
  macConfig := 0#32
  result := ⟨.ok, .zero⟩
  mem := .empty
  devTxCur := 0
  devRxCur := 0
  devQuiesced := false
  out := []
  wire := []
  cfg := c
  sched := []
  bus := .idle
  ret := .nothing
  inside := none
  reapReturned := 0
  drawCtr := 0

/-- The machine right after reset, in the reference configuration REF (00_scope.md R9; DESIGN CHOICE, log 1). -/
def State.reset : State := State.resetWith Config.ref

end Sys2Proof.Machine
end

