-- ==== Sys2Proof/Machine/Ops.lean ====
section
/-! DEFINITION. The named operations every meaning is written with: outcomes, shared memory (20_memory.md R74 to R78), the
device-register port (10_state.md R40), output events and results (00_scope.md R11, R13; 60_exceptions.md R280), counted
anomalies (60_exceptions.md R285), entry to and return from a pass (60_exceptions.md R292, R294), and the reset event
(70_reset_and_hazards.md R320). -/

namespace Sys2Proof.Machine

/-! ## Outcomes -/

/-- The outcome of one step. -/
abbrev Out := Host.Outcome State Fault Refusal

/-- Why an operation yields no value. -/
inductive Stop where
  | fault (f : Fault)
  | refused (r : Refusal)
  deriving DecidableEq, Repr

/-- An operation inside a step: a value, or the reason the step stops. -/
abbrev Run (α : Type) := Except Stop α

/-- Makes no move (60_exceptions.md R309). -/
def noMove {α : Type} (r : Refusal) : Run α := .error (.refused r)

/-- The outcome of a meaning written as a `Run`. -/
def finish : Run State → Out
  | .ok s => .next s
  | .error (.fault f) => .fault f
  | .error (.refused r) => .refused r

/-- The next state of an outcome, where there is one. -/
def nextState? : Out → Option State
  | .next s => some s
  | .fault _ => none
  | .refused _ => none

/-! ## Shared memory -/

/-- The written byte listed at an address. -/
def lookupCell (a : Nat) : List Host.Cell → Option Byte
  | [] => none
  | (k, b) :: rest => if a = k then some b else lookupCell a rest

/-- Writes one byte into a list of cells with rising addresses. -/
def insertCell (a : Nat) (b : Byte) : List Host.Cell → List Host.Cell
  | [] => [(a, b)]
  | (k, v) :: rest =>
    if a < k then (a, b) :: (k, v) :: rest
    else if a = k then (a, b) :: rest
    else (k, v) :: insertCell a b rest

/-- The canonical form of memory: addresses strictly rising, each inside the 32-bit space (20_memory.md R70). -/
def Memory.wf (m : Memory) : Bool :=
  decide (m.cells.Pairwise fun x y => x.1 < y.1) && m.cells.all fun x => decide (x.1 < 2 ^ 32)

/-- The byte an unlisted address reads as: the free value of log 5 (10_state.md R56: unspecified). -/
def unlistedByte (a : Nat) : Byte := Config.unwrittenByte a

/-- The byte memory holds at an address. -/
def Memory.byte (m : Memory) (a : Addr) : Byte := (lookupCell a.toNat m.cells).getD (unlistedByte a.toNat)

/-- Memory after one byte is written. -/
def Memory.setByte (m : Memory) (a : Addr) (b : Byte) : Memory := ⟨insertCell a.toNat b m.cells⟩

/-- The little-endian word of the four bytes from an address (20_memory.md R74, R75). -/
def Memory.word (m : Memory) (a : Addr) : Word :=
  m.byte (a + 3#32) ++ m.byte (a + 2#32) ++ m.byte (a + 1#32) ++ m.byte a

/-- Memory after a word is written, little-endian (20_memory.md R74, R76). -/
def Memory.setWord (m : Memory) (a : Addr) (w : Word) : Memory :=
  (((m.setByte a (w.extractLsb' 0 8)).setByte (a + 1#32) (w.extractLsb' 8 8)).setByte (a + 2#32)
    (w.extractLsb' 16 8)).setByte (a + 3#32) (w.extractLsb' 24 8)

/-- The byte shared memory holds at an address. -/
def State.byteAt (s : State) (a : Addr) : Byte := s.mem.byte a

/-- The word shared memory holds at an address. -/
def State.wordAt (s : State) (a : Addr) : Word := s.mem.word a

/-- Which of the two agents that reach shared memory makes an access (20_memory.md R70). -/
inductive Side where
  | controller
  | device
  deriving DecidableEq, Repr

/-- The controller reaches shared memory exactly while `region_valid = 1` (20_memory.md R92, 10_state.md R33; log 15). -/
def checkRegion (side : Side) (s : State) : Run Unit :=
  if side = .controller ∧ s.regionValid = false then .error (.fault .regionNotMapped) else .ok ()

/-- A 32-bit access needs an address that is a multiple of 4 (20_memory.md R75, R76; log 14). -/
def checkAligned (a : Addr) : Run Unit :=
  if a.toNat % 4 ≠ 0 then .error (.fault .misaligned) else .ok ()

/-- `MemRead(a, 1)` (20_memory.md R75). -/
def memRead8 (side : Side) (a : Addr) (s : State) : Run Byte := do
  checkRegion side s
  pure (s.byteAt a)

/-- `MemRead(a, 4)` (20_memory.md R75). -/
def memRead32 (side : Side) (a : Addr) (s : State) : Run Word := do
  checkRegion side s
  checkAligned a
  pure (s.wordAt a)

/-- `MemWrite(a, 1, b)` (20_memory.md R76). -/
def memWrite8 (side : Side) (a : Addr) (b : Byte) (s : State) : Run State := do
  checkRegion side s
  pure { s with mem := s.mem.setByte a b }

/-- `MemWrite(a, 4, w)` (20_memory.md R76). -/
def memWrite32 (side : Side) (a : Addr) (w : Word) (s : State) : Run State := do
  checkRegion side s
  checkAligned a
  pure { s with mem := s.mem.setWord a w }

/-- `n` byte reads at increasing addresses (20_memory.md R74). -/
def memReadBytes (side : Side) (a : Addr) (s : State) : Nat → Run (List Byte)
  | 0 => pure []
  | n + 1 => do
    let b ← memRead8 side a s
    let bs ← memReadBytes side (a + 1#32) s n
    pure (b :: bs)

/-- Byte writes at increasing addresses (20_memory.md R74). -/
def memWriteBytes (side : Side) (a : Addr) (bytes : List Byte) (s : State) : Run State :=
  match bytes with
  | [] => pure s
  | b :: bs => do
    let s ← memWrite8 side a b s
    memWriteBytes side (a + 1#32) bs s

/-- The ordering point `ORDER` (20_memory.md R83). Accesses of this model take effect in the order listed (R82), so the
point has nothing left to do (log 13). -/
def order (s : State) : State := s

/-! ## Events, results, counters -/

/-- `emit E` (00_scope.md R11, R13): the history is oldest first. -/
def emit (e : Event) (s : State) : State := { s with out := s.out ++ [e] }

/-- `result CODE` with a payload (00_scope.md R11, 10_state.md R49): writes RESULT and emits the event. This is what the
block has for taking an exception in a command (60_exceptions.md R280): no other state changes. -/
def resultWith (code : ResultCode) (payload : ResultPayload) (s : State) : State :=
  emit (.result code payload) { s with result := ⟨code, payload⟩ }

/-- `result CODE` of every command but QUERY: the payload is 0 (10_state.md R49). -/
def result (code : ResultCode) (s : State) : State := resultWith code .zero s

/-- Counter addition modulo 2^CNT_W (10_state.md R25, 40_ring_primitives.md R164 (c)). -/
def addCount (c : Config) (counter n : Nat) : Nat := (counter + n) % 2 ^ c.cntW

/-- Counts the oversize anomaly (60_exceptions.md R285). -/
def countRxFault (s : State) : State := { s with rxFaultCount := addCount s.cfg s.rxFaultCount 1 }

/-- Counts the abnormal-interrupt anomaly (60_exceptions.md R285). -/
def countErr (s : State) : State := { s with errCount := addCount s.cfg s.errCount 1 }

/-- Counts an undeliverable frame (60_exceptions.md R285). -/
def countRxDrop (s : State) : State := { s with rxDropCount := addCount s.cfg s.rxDropCount 1 }

/-- Adds reclaimed slots to tx_reclaimed_count (10_state.md R25). -/
def countReclaimed (n : Nat) (s : State) : State := { s with txReclaimedCount := addCount s.cfg s.txReclaimedCount n }

/-- Cursor advance `(c + 1) mod N` (40_ring_primitives.md R164 (a)). -/
def advance (cur n : Nat) : Nat := (cur + 1) % n

/-! ## Device registers -/

/-- The mask `MAC_EN_MASK` of the MAC configuration register (30_encoding.md R123). -/
def macEnMask (c : Config) : Word := 1#32 <<< c.macTxBit ||| 1#32 <<< c.macRxBit

/-- MAC_EN as the pair `(tx_en, rx_en)` (10_state.md R46). -/
def State.macEn (s : State) : Bool × Bool := (s.macConfig.getLsbD s.cfg.macTxBit, s.macConfig.getLsbD s.cfg.macRxBit)

/-- The registers a read reaches (60_exceptions.md R304); DMA_STATUS is reached by `statusReadClear` only. -/
inductive ReadReg where
  | linkStatus
  | macConfig
  deriving DecidableEq, Repr

/-- The registers a write reaches (60_exceptions.md R304). -/
inductive WriteReg where
  | txDoorbell
  | rxRearm
  | macConfig
  deriving DecidableEq, Repr

/-- `read32` (10_state.md R40); neither register changes by being read (R43, R46). -/
def regRead (r : ReadReg) (s : State) : Word :=
  match r with
  | .linkStatus => s.linkStatus
  | .macConfig => s.macConfig

/-- `read-masked32` (10_state.md R40). -/
def regReadMasked (mask : Word) (r : ReadReg) (s : State) : Word := regRead r s &&& mask

/-- `write32` (10_state.md R40). A doorbell ignores the value and holds no state: its write is the event (R44, R45). -/
def regWrite (r : WriteReg) (v : Word) (s : State) : State :=
  match r with
  | .txDoorbell => emit .txDoorbell s
  | .rxRearm => emit .rxRearm s
  | .macConfig => { s with macConfig := v }

/-- `set-bits32` of the MAC configuration register (10_state.md R40, R46). -/
def macSetBits (mask : Word) (s : State) : State := regWrite .macConfig (regRead .macConfig s ||| mask) s

/-- `clear-bits32` of the MAC configuration register (10_state.md R40, R46). -/
def macClearBits (mask : Word) (s : State) : State := regWrite .macConfig (regRead .macConfig s &&& ~~~mask) s

/-- The value a doorbell is written with (10_state.md R44; ignored). -/
def doorbellValue : Word := 0xFFFFFFFF#32

/-! ## The pass: entry and return -/

/-- The normal return of the wait, the first half of the entry to a pass (60_exceptions.md R292, 41_interrupt_dispatcher.md
R182). -/
def enterPass (s : State) : State := { s with irqPending := false, wstate := .processing, wphase := .rdclr }

/-- The read-and-clear of DMA_STATUS into isr_latch, the second half of the entry (60_exceptions.md R292,
41_interrupt_dispatcher.md R184): clears exactly the bits read. -/
def statusReadClear (s : State) : State :=
  { s with isrLatch := s.dmaStatus, dmaStatus := s.dmaStatus &&& ~~~s.dmaStatus }

/-- The return from a pass (60_exceptions.md R294, 41_interrupt_dispatcher.md R194): nothing is restored. -/
def returnFromPass (s : State) : State := { s with wphase := .rdclr, wstate := .waiting }

/-- The Worker goes on to the next phase (10_state.md R31). -/
def toPhase (p : WPhase) (s : State) : State := { s with wphase := p }

/-! ## Reset -/

/-- The reset event `rst` (70_reset_and_hazards.md R320, R321): controller registers, RESULT, irq_pending and the MAC enables
take their reset value, the histories start empty, no event is emitted; shared memory, DMA_STATUS, LINK_STATUS and the other
bits of the MAC configuration register stay; the Device counts as quiesced (R321; log 16). The inputs still to come stay. -/
def applyRst (s : State) : State :=
  { State.resetWith s.cfg with
    dmaStatus := s.dmaStatus
    linkStatus := s.linkStatus
    macConfig := s.macConfig &&& ~~~(macEnMask s.cfg)
    mem := s.mem
    devTxCur := s.devTxCur
    devRxCur := s.devRxCur
    devQuiesced := true
    sched := s.sched
    bus := s.bus
    drawCtr := s.drawCtr }

end Sys2Proof.Machine
end

