-- ==== Sys2Proof/Machine/Flags.lean ====
section
/-! DEFINITION. The bit fields and constant words of descriptors, DMA_STATUS and LINK_STATUS (30_encoding.md R111 to R122), and
the numeric codes of the enumerations (R128, R131 to R133). -/

namespace Sys2Proof.Machine

/-- The word with bit `b` alone. -/
def bit (b : Nat) : Word := 1#32 <<< b

/-- The word with the `w` bits from `lo` set. -/
def fieldMask (lo w : Nat) : Word := BitVec.ofNat 32 ((2 ^ w - 1) * 2 ^ lo)

/-- The OWN bit of a status word (30_encoding.md R112, R113). -/
def ownOf (c : Config) (status : Word) : Bool := status.getLsbD c.ownBit

/-- `size_field(n) = (n & (2^SIZE_W - 1)) * 2^SIZE_LO` (30_encoding.md R118). -/
def sizeField (c : Config) (n : Nat) : Word := BitVec.ofNat 32 ((n &&& (2 ^ c.sizeW - 1)) * 2 ^ c.sizeLo)

/-- The SIZE field of a control word, `ctl[SIZE_LO + SIZE_W - 1 : SIZE_LO]` (30_encoding.md R114). -/
def sizeOf (c : Config) (control : Word) : Nat := control.toNat / 2 ^ c.sizeLo % 2 ^ c.sizeW

/-- `frame_len(st)` (30_encoding.md R119). -/
def frameLen (c : Config) (status : Word) : Nat := status.toNat / 2 ^ c.rxLenLo % 2 ^ c.rxLenW

/-- TX_INIT_STATUS (30_encoding.md R120). -/
def txInitStatus : Word := 0#32

/-- TX_INIT_CONTROL = 2^CHAIN_BIT (30_encoding.md R120). -/
def txInitControl (c : Config) : Word := bit c.chainBit

/-- RX_ARM_STATUS = 2^OWN_BIT (30_encoding.md R120). -/
def rxArmStatus (c : Config) : Word := bit c.ownBit

/-- RX_INIT_CONTROL = 2^CHAIN_BIT or size_field(SLOT_SIZE) (30_encoding.md R120). -/
def rxInitControl (c : Config) : Word := bit c.chainBit ||| sizeField c c.slotSize

/-- TX_SUBMIT_STATUS = 2^OWN_BIT (30_encoding.md R120). -/
def txSubmitStatus (c : Config) : Word := bit c.ownBit

/-- TXF, the control flags QUEUE_TX passes to SUBMIT_TX (10_state.md R34, 30_encoding.md R120). -/
def txf (c : Config) : Word := bit c.txIntBit ||| bit c.txLastBit ||| bit c.txFirstBit ||| bit c.chainBit

/-- The reserved bits of a control word: all but the four flags and SIZE (30_encoding.md R114). -/
def controlReserved (c : Config) : Word := ~~~(txf c ||| fieldMask c.sizeLo c.sizeW)

/-- `flags` is a mask of control flag bits (40_ring_primitives.md R155): no SIZE bit, no reserved bit (30_encoding.md R114, R130). -/
def flagsOnly (c : Config) (flags : Word) : Bool := decide (flags &&& ~~~(txf c) = 0#32)

/-- The control word SUBMIT_TX writes (40_ring_primitives.md R155). -/
def submitControl (c : Config) (flags : Word) (len : Nat) : Word := flags ||| sizeField c len

/-- The status word DEV_TX_COMPLETE writes: the drawn flags with OWN = 0 (44_device_agent.md R253, 30_encoding.md R135). -/
def txDoneStatus (c : Config) (flags : Word) : Word := flags &&& ~~~(bit c.ownBit)

/-- The status word DEV_RX_FILL writes: `f | L * 2^RX_LEN_LO`, the drawn flags with OWN and FRAME_LEN clear
(44_device_agent.md R255). -/
def rxFillStatus (c : Config) (flags : Word) (len : Nat) : Word :=
  (flags &&& ~~~(bit c.ownBit ||| fieldMask c.rxLenLo c.rxLenW)) ||| BitVec.ofNat 32 (len * 2 ^ c.rxLenLo)

/-- The four causes of DMA_STATUS and isr_latch (30_encoding.md R121, 60_exceptions.md R286). -/
def txCompleteOf (c : Config) (st : Word) : Bool := st.getLsbD c.stTxComplete
/-- See `txCompleteOf`. -/
def rxCompleteOf (c : Config) (st : Word) : Bool := st.getLsbD c.stRxComplete
/-- See `txCompleteOf`. -/
def abnormalOf (c : Config) (st : Word) : Bool := st.getLsbD c.stAbnormal
/-- See `txCompleteOf`. -/
def linkChangeOf (c : Config) (st : Word) : Bool := st.getLsbD c.stLinkChange

/-- The link level of a LINK_STATUS word (30_encoding.md R122). -/
def linkUpOf (c : Config) (raw : Word) : Bool := raw.getLsbD c.linkUpBit

/-- The 2-bit code of `life` (30_encoding.md R131). -/
def lifeCode : Life → BitVec 2
  | .uninit => 0#2
  | .running => 1#2
  | .stopping => 2#2
  | .stopped => 3#2

/-- The 2-bit code of `wstate` (30_encoding.md R132). -/
def wstateCode : WState → BitVec 2
  | .idle => 0#2
  | .waiting => 1#2
  | .processing => 2#2
  | .terminated => 3#2

/-- The 3-bit code of `wphase` (30_encoding.md R133); 5 to 7 never occur. -/
def wphaseCode : WPhase → BitVec 3
  | .rdclr => 0#3
  | .link => 1#3
  | .rx => 2#3
  | .abn => 3#3
  | .txr => 4#3

/-- The 4-bit result code (30_encoding.md R128). -/
def resultCodeBits : ResultCode → BitVec 4
  | .ok => 0#4
  | .unavailable => 1#4
  | .invalidArgs => 2#4
  | .alreadyBound => 3#4
  | .badState => 4#4
  | .noMemory => 5#4
  | .timedOut => 6#4
  | .notSupported => 7#4

end Sys2Proof.Machine
end

