-- ==== Sys2Proof/Machine/Operands.lean ====
section
/-! DEFINITION. Where operands come from: descriptor and buffer addresses (20_memory.md R72, R73), the TX payload input
(10_state.md R50), and the views of descriptors and slots the rules name (00_scope.md R10, 10_state.md R58). -/

namespace Sys2Proof.Machine

/-! ## Addresses -/

/-- `N_d`. -/
def ringLen (c : Config) (d : Dir) : Nat :=
  match d with
  | .tx => c.nTx
  | .rx => c.nRx

/-- `d_DESC_BASE`. -/
def descBase (c : Config) (d : Dir) : Nat :=
  match d with
  | .tx => c.txDescBase
  | .rx => c.rxDescBase

/-- `d_BUF_BASE`. -/
def bufBase (c : Config) (d : Dir) : Nat :=
  match d with
  | .tx => c.txBufBase
  | .rx => c.rxBufBase

/-- `DADDR(d, i) = d_DESC_BASE + i * DESC_STRIDE` (20_memory.md R72). -/
def daddr (c : Config) (d : Dir) (i : Nat) : Addr := BitVec.ofNat 32 (descBase c d + i * c.descStride)

/-- `BADDR(d, i) = d_BUF_BASE + i * SLOT_SIZE` (20_memory.md R73). -/
def baddr (c : Config) (d : Dir) (i : Nat) : Addr := BitVec.ofNat 32 (bufBase c d + i * c.slotSize)

/-- Where `D[i].status` stands (20_memory.md R72). -/
def statusAddr (c : Config) (d : Dir) (i : Nat) : Addr := daddr c d i

/-- Where `D[i].control` stands (20_memory.md R72). -/
def controlAddr (c : Config) (d : Dir) (i : Nat) : Addr := daddr c d i + 4#32

/-- Where `D[i].buffer_address` stands (20_memory.md R72). -/
def bufferAddressAddr (c : Config) (d : Dir) (i : Nat) : Addr := daddr c d i + 8#32

/-- Where `D[i].next` stands (20_memory.md R72). -/
def nextAddr (c : Config) (d : Dir) (i : Nat) : Addr := daddr c d i + 12#32

/-- Where byte `j` of slot `i` stands (20_memory.md R73). -/
def slotByteAddr (c : Config) (d : Dir) (i j : Nat) : Addr := baddr c d i + BitVec.ofNat 32 j

/-! ## Views of descriptors and buffers -/

/-- A descriptor record (30_encoding.md R111). -/
structure Desc where
  status : Word
  control : Word
  bufferAddress : Word
  next : Word
  deriving DecidableEq, Repr

/-- `TXD[i]` or `RXD[i]` (10_state.md R55). -/
def State.desc (s : State) (d : Dir) (i : Nat) : Desc where
  status := s.wordAt (statusAddr s.cfg d i)
  control := s.wordAt (controlAddr s.cfg d i)
  bufferAddress := s.wordAt (bufferAddressAddr s.cfg d i)
  next := s.wordAt (nextAddr s.cfg d i)

/-- `D[i].OWN` (00_scope.md R10). -/
def State.own (s : State) (d : Dir) (i : Nat) : Bool := ownOf s.cfg (s.wordAt (statusAddr s.cfg d i))

/-- The first `n` bytes of buffer slot `i` (10_state.md R56). -/
def State.slotBytes (s : State) (d : Dir) (i n : Nat) : List Byte :=
  (List.range n).map fun j => s.byteAt (slotByteAddr s.cfg d i j)

/-- The derived view `running` (10_state.md R29). -/
def State.running (s : State) : Bool := decide (s.life = .running)

/-- The slot tags (10_state.md R58). -/
inductive SlotTag where
  | free
  | submittedToDevice
  | readyForSoftware
  deriving DecidableEq, Repr

/-- TX index `i` is in the in-flight window: the `tx_inflight` indices from `tx_reclaim_cur` (10_state.md R58). -/
def State.inFlight (s : State) (i : Nat) : Bool :=
  (List.range s.txInflight).any fun k => decide ((s.txReclaimCur + k) % s.cfg.nTx = i)

/-- The tag of TX slot `i` (10_state.md R58). -/
def State.txTag (s : State) (i : Nat) : SlotTag :=
  if s.own .tx i then .submittedToDevice else if s.inFlight i then .readyForSoftware else .free

/-- The tag of RX slot `i` (10_state.md R58). -/
def State.rxTag (s : State) (i : Nat) : SlotTag :=
  if s.own .rx i then .submittedToDevice
  else if i = s.rxCur ∧ s.rxHold = true then .free
  else .readyForSoftware

/-! ## The TX payload input -/

/-- Byte `j` of the TX payload input: what the Client presents, a free value where it presents nothing (10_state.md R50;
log 8). -/
def payloadByte (s : State) (j : Nat) : Byte := (s.bus.payload[j]?).getD (Config.undrivenByte s.drawCtr j)

/-- `payload[0..len-1]` (10_state.md R50). -/
def payloadIn (s : State) (len : Nat) : List Byte := (List.range len).map fun j => payloadByte s j

/-- Marks the free values of the payload input as used: the next command's are others (log 8). -/
def nextDraw (s : State) : State := { s with drawCtr := s.drawCtr + 1 }

end Sys2Proof.Machine
end

