-- ==== Sys2Proof/Machine/Sequencer.lean ====
section
/-! DEFINITION. Where the block's sequencer stands: the phase of a pass (41_interrupt_dispatcher.md R181), and the operation inside
which a code that is no step of its own runs (30_encoding.md R136, 42_link_monitor.md R210; log 9). -/

namespace Sys2Proof.Machine

/-- The Worker is in phase `p` of a pass. -/
def inPhase (p : WPhase) (s : State) : Bool := decide (s.wstate = .processing) && decide (s.wphase = p)

/-- A step of phase `p` makes no move outside that phase (R181). -/
def whenInPhase (p : WPhase) (s : State) (r : Run State) : Run State := if inPhase p s then r else noMove .notEnabled

/-- The caller has come to where its listing calls the embedded code: INIT with the region mapped (43_engine_facade.md R221), QUEUE_TX
past its first two tests (R229), LINK_PHASE, RX_DRAIN and TX_RECLAIM_PASS in their phase with their cause latched
(41_interrupt_dispatcher.md R186, R188, R194; the return half of RX_DRAIN tests no cause). -/
def callerReady (k : Caller) (s : State) : Bool :=
  match k with
  | .init => decide (s.life = .uninit) && s.regionValid
  | .queueTx => decide (s.life = .running) && s.online && s.regionValid
  | .linkPhase => inPhase .link s && linkChangeOf s.cfg s.isrLatch
  | .rxDrain => inPhase .rx s && (s.rxHold || rxCompleteOf s.cfg s.isrLatch) && s.regionValid
  | .txReclaimPass => inPhase .txr s && txCompleteOf s.cfg s.isrLatch && s.regionValid

/-- The sequencer stands inside the caller, where it calls the embedded code. -/
def standsInside (k : Caller) (s : State) : Bool := decide (s.inside = some k) && callerReady k s

/-- An embedded code runs inside its caller and nowhere else: it is no step of its own (42_link_monitor.md R210, 40_ring_primitives.md
R152, R154, R160, R163; 60_exceptions.md R300 (1); log 9). -/
def whenInside (k : Caller) (s : State) (r : Run State) : Run State := if standsInside k s then r else noMove .notEnabled

/-- The embedded code answers its caller, and the call is over. -/
def answerCaller (v : OpReturn) (s : State) : State := { s with ret := v, inside := none }

/-- `isr_latch` with bit `b` set. -/
def latchCause (b : Nat) (s : State) : State := { s with isrLatch := s.isrLatch ||| bit b }

/-- `s` with the sequencer standing inside a caller (log 21). -/
def standInside (k : Caller) (s : State) : State :=
  match k with
  | .init => { s with inside := some .init, life := .uninit, regionValid := true }
  | .queueTx => { s with inside := some .queueTx, life := .running, online := true, regionValid := true }
  | .linkPhase =>
    latchCause s.cfg.stLinkChange
      { s with inside := some .linkPhase, wstate := .processing, wphase := .link,
               bus := { s.bus with raw := s.linkStatus } }
  | .rxDrain =>
    latchCause s.cfg.stRxComplete
      { s with inside := some .rxDrain, wstate := .processing, wphase := .rx, regionValid := true }
  | .txReclaimPass =>
    latchCause s.cfg.stTxComplete
      { s with inside := some .txReclaimPass, wstate := .processing, wphase := .txr, regionValid := true }

end Sys2Proof.Machine
end

