-- ==== Sys2Proof/Machine/LinkMonitor.lean ====
section
/-! DEFINITION. The link monitor (42_link_monitor.md R210 to R216). -/

namespace Sys2Proof.Machine

/-- `if bound = 1: emit LINK_NOTIFY(client_id, online)` (R211, R215). -/
def notifyLink (up : Bool) (s : State) : State :=
  if s.bound then emit (.linkNotify s.clientId up) s else s

/-- The edge to "up": MAC enables set before the notification (R211, R213). -/
def linkUpEdge (s : State) : State :=
  notifyLink true (emit (.macEnSet true true) (macSetBits (macEnMask s.cfg) { s with online := true }))

/-- The edge to "down": MAC_EN is left as it is (R211, R214). -/
def linkDownEdge (s : State) : State := notifyLink false { s with online := false }

/-- The edge decision compares the new link bit with the stored `online` (R211, R212): no edge, nothing. -/
def linkEdge (new : Bool) (s : State) : State :=
  if new = s.online then s else if new then linkUpEdge s else linkDownEdge s

/-- `link_raw_last <- raw`, edge or not (R211, R212). -/
def latchRaw (raw : Word) (s : State) : State := { s with linkRawLast := raw }

/-- LINK_UPDATE(raw) (R211). -/
def linkUpdate (raw : Word) (s : State) : State := linkEdge (linkUpOf s.cfg raw) (latchRaw raw s)

/-- LINK_UPDATE, called by LINK_PHASE only (R210), with `raw` from the internal bus (30_encoding.md R127): the word just read from
LINK_STATUS (R211), which no Device move of the same step can have changed (log 9). -/
def execLinkUpdate (s : State) : Out :=
  finish (whenInside .linkPhase s (if s.bus.raw = regRead .linkStatus s then
    pure (answerCaller .nothing (linkUpdate s.bus.raw s))
  else noMove .notEnabled))

end Sys2Proof.Machine
end

