-- ==== Sys2Proof/Machine/Ring.lean ====
section
/-! DEFINITION. The ring primitives (40_ring_primitives.md R150 to R166): the shared operations that commands and Worker steps are
built from, and the meaning of each primitive's own code, run inside its caller (log 9). -/

namespace Sys2Proof.Machine

/-! ## RING_INIT (R151) -/

/-- The TX or RX control word RING_INIT writes (R151). -/
def initControl (c : Config) : Dir → Word
  | .tx => txInitControl c
  | .rx => rxInitControl c

/-- The status word RING_INIT writes: TX software-owned, RX device-owned (R151). -/
def initStatus (c : Config) : Dir → Word
  | .tx => txInitStatus
  | .rx => rxArmStatus c

/-- One iteration of RING_INIT: the four words of descriptor `i`, `status` last (R151). -/
def ringInitSlot (d : Dir) (i : Nat) (s : State) : Run State := do
  let c := s.cfg
  let s ← memWrite32 .controller (bufferAddressAddr c d i) (baddr c d i) s
  let s ← memWrite32 .controller (nextAddr c d i) (daddr c d ((i + 1) % ringLen c d)) s
  let s ← memWrite32 .controller (controlAddr c d i) (initControl c d) s
  memWrite32 .controller (statusAddr c d i) (initStatus c d) s

/-- The loop of RING_INIT over the indices given (R151). -/
def ringInitSlots (d : Dir) : List Nat → State → Run State
  | [], s => pure s
  | i :: rest, s => do
    let s ← ringInitSlot d i s
    ringInitSlots d rest s

/-- The cursors RING_INIT sets to 0 (R151). -/
def resetCursors (d : Dir) (s : State) : State :=
  match d with
  | .tx => { s with txClaimCur := 0, txReclaimCur := 0, txInflight := 0 }
  | .rx => { s with rxCur := 0 }

/-- RING_INIT(dir) (R151). -/
def ringInit (d : Dir) (s : State) : Run State := do
  let s ← ringInitSlots d (List.range (ringLen s.cfg d)) s
  pure (resetCursors d s)

/-! ## TRY_CLAIM_NEXT_TX (R153) -/

/-- TRY_CLAIM_NEXT_TX: `Some(slot)` if the slot at the claim cursor is software-owned (R153). -/
def tryClaimNextTx (s : State) : Run (Option Nat) := do
  let slot := s.txClaimCur
  let st ← memRead32 .controller (statusAddr s.cfg .tx slot) s
  pure (if ownOf s.cfg st then none else some slot)

/-! ## SUBMIT_TX (R155, R156) -/

/-- The in-flight window takes one more slot: where it is the whole ring, its oldest member is the slot just reused, which is
reclaimed first (R156). -/
def growWindow (s : State) : State :=
  if s.txInflight = s.cfg.nTx then countReclaimed 1 { s with txReclaimCur := advance s.txReclaimCur s.cfg.nTx }
  else { s with txInflight := s.txInflight + 1 }

/-- The cursor and in-flight bookkeeping of SUBMIT_TX with its implicit reclaim (R156). -/
def submitBookkeeping (slot : Nat) (s : State) : State :=
  { growWindow s with txClaimCur := advance slot s.cfg.nTx }

/-- SUBMIT_TX(slot, payload, flags) (R155): payload bytes, control, ORDER, status with OWN = 1, bookkeeping. -/
def submitTx (slot : Nat) (payload : List Byte) (flags : Word) (s : State) : Run State := do
  let c := s.cfg
  let s ← memWriteBytes .controller (baddr c .tx slot) payload s
  let s ← memWrite32 .controller (controlAddr c .tx slot) (submitControl c flags payload.length) s
  let s ← memWrite32 .controller (statusAddr c .tx slot) (txSubmitStatus c) (order s)
  pure (submitBookkeeping slot s)

/-! ## RECLAIM_TX_COMPLETED (R158) -/

/-- The loop of RECLAIM_TX_COMPLETED: `n` is `tx_inflight` at the loop test, which every iteration lowers by one; answers the
state and `count` (R158). -/
def reclaimLoop (s : State) : Nat → Run (State × Nat)
  | 0 => pure (s, 0)
  | n + 1 => do
    let st ← memRead32 .controller (statusAddr s.cfg .tx s.txReclaimCur) s
    if ownOf s.cfg st then pure (s, 0)
    else do
      let r ← reclaimLoop { s with txReclaimCur := advance s.txReclaimCur s.cfg.nTx, txInflight := n } n
      pure (r.1, r.2 + 1)

/-- RECLAIM_TX_COMPLETED: the state and `count` (R158). -/
def reclaimTxCompleted (s : State) : Run (State × Nat) := do
  let r ← reclaimLoop s s.txInflight
  pure (countReclaimed r.2 r.1, r.2)

/-! ## REAP_RX: RX_TAKE and RX_RETURN (R160 to R162) -/

/-- RX_TAKE, the first half of an iteration (R161). At `Empty` the iterator ends and its local `returned` starts again
at 0 (R160). -/
def rxTake (s : State) : Run (State × RxTake) := do
  let st ← memRead32 .controller (statusAddr s.cfg .rx s.rxCur) s
  if ownOf s.cfg st then pure ({ s with reapReturned := 0 }, .empty)
  else do
    let s := { order s with rxHold := true }
    if s.cfg.slotSize < frameLen s.cfg st then pure (countRxFault s, .oversize)
    else do
      let bytes ← memReadBytes .controller (baddr s.cfg .rx s.rxCur) s (frameLen s.cfg st)
      pure (s, .frame bytes)

/-- RX_RETURN, the second half (R162): the descriptor is reset before the cursor advances. -/
def rxReturn (s : State) : Run State := do
  let s ← memWrite32 .controller (statusAddr s.cfg .rx s.rxCur) (rxArmStatus s.cfg) (order s)
  pure { s with
    rxCur := advance s.rxCur s.cfg.nRx
    rxHold := false
    reapReturned := s.reapReturned + 1 }

/-! ## The meanings of the five codes, run inside their callers (log 9) -/

/-- RING_INIT, called by INIT only, while `life = UNINIT` (R152), with the region its caller has mapped (43_engine_facade.md R221). -/
def execRingInit (d : Dir) (s : State) : Out :=
  finish (whenInside .init s do
    let s ← ringInit d s
    pure (answerCaller .nothing s))

/-- TRY_CLAIM_NEXT_TX, called by QUEUE_TX: the answer goes to the return latch, no state of the block changes (R153). -/
def execTryClaimNextTx (s : State) : Out :=
  finish (whenInside .queueTx s do
    let slot ← tryClaimNextTx s
    pure (answerCaller (.claim slot) s))

/-- What SUBMIT_TX's operands are: the slot TRY_CLAIM_NEXT_TX answers, software-owned; a payload that fits; a mask of control flag
bits (R155, R157; 20_memory.md R80, 30_encoding.md R114, R130). -/
def submitAllowed (s : State) : Bool :=
  decide (s.bus.slot = s.txClaimCur) && !(s.own .tx s.bus.slot) && decide (s.bus.payload.length ≤ s.cfg.slotSize) &&
  flagsOnly s.cfg s.bus.flags

/-- SUBMIT_TX, called by QUEUE_TX, with slot, payload and flags from the internal buses (R155, 30_encoding.md R127). -/
def execSubmitTx (s : State) : Out :=
  finish (whenInside .queueTx s (if submitAllowed s then do
    let s ← submitTx s.bus.slot s.bus.payload s.bus.flags s
    pure (answerCaller .nothing s)
  else noMove .notEnabled))

/-- RECLAIM_TX_COMPLETED, called by TX_RECLAIM_PASS: `count` goes to the return latch (R158). -/
def execReclaimTxCompleted (s : State) : Out :=
  finish (whenInside .txReclaimPass s do
    let r ← reclaimTxCompleted s
    pure (answerCaller (.count r.2) r.1))

/-- What the consumer of REAP_RX is handed by a take: the frame or the oversize mark, or `returned` at the end (R160). -/
def takeReturn (returned : Nat) : RxTake → OpReturn
  | .empty => .reaped returned
  | .oversize => .take .oversize
  | .frame bytes => .take (.frame bytes)

/-- REAP_RX, driven by RX_DRAIN: the next half-iteration, RX_TAKE while `rx_hold = 0` and RX_RETURN while `rx_hold = 1`
(R160 to R162; log 17). -/
def execReapRx (s : State) : Out :=
  finish (whenInside .rxDrain s (if s.rxHold then do
    let s ← rxReturn s
    pure (answerCaller .nothing s)
  else do
    let r ← rxTake s
    pure (answerCaller (takeReturn s.reapReturned r.2) r.1)))

end Sys2Proof.Machine
end

