-- ==== Sys2Proof/Machine/Dispatcher.lean ====
section
/-! DEFINITION. The Worker: the interrupt dispatcher and the reaping state machine (41_interrupt_dispatcher.md R180 to R199). -/

namespace Sys2Proof.Machine

/-- The wait of IRQ_WAIT returns: the object is invalid or an interrupt is pending (R182). -/
def waitReturns (s : State) : Bool := !s.irqValid || s.irqPending

/-- IRQ_WAIT (R182): cancellation wins over a pending interrupt (60_exceptions.md R290). While the object is valid and nothing
is pending the Worker stays blocked in WAITING (R181; log 11). -/
def execIrqWait (s : State) : Out :=
  finish (if s.wstate = .waiting then
    if s.irqValid = false then pure { s with wstate := .terminated }
    else if s.irqPending then pure (enterPass s)
    else pure s
  else noMove .notEnabled)

/-- STATUS_RDCLR (R184). -/
def execStatusRdclr (s : State) : Out :=
  finish (whenInPhase .rdclr s (pure (toPhase .link (statusReadClear s))))

/-- LINK_PHASE (R186): phase (a). -/
def execLinkPhase (s : State) : Out :=
  finish (whenInPhase .link s (pure (toPhase .rx
    (if linkChangeOf s.cfg s.isrLatch then linkUpdate (regRead .linkStatus s) s else s))))

/-- The consumer of a take: the delivery gate (R188, R189). -/
def consume (t : RxTake) (s : State) : State :=
  match t with
  | .empty => toPhase .abn s
  | .oversize => s
  | .frame bytes => if s.bound && s.online then emit (.rxDeliver s.clientId bytes) s else countRxDrop s

/-- The take step of RX_DRAIN (R188). -/
def drainTake (s : State) : Run State :=
  if rxCompleteOf s.cfg s.isrLatch then do
    let r ← rxTake s
    pure (consume r.2 r.1)
  else pure (toPhase .abn s)

/-- The return step of RX_DRAIN: RX_RETURN, ORDER, the RX_REARM write (R188). -/
def drainReturn (s : State) : Run State := do
  let s ← rxReturn s
  pure (regWrite .rxRearm doorbellValue (order s))

/-- RX_DRAIN (R188): phase (b), one half-iteration of REAP_RX a step. -/
def execRxDrain (s : State) : Out :=
  finish (whenInPhase .rx s (if s.rxHold then drainReturn s else drainTake s))

/-- ABNORMAL_COUNT (R192): phase (c). -/
def execAbnormalCount (s : State) : Out :=
  finish (whenInPhase .abn s (pure (toPhase .txr (if abnormalOf s.cfg s.isrLatch then countErr s else s))))

/-- TX_RECLAIM_PASS (R194): phase (d) and the end of the pass. -/
def execTxReclaimPass (s : State) : Out :=
  finish (whenInPhase .txr s (do
    let s ← if txCompleteOf s.cfg s.isrLatch then do
        let r ← reclaimTxCompleted s
        pure r.1
      else pure s
    pure (returnFromPass s)))

/-- The one Worker step that is enabled, if any (R181). -/
def workerOp (s : State) : Option Instr :=
  match s.wstate with
  | .idle => none
  | .terminated => none
  | .waiting => if waitReturns s then some .irqWait else none
  | .processing =>
    match s.wphase with
    | .rdclr => some .statusRdclr
    | .link => some .linkPhase
    | .rx => some .rxDrain
    | .abn => some .abnormalCount
    | .txr => some .txReclaimPass

end Sys2Proof.Machine
end

