-- ==== Sys2Proof/Machine/Device.lean ====
section
/-! DEFINITION. The Device agent (44_device_agent.md R250 to R267): four moves, each enabled exactly where the contract says. -/

namespace Sys2Proof.Machine

/-- The window of activity of the two moves that touch shared memory (R253, R255, R263). -/
def deviceActive (s : State) : Bool := (decide (s.life = .running) || decide (s.life = .stopping)) && !s.devQuiesced

/-- The Device's reads of a descriptor: all four words (20_memory.md R90). The `status` word is the poll of OWN, `next` is what it
follows (44_device_agent.md R251 (d); log 23). -/
def devReadDesc (d : Dir) (i : Nat) (s : State) : Run Desc := do
  let status ← memRead32 .device (statusAddr s.cfg d i) s
  let control ← memRead32 .device (controlAddr s.cfg d i) s
  let bufferAddress ← memRead32 .device (bufferAddressAddr s.cfg d i) s
  let next ← memRead32 .device (nextAddr s.cfg d i) s
  pure ⟨status, control, bufferAddress, next⟩

/-- DEV_TX_COMPLETE with its flags draw (R253): the frame is read before the status word is written. -/
def devTxComplete (flags : Word) (s : State) : Run State :=
  if deviceActive s && s.own .tx s.devTxCur then do
    let c := s.cfg
    let slot := s.devTxCur
    let desc ← devReadDesc .tx slot s
    let frame ← memReadBytes .device desc.bufferAddress s (sizeOf c desc.control)
    let s ← memWrite32 .device (statusAddr c .tx slot) (txDoneStatus c flags) { s with wire := s.wire ++ [frame] }
    pure { s with devTxCur := advance slot c.nTx }
  else noMove .notEnabled

/-- The draw of DEV_RX_FILL is inside the contract: at most SLOT_SIZE bytes, a length the field holds (R251 (b), R255). -/
def fillAllowed (c : Config) (data : List Byte) (len : Nat) : Bool :=
  decide (data.length ≤ c.slotSize) && decide (len < 2 ^ c.rxLenW)

/-- DEV_RX_FILL with its draws (R255): the bytes are written before the status word. -/
def devRxFill (data : List Byte) (len : Nat) (flags : Word) (s : State) : Run State :=
  if deviceActive s && s.own .rx s.devRxCur then
    if fillAllowed s.cfg data len then do
      let c := s.cfg
      let slot := s.devRxCur
      let desc ← devReadDesc .rx slot s
      let s ← memWriteBytes .device desc.bufferAddress data s
      let s ← memWrite32 .device (statusAddr c .rx slot) (rxFillStatus c flags len) s
      pure { s with devRxCur := advance slot c.nRx }
    else noMove .outsideContract
  else noMove .notEnabled

/-- DEV_SET_STATUS(bits) (R257): no bit is set without the latch. -/
def devSetStatus (bits : Word) (s : State) : State :=
  { s with dmaStatus := s.dmaStatus ||| bits, irqPending := s.irqPending || decide (bits ≠ 0#32) }

/-- DEV_LINK_SET(raw) (R259). -/
def devLinkSet (raw : Word) (s : State) : State := { s with linkStatus := raw }

/-- A Device move given with its draws. -/
def runDevMove : DevMove → State → Run State
  | .txComplete flags, s => devTxComplete flags s
  | .rxFill data len flags, s => devRxFill data len flags s
  | .setStatus bits, s => pure (devSetStatus bits s)
  | .linkSet raw, s => pure (devLinkSet raw s)

/-- Device moves one after another. -/
def runDevMoves : List DevMove → State → Run State
  | [], s => pure s
  | m :: rest, s => do
    let s ← runDevMove m s
    runDevMoves rest s

/-- DEV_TX_COMPLETE, its draw on the bus. -/
def execDevTxComplete (s : State) : Out := finish (devTxComplete s.bus.devFlags s)

/-- DEV_RX_FILL, its draws on the bus. -/
def execDevRxFill (s : State) : Out := finish (devRxFill s.bus.data s.bus.len s.bus.devFlags s)

/-- DEV_SET_STATUS, its draw on the bus; enabled always. -/
def execDevSetStatus (s : State) : Out := finish (pure (devSetStatus s.bus.bits s))

/-- DEV_LINK_SET, its draw on the bus; enabled always. -/
def execDevLinkSet (s : State) : Out := finish (pure (devLinkSet s.bus.raw s))

end Sys2Proof.Machine
end

