-- ==== Sys2Proof/Machine/Facade.lean ====
section
/-! DEFINITION. The engine facade: the five client commands (43_engine_facade.md R220 to R233), the second half of STOP, and the
answer to a word CMD does not accept (30_encoding.md R129). A condition that ends a command is `result CODE`
(60_exceptions.md R280, R281), an ordinary next state. -/

namespace Sys2Proof.Machine

/-! ## INIT (R221) -/

/-- The Device is pointed at slot 0 of each ring (R221). -/
def pointDevice (s : State) : State := { s with devTxCur := 0, devRxCur := 0, devQuiesced := false }

/-- The interrupt object becomes valid, the engine runs, the Worker starts waiting (R221). -/
def startEngine (s : State) : State := { s with irqValid := true, life := .running, wstate := .waiting }

/-- INIT (R221): all of it or nothing (R222). -/
def execInit (s : State) : Out :=
  finish (if s.life ≠ .uninit then pure (result .badState s)
  else if s.bus.allocOk = false then pure (result .noMemory s)
  else do
    let s ← ringInit .tx { s with regionValid := true }
    let s ← ringInit .rx s
    pure (result .ok (startEngine (pointDevice s))))

/-! ## START (R223) -/

/-- START(client_id) (R223): the publication reports the stored `online`. -/
def execStart (clientId : Arg) (s : State) : Out :=
  finish (pure (if s.life ≠ .running then result .badState s
  else if s.bound then result .alreadyBound s
  else result .ok (emit (.linkNotify clientId s.online) { s with bound := true, clientId := clientId })))

/-! ## STOP (R226 to R228) -/

/-- STOP_BEGIN, the first half (R227). -/
def stopBegin (s : State) : State :=
  emit .irqInvalidate { s with life := .stopping, bound := false, irqValid := false }

/-- STOP (R226): a no-op answering OK unless RUNNING; else STOP_BEGIN, after which STOP waits for the Worker and RESULT is
written by `stopFinish`. -/
def execStop (s : State) : Out :=
  finish (pure (if s.life ≠ .running then result .ok s else stopBegin s))

/-- STOP_FINISH is enabled (R228). -/
def stopFinishEnabled (s : State) : Bool := decide (s.life = .stopping) && decide (s.wstate = .terminated)

/-- The MAC enables are cleared and the Device is quiet (R228). -/
def quiesceDevice (s : State) : State :=
  { emit (.macEnSet false false) (macClearBits (macEnMask s.cfg) s) with devQuiesced := true }

/-- The region is released (R228). -/
def releaseRegion (s : State) : State := emit .regionRelease { s with regionValid := false }

/-- STOP_FINISH, the second half, and the `result OK` that ends STOP (R226, R228; log 18). -/
def stopFinish (s : State) : Out :=
  finish (if stopFinishEnabled s then pure (result .ok { releaseRegion (quiesceDevice s) with life := .stopped })
  else noMove .notEnabled)

/-! ## QUEUE_TX (R229) -/

/-- QUEUE_TX after its checks, on the claimed slot: SUBMIT_TX, ORDER, the Device moves at the split point (R231; log 12), the
doorbell, OK (R229). -/
def queueOnSlot (slot : Nat) (payload : List Byte) (split : List DevMove) (s : State) : Run State := do
  let s ← submitTx slot payload (txf s.cfg) s
  let s ← runDevMoves split (order s)
  pure (result .ok (regWrite .txDoorbell doorbellValue s))

/-- QUEUE_TX of `len` bytes (R229): not running, link down, oversize, ring full, in that order (60_exceptions.md R289). -/
def execQueueTx (len : Arg) (s : State) : Out :=
  finish (if s.life ≠ .running then pure (result .unavailable s)
  else if s.online = false then pure (result .unavailable s)
  else if s.cfg.slotSize < len.toNat then pure (result .invalidArgs s)
  else do
    let claim ← tryClaimNextTx s
    match claim with
    | none => pure (result .unavailable s)
    | some slot => queueOnSlot slot (payloadIn s len.toNat) s.bus.split (nextDraw s))

/-! ## QUERY (R232) -/

/-- The payload of QUERY (R232). -/
def queryPayload (c : Config) : ResultPayload := ⟨c.mtu, c.macAddress, c.featureFlags⟩

/-- QUERY (R232). -/
def execQuery (s : State) : Out := finish (pure (resultWith .ok (queryPayload s.cfg) s))

/-! ## A word CMD does not accept -/

/-- `result NOT_SUPPORTED` (30_encoding.md R125, R129). -/
def cmdNotSupported (s : State) : State := result .notSupported s

end Sys2Proof.Machine
end

