-- ==== Sys2Proof/WellFormed.lean ====
section
/-! DEFINITION. Well-formed configurations (00_scope.md R7, R8). Instructions need no check of their own: an
operand of `Instr` has the width of its encoding by its type (30_encoding.md R124, R134). -/

namespace Sys2Proof

/-- Both rings have at least one descriptor (00_scope.md R7: `1 <= N_TX`, `1 <= N_RX`). -/
def Config.ringsOk (c : Config) : Bool := decide (1 ≤ c.nTx) && decide (1 ≤ c.nRx)

/-- `1 <= SLOT_SIZE <= 2^SIZE_W - 1` (00_scope.md R7, R8; 70_reset_and_hazards.md R338). -/
def Config.slotOk (c : Config) : Bool := decide (1 ≤ c.slotSize) && decide (c.slotSize ≤ 2 ^ c.sizeW - 1)

/-- `DESC_STRIDE` is a power of two, at least 16 (00_scope.md R7). -/
def Config.strideOk (c : Config) : Bool :=
  decide (16 ≤ c.descStride) && decide (2 ^ Nat.log2 c.descStride = c.descStride)

/-- The four bases are multiples of `DESC_STRIDE` (00_scope.md R7; 20_memory.md R77). -/
def Config.basesOk (c : Config) : Bool :=
  decide (c.txDescBase % c.descStride = 0) && decide (c.rxDescBase % c.descStride = 0) &&
  decide (c.txBufBase % c.descStride = 0) && decide (c.rxBufBase % c.descStride = 0)

/-- The first address after each of the four areas of 00_scope.md R8 (a). -/
def Config.txDescEnd (c : Config) : Nat := c.txDescBase + c.nTx * c.descStride
/-- See `Config.txDescEnd`. -/
def Config.rxDescEnd (c : Config) : Nat := c.rxDescBase + c.nRx * c.descStride
/-- See `Config.txDescEnd`. -/
def Config.txBufEnd (c : Config) : Nat := c.txBufBase + c.nTx * c.slotSize
/-- See `Config.txDescEnd`. -/
def Config.rxBufEnd (c : Config) : Nat := c.rxBufBase + c.nRx * c.slotSize

/-- Two half-open intervals of addresses do not meet. -/
def apart (lo₁ hi₁ lo₂ hi₂ : Nat) : Bool := decide (hi₁ ≤ lo₂) || decide (hi₂ ≤ lo₁)

/-- The four areas are pairwise disjoint (00_scope.md R8 (a)). -/
def Config.areasApart (c : Config) : Bool :=
  apart c.txDescBase c.txDescEnd c.rxDescBase c.rxDescEnd &&
  apart c.txDescBase c.txDescEnd c.txBufBase c.txBufEnd &&
  apart c.txDescBase c.txDescEnd c.rxBufBase c.rxBufEnd &&
  apart c.rxDescBase c.rxDescEnd c.txBufBase c.txBufEnd &&
  apart c.rxDescBase c.rxDescEnd c.rxBufBase c.rxBufEnd &&
  apart c.txBufBase c.txBufEnd c.rxBufBase c.rxBufEnd

/-- Each area ends at or below 2^32 (00_scope.md R8 (a)). -/
def Config.areasInSpace (c : Config) : Bool :=
  decide (c.txDescEnd ≤ 2 ^ 32) && decide (c.rxDescEnd ≤ 2 ^ 32) &&
  decide (c.txBufEnd ≤ 2 ^ 32) && decide (c.rxBufEnd ≤ 2 ^ 32)

/-- Bit `b` lies outside the field of `w` bits from `lo`. -/
def outsideField (b lo w : Nat) : Bool := decide (b < lo) || decide (lo + w ≤ b)

/-- The fields of the status word: `OWN_BIT` in 0..31, FRAME_LEN inside 0..31 and not containing `OWN_BIT`
(00_scope.md R7, R8 (b)). FRAME_LEN has at least one bit, since 30_encoding.md R119 names its highest bit
(DEDUCED, safe, log 2). -/
def Config.statusFieldsOk (c : Config) : Bool :=
  decide (c.ownBit ≤ 31) && decide (1 ≤ c.rxLenW) && decide (c.rxLenLo + c.rxLenW ≤ 32) &&
  outsideField c.ownBit c.rxLenLo c.rxLenW

/-- The fields of the control word: SIZE inside 0..31; the four flag bits in 0..31, distinct, outside SIZE
(00_scope.md R7, R8 (b)). -/
def Config.controlFieldsOk (c : Config) : Bool :=
  decide (c.sizeLo + c.sizeW ≤ 32) &&
  decide (c.txIntBit ≤ 31 ∧ c.txLastBit ≤ 31 ∧ c.txFirstBit ≤ 31 ∧ c.chainBit ≤ 31) &&
  decide ([c.txIntBit, c.txLastBit, c.txFirstBit, c.chainBit].Nodup) &&
  outsideField c.txIntBit c.sizeLo c.sizeW && outsideField c.txLastBit c.sizeLo c.sizeW &&
  outsideField c.txFirstBit c.sizeLo c.sizeW && outsideField c.chainBit c.sizeLo c.sizeW

/-- The four bits of DMA_STATUS are distinct values in 0..31 (00_scope.md R7). -/
def Config.dmaBitsOk (c : Config) : Bool :=
  decide (c.stTxComplete ≤ 31 ∧ c.stRxComplete ≤ 31 ∧ c.stAbnormal ≤ 31 ∧ c.stLinkChange ≤ 31) &&
  decide ([c.stTxComplete, c.stRxComplete, c.stAbnormal, c.stLinkChange].Nodup)

/-- `LINK_UP_BIT` is in 0..31 and `CNT_W` is at least 1 (00_scope.md R7). -/
def Config.linkAndCountersOk (c : Config) : Bool := decide (c.linkUpBit ≤ 31) && decide (1 ≤ c.cntW)

/-- The two bits of `MAC_EN_MASK` are distinct bits of a 32-bit register (30_encoding.md R123). -/
def Config.macBitsOk (c : Config) : Bool :=
  decide (c.macTxBit ≤ 31) && decide (c.macRxBit ≤ 31) && decide (c.macTxBit ≠ c.macRxBit)

/-- A well-formed configuration (00_scope.md R8). The step refuses every other one. -/
def Config.wf (c : Config) : Bool :=
  c.ringsOk && c.slotOk && c.strideOk && c.basesOk && c.areasApart && c.areasInSpace && c.statusFieldsOk &&
  c.controlFieldsOk && c.dmaBitsOk && c.linkAndCountersOk && c.macBitsOk

end Sys2Proof
end

