-- ==== Sys2Proof/Machine/Fetch.lean ====
section
/-! DEFINITION. What moves next. The block fetches no instruction from memory (30_encoding.md R134): a program is a trace, which is
also the schedule of the three agents (R135), held in `State.sched`. This file reads the next entry (log 6, log 11). -/

namespace Sys2Proof.Machine

/-- What the next step does. -/
inductive Move where
  /-- An operation, by `exec`. -/
  | run (i : Instr)
  /-- A CMD write that is answered NOT_SUPPORTED (30_encoding.md R129). -/
  | notSupported
  /-- The second half of STOP (43_engine_facade.md R228). -/
  | stopFinish
  /-- The reset input (70_reset_and_hazards.md R320). -/
  | rst
  /-- No agent moves. -/
  | idle
  /-- The schedule names a move the spec does not have. -/
  | refuse (r : Refusal)
  deriving DecidableEq, Repr

/-- What a word does on a port (30_encoding.md R125, R127, R129; 60_exceptions.md R300 (1)). -/
def moveOf (port : Port) (w : Word) : Move :=
  match port with
  | .client =>
    match decode w with
    | .ok i => if i.external then .run i else .notSupported
    | .error _ => .notSupported
  | .sequencer =>
    match decode w with
    | .ok i => if i.external || i.deviceMove then .refuse .wrongAgent else .run i
    | .error _ => .refuse .reservedTag
  | .device =>
    match decode w with
    | .ok i => if i.deviceMove then .run i else .refuse .wrongAgent
    | .error _ => .refuse .reservedTag

/-- What the block does by itself when the environment schedules nothing more: the enabled Worker step, else the second half of
STOP if it is enabled, else nothing (70_reset_and_hazards.md R352 (a), (b); log 11). -/
def autonomousMove (s : State) : Move :=
  match workerOp s with
  | some i => .run i
  | none => if stopFinishEnabled s then .stopFinish else .idle

/-- The next move: what the first entry of the schedule says (30_encoding.md R135). -/
def nextMove (s : State) : Move :=
  match s.sched with
  | [] => autonomousMove s
  | .op o :: _ => moveOf o.port o.word
  | .worker :: _ =>
    match workerOp s with
    | some i => .run i
    | none => .refuse .noWorkerStep
  | .workerStar :: _ =>
    match workerOp s with
    | some i => .run i
    | none => .idle
  | .stopFinish :: _ => if stopFinishEnabled s then .stopFinish else .idle
  | .echoFill :: _ => .run .devRxFill
  | .rst :: _ => .rst

/-- The bus of the DEV_RX_FILL of an echo: the frame just appended to `wire`, well-formed (44_device_agent.md R267). -/
def echoBus (s : State) : Bus :=
  { s.bus with data := s.wire.getLastD [], len := (s.wire.getLastD []).length, devFlags := 0#32 }

/-- The state the next move starts from: the entry is taken off the schedule (`W*` stays while a Worker step is enabled) and its
operands stand on the bus. -/
def afterFetch (s : State) : State :=
  match s.sched with
  | [] => s
  | .op o :: rest => { s with sched := rest, bus := o.bus }
  | .worker :: rest => { s with sched := rest }
  | .workerStar :: rest =>
    match workerOp s with
    | some _ => s
    | none => { s with sched := rest }
  | .stopFinish :: rest => { s with sched := rest }
  | .echoFill :: rest => { s with sched := rest, bus := echoBus s }
  | .rst :: rest => { s with sched := rest }

/-- The agent that issues a word (60_exceptions.md R300 (1)); a reserved op only ever stands on CMD (30_encoding.md R129). -/
def fetchPort (w : Word) : Port :=
  match decode w with
  | .ok i => if i.external then .client else if i.deviceMove then .device else .sequencer
  | .error _ => .client

/-- The status word that a code called on ring `d` reads first, as RING_INIT leaves it (40_ring_primitives.md R151), where the region
has not been mapped: a caller stands on a ring that INIT has built. Log 21. -/
def ringBuilt (d : Dir) (slot : Nat) (s : State) : State :=
  if s.regionValid then s else { s with mem := s.mem.setWord (statusAddr s.cfg d slot) (initStatus s.cfg d) }

/-- The sequencer's position at which an internal code is the next one (10_state.md R30, R31: `wstate` and `wphase` are what the
block has for a program counter), or inside the caller of an embedded code. Log 21. -/
def fetchPosition (w : Word) (s : State) : State :=
  match decode w with
  | .ok .irqWait => { s with wstate := .waiting }
  | .ok .statusRdclr => { s with wstate := .processing, wphase := .rdclr }
  | .ok .linkPhase => { s with wstate := .processing, wphase := .link }
  | .ok .rxDrain => { s with wstate := .processing, wphase := .rx }
  | .ok .abnormalCount => { s with wstate := .processing, wphase := .abn }
  | .ok .txReclaimPass => { s with wstate := .processing, wphase := .txr }
  | .ok (.ringInit _) => standInside .init s
  | .ok .tryClaimNextTx => standInside .queueTx (ringBuilt .tx s.txClaimCur s)
  | .ok .submitTx => standInside .queueTx (ringBuilt .tx s.txClaimCur s)
  | .ok .reclaimTxCompleted => standInside .txReclaimPass s
  | .ok .reapRx => standInside .rxDrain (ringBuilt .rx s.rxCur s)
  | .ok .linkUpdate => standInside .linkPhase s
  | .ok _ => s
  | .error _ => s

/-- Puts a word at the head of the schedule, on the port that issues it, with the operands now on the bus. -/
def placeWord (w : Word) (s : State) : State :=
  let s := fetchPosition w s
  { s with sched := .op ⟨fetchPort w, w, s.bus⟩ :: s.sched }

end Sys2Proof.Machine
end

