-- ==== Sys2Proof/Machine/Dispatch.lean ====
section
/-! DEFINITION. One arm for each operation of spec/opcode_table.json. -/

namespace Sys2Proof.Machine

def exec (i : Instr) (s : State) : Host.Outcome State Fault Refusal :=
  match i with
  -- client commands
  | .init => Sys2Proof.Machine.execInit s
  | .start clientId => Sys2Proof.Machine.execStart clientId s
  | .stop => Sys2Proof.Machine.execStop s
  | .queueTx len => Sys2Proof.Machine.execQueueTx len s
  | .query => Sys2Proof.Machine.execQuery s
  -- ring primitives
  | .ringInit dir => Sys2Proof.Machine.execRingInit dir s
  | .tryClaimNextTx => Sys2Proof.Machine.execTryClaimNextTx s
  | .submitTx => Sys2Proof.Machine.execSubmitTx s
  | .reclaimTxCompleted => Sys2Proof.Machine.execReclaimTxCompleted s
  | .reapRx => Sys2Proof.Machine.execReapRx s
  -- dispatcher steps
  | .irqWait => Sys2Proof.Machine.execIrqWait s
  | .statusRdclr => Sys2Proof.Machine.execStatusRdclr s
  | .linkPhase => Sys2Proof.Machine.execLinkPhase s
  | .rxDrain => Sys2Proof.Machine.execRxDrain s
  | .abnormalCount => Sys2Proof.Machine.execAbnormalCount s
  | .txReclaimPass => Sys2Proof.Machine.execTxReclaimPass s
  -- link monitor
  | .linkUpdate => Sys2Proof.Machine.execLinkUpdate s
  -- device moves
  | .devTxComplete => Sys2Proof.Machine.execDevTxComplete s
  | .devRxFill => Sys2Proof.Machine.execDevRxFill s
  | .devSetStatus => Sys2Proof.Machine.execDevSetStatus s
  | .devLinkSet => Sys2Proof.Machine.execDevLinkSet s

end Sys2Proof.Machine
end

