-- ==== Sys2Proof/Machine/Step.lean ====
section
/-! DEFINITION. One step of the machine: the next move of the schedule (Machine/Fetch.lean). -/

namespace Sys2Proof.Machine

/-- One step. A configuration that is not well-formed is refused before any step (00_scope.md R8). -/
def step (s : State) : Host.Outcome State Fault Refusal :=
  if s.cfg.wf then
    match nextMove s with
    | .run i => exec i (afterFetch s)
    | .notSupported => .next (cmdNotSupported (afterFetch s))
    | .stopFinish => stopFinish (afterFetch s)
    | .rst => .next (applyRst (afterFetch s))
    | .idle => .next (afterFetch s)
    | .refuse r => .refused r
  else .refused .illFormedConfig

/-- The state with an operation's word placed where the next step takes its move from: at the head of the schedule, on the port
that issues it, the sequencer standing where that code is the next one (log 6, log 21). -/
def State.withFetchWord (s : State) (nbits w : Nat) : State := placeWord (BitVec.ofNat 32 (w % 2 ^ nbits)) s

end Sys2Proof.Machine
end

