-- ==== Sys2Proof/Machine/Trace.lean ====
section
/-! DEFINITION. The trace language of 30_encoding.md R135 and R136: each line as entries of the schedule. -/

namespace Sys2Proof.Machine

/-- The lines of a trace (30_encoding.md R135) and the pseudo-operations that are not expanded inside an operation (R136). -/
inductive TraceLine where
  | init (allocOk : Bool)
  | start (clientId : Arg)
  | stop
  | queueTx (payload : List Byte)
  | query
  | worker
  | workerStar
  | devTxDone (flags : Word) (irq : Bool)
  | devRxFill (bytes : List Byte) (len : Nat) (flags : Word) (irq : Bool)
  | devStatus (bits : Word)
  | devLink (raw : Word) (irq : Bool)
  | devEcho
  | pass
  deriving DecidableEq, Repr

/-- A command of the Client with its inputs. -/
def clientEntry (i : Instr) (b : Bus) : Entry := .op ⟨.client, encode i, b⟩

/-- A move of the Device with its draws. -/
def deviceEntry (i : Instr) (b : Bus) : Entry := .op ⟨.device, encode i, b⟩

/-- DEV_SET_STATUS of one bit: the `irq` of a trace line. -/
def irqEntry (irq : Bool) (b : Nat) : List Entry :=
  if irq then [deviceEntry .devSetStatus { Bus.idle with bits := bit b }] else []

/-- The entries of a trace line (30_encoding.md R135, R136). STOP's second half "runs as soon as `wstate = TERMINATED`": the entry
after STOP, `W` and `W*` runs it if it is enabled. The spec defines `PASS` only where `wstate = WAITING` and `irq_pending = 1` (R136);
that it is `W*` in every other state too is the model's choice (DESIGN CHOICE, log 19). -/
def traceEntries (c : Config) : TraceLine → List Entry
  | .init allocOk => [clientEntry .init { Bus.idle with allocOk := allocOk }]
  | .start clientId => [clientEntry (.start clientId) Bus.idle]
  | .stop => [clientEntry .stop Bus.idle, .stopFinish]
  | .queueTx payload => [clientEntry (.queueTx (BitVec.ofNat 24 payload.length)) { Bus.idle with payload := payload }]
  | .query => [clientEntry .query Bus.idle]
  | .worker => [.worker, .stopFinish]
  | .workerStar => [.workerStar, .stopFinish]
  | .devTxDone flags irq =>
    deviceEntry .devTxComplete { Bus.idle with devFlags := flags } :: irqEntry irq c.stTxComplete
  | .devRxFill bytes len flags irq =>
    deviceEntry .devRxFill { Bus.idle with data := bytes, len := len, devFlags := flags } :: irqEntry irq c.stRxComplete
  | .devStatus bits => [deviceEntry .devSetStatus { Bus.idle with bits := bits }]
  | .devLink raw irq => deviceEntry .devLinkSet { Bus.idle with raw := raw } :: irqEntry irq c.stLinkChange
  | .devEcho =>
    [deviceEntry .devTxComplete Bus.idle] ++ irqEntry true c.stTxComplete ++ [.echoFill] ++ irqEntry true c.stRxComplete
  | .pass => [.workerStar, .stopFinish]

/-- The schedule of a whole trace. -/
def traceSchedule (c : Config) (lines : List TraceLine) : List Entry := lines.flatMap (traceEntries c)

end Sys2Proof.Machine
end

