-- ==== Sys2Proof/Safety.lean ====
section
/-! DEFINITION. The terms claims are stated in: places of shared memory, the invariants of 10_state.md R60 to R63 and those that go
with them, and what counts as a safe step. -/

namespace Sys2Proof.Machine

/-! ## Places of shared memory -/

/-- `x` is one of the four bytes of the word at address `a`. -/
def inWord (a x : Addr) : Prop := a.toNat ≤ x.toNat ∧ x.toNat < a.toNat + 4

/-- `x` is one of the sixteen bytes of descriptor `i` of ring `d` (20_memory.md R72: the padding is not). -/
def inDesc (c : Config) (d : Dir) (i : Nat) (x : Addr) : Prop :=
  (daddr c d i).toNat ≤ x.toNat ∧ x.toNat < (daddr c d i).toNat + 16

/-- `x` is one of the first `n` bytes of buffer slot `i` of ring `d`. -/
def inSlot (c : Config) (d : Dir) (i n : Nat) (x : Addr) : Prop :=
  (baddr c d i).toNat ≤ x.toNat ∧ x.toNat < (baddr c d i).toNat + n

/-- The `n` bytes from an address. -/
def State.bytesAt (s : State) (a : Addr) (n : Nat) : List Byte :=
  (List.range n).map fun j => s.byteAt (a + BitVec.ofNat 32 j)

/-- Every byte of shared memory outside `P` reads after as before. -/
def keepsOutside (P : Addr → Prop) (s t : State) : Prop := ∀ x, ¬P x → t.byteAt x = s.byteAt x

/-- Every byte of shared memory reads after as before. -/
def keepsMemory (s t : State) : Prop := ∀ x, t.byteAt x = s.byteAt x

/-! ## Runs -/

/-- `s` after a command has emitted `events` and answered: RESULT is written and is the last event (10_state.md R49). -/
def answered (s : State) (events : List Event) (code : ResultCode) (payload : ResultPayload) : State :=
  { s with result := ⟨code, payload⟩, out := s.out ++ events ++ [.result code payload] }

/-- One move after another: the second starts from the next state of the first. -/
def andThen (o : Host.Outcome State Fault Refusal) (f : State → Host.Outcome State Fault Refusal) :
    Host.Outcome State Fault Refusal :=
  match o with
  | .next t => f t
  | .fault r => .fault r
  | .refused r => .refused r

/-- `n` steps of the machine, up to the first fault or refusal. -/
def runSteps : Nat → State → Host.Outcome State Fault Refusal
  | 0, s => .next s
  | n + 1, s => andThen (step s) (runSteps n)

/-- QUEUE_TX commands one after another, with the lengths given. -/
def queueAll : List Arg → State → Host.Outcome State Fault Refusal
  | [], s => .next s
  | len :: rest, s => andThen (exec (.queueTx len) s) (queueAll rest)

/-- The handle a client-directed event carries (10_state.md R28). -/
def Event.handle : Event → Option Arg
  | .rxDeliver id _ => some id
  | .linkNotify id _ => some id
  | .result _ _ => none
  | .txDoorbell => none
  | .rxRearm => none
  | .macEnSet _ _ => none
  | .irqInvalidate => none
  | .regionRelease => none

/-! ## Invariants -/

/-- `life` is RUNNING or STOPPING. -/
def Active (s : State) : Prop := s.life = .running ∨ s.life = .stopping

/-- INV-CUR (10_state.md R60). -/
def CursorsOk (s : State) : Prop :=
  Active s →
    s.txClaimCur < s.cfg.nTx ∧ s.txReclaimCur < s.cfg.nTx ∧ s.txInflight ≤ s.cfg.nTx ∧ s.rxCur < s.cfg.nRx ∧
    (s.txReclaimCur + s.txInflight) % s.cfg.nTx = s.txClaimCur

/-- The index `j` slots before `cur` in a ring of `n`. -/
def back (cur j n : Nat) : Nat := (cur + n - j) % n

/-- INV-TXWIN (10_state.md R61): the device-owned TX descriptors are the `k` indices ending just before the claim cursor, and the
Device's cursor is the oldest of them. -/
def TxWindow (s : State) : Prop :=
  Active s →
    ∃ k, k ≤ s.txInflight ∧ s.devTxCur = back s.txClaimCur k s.cfg.nTx ∧
      ∀ i, i < s.cfg.nTx → (s.own .tx i = true ↔ ∃ j, 1 ≤ j ∧ j ≤ k ∧ i = back s.txClaimCur j s.cfg.nTx)

/-- INV-RXWIN (10_state.md R62): the software-owned RX descriptors are the `k` indices from the RX cursor, and the Device's cursor
is just after them. -/
def RxWindow (s : State) : Prop :=
  Active s →
    ∃ k, k ≤ s.cfg.nRx ∧ s.devRxCur = (s.rxCur + k) % s.cfg.nRx ∧
      (∀ i, i < s.cfg.nRx → (s.own .rx i = false ↔ ∃ j, j < k ∧ i = (s.rxCur + j) % s.cfg.nRx)) ∧
      (s.rxHold = true → 1 ≤ k)

/-- INV-STATIC (10_state.md R63). -/
def StaticWords (s : State) : Prop :=
  s.life ≠ .uninit → ∀ d i, i < ringLen s.cfg d →
    (s.desc d i).bufferAddress = baddr s.cfg d i ∧ (s.desc d i).next = daddr s.cfg d ((i + 1) % ringLen s.cfg d) ∧
    (d = .rx → (s.desc d i).control = rxInitControl s.cfg)

/-- Every TX control word holds a size that fits its slot and no reserved bit (30_encoding.md R114, R118, R130), so that the Device
reads no byte outside the slot it owns (20_memory.md R70, R80, R90). -/
def TxControls (s : State) : Prop :=
  s.life ≠ .uninit → ∀ i, i < s.cfg.nTx →
    sizeOf s.cfg (s.desc .tx i).control ≤ s.cfg.slotSize ∧ (s.desc .tx i).control &&& controlReserved s.cfg = 0#32

/-- Every counter is a CNT_W-bit value (10_state.md R25). -/
def CountersOk (s : State) : Prop :=
  s.rxFaultCount < 2 ^ s.cfg.cntW ∧ s.errCount < 2 ^ s.cfg.cntW ∧ s.txReclaimedCount < 2 ^ s.cfg.cntW ∧
  s.rxDropCount < 2 ^ s.cfg.cntW

/-- What each value of `life` says of the interrupt object, the region, the Worker, the binding and the Device (10_state.md R29,
R30, R33, 43_engine_facade.md R221 to R228). -/
def LifeOk (s : State) : Prop :=
  match s.life with
  | .uninit =>
    s.irqValid = false ∧ s.regionValid = false ∧ s.wstate = .idle ∧ s.bound = false ∧ s.rxHold = false
  | .running =>
    s.irqValid = true ∧ s.regionValid = true ∧ (s.wstate = .waiting ∨ s.wstate = .processing) ∧ s.devQuiesced = false
  | .stopping =>
    s.irqValid = false ∧ s.regionValid = true ∧ s.wstate ≠ .idle ∧ s.bound = false ∧ s.devQuiesced = false
  | .stopped =>
    s.irqValid = false ∧ s.regionValid = false ∧ s.wstate = .terminated ∧ s.bound = false ∧ s.devQuiesced = true

/-- The invariant of the machine. -/
structure Inv (s : State) : Prop where
  cfgOk : s.cfg.wf = true
  memOk : s.mem.wf = true
  lifeOk : LifeOk s
  cursorsOk : CursorsOk s
  countersOk : CountersOk s
  txWindow : TxWindow s
  rxWindow : RxWindow s
  staticWords : StaticWords s
  txControls : TxControls s
  /-- The sequencer stands between steps (00_scope.md R12; log 9). -/
  between : s.inside = none

/-- The transitions of `life`: the three of 10_state.md R29, staying, and reset (70_reset_and_hazards.md R320). -/
def lifeMayBecome : Life → Life → Prop
  | .uninit, b => b = .uninit ∨ b = .running
  | .running, b => b = .running ∨ b = .stopping ∨ b = .uninit
  | .stopping, b => b = .stopping ∨ b = .stopped ∨ b = .uninit
  | .stopped, b => b = .stopped ∨ b = .uninit

/-! ## Safe steps -/

/-- The outcome is no fault: the block has no fault outcome (93_implementation_defined.md Part 1, 60_exceptions.md R309). -/
def NoFault (o : Host.Outcome State Fault Refusal) : Prop := ∀ f, o ≠ .fault f

end Sys2Proof.Machine
end

