-- ==== Sys2Proof/Certificates/Slice0/Obligations.lean ====
section
/-! DEFINITION. The statements for the provers. Each docstring names the rule of spec/ the statement formalises, and the log entry
where a clause is the model's own choice. -/

section

open Sys2Proof Sys2Proof.Machine

/-! ## Words and the schedule -/

/-- Eight words of 30_encoding.md R126, R127 and 95_test_vectors.md, read as the operations they stand for. -/
def Obligations.DecodeReadsWordsOfTheSpec : Prop :=
  decode 0x00000001#32 = .ok .init ∧ decode 0x00000702#32 = .ok (.start 7#24) ∧ decode 0x00000003#32 = .ok .stop ∧
  decode 0x00000104#32 = .ok (.queueTx 1#24) ∧ decode 0x00000005#32 = .ok .query ∧
  decode 0x00000110#32 = .ok (.ringInit .rx) ∧ decode 0x00000025#32 = .ok .txReclaimPass ∧
  decode 0x00000033#32 = .ok .devLinkSet

/-- R124, with the codes of R126 and R127: bits 7:0 are the operation code, bits 31:8 the operand of START, QUEUE_TX and RING_INIT
(bit 8), ignored for every other code. -/
def Obligations.DecodeFollowsTheCodeTables : Prop :=
  ∀ arg : BitVec 24,
    decode (arg ++ 0x01#8) = .ok .init ∧ decode (arg ++ 0x02#8) = .ok (.start arg) ∧ decode (arg ++ 0x03#8) = .ok .stop ∧
    decode (arg ++ 0x04#8) = .ok (.queueTx arg) ∧ decode (arg ++ 0x05#8) = .ok .query ∧
    decode (arg ++ 0x10#8) = .ok (.ringInit (if arg.getLsbD 0 then .rx else .tx)) ∧
    decode (arg ++ 0x11#8) = .ok .tryClaimNextTx ∧ decode (arg ++ 0x12#8) = .ok .submitTx ∧
    decode (arg ++ 0x13#8) = .ok .reclaimTxCompleted ∧ decode (arg ++ 0x14#8) = .ok .reapRx ∧
    decode (arg ++ 0x20#8) = .ok .irqWait ∧ decode (arg ++ 0x21#8) = .ok .statusRdclr ∧
    decode (arg ++ 0x22#8) = .ok .linkPhase ∧ decode (arg ++ 0x23#8) = .ok .rxDrain ∧
    decode (arg ++ 0x24#8) = .ok .abnormalCount ∧ decode (arg ++ 0x25#8) = .ok .txReclaimPass ∧
    decode (arg ++ 0x26#8) = .ok .linkUpdate ∧ decode (arg ++ 0x30#8) = .ok .devTxComplete ∧
    decode (arg ++ 0x31#8) = .ok .devRxFill ∧ decode (arg ++ 0x32#8) = .ok .devSetStatus ∧
    decode (arg ++ 0x33#8) = .ok .devLinkSet

/-- Decode and encode agree, for every operation with every operand; and the encoding of what a word decodes to agrees with the word
in the operation code and in every operand bit that is not ignored (R124, R126, R127). -/
def Obligations.DecodeOfEncodeIsTheOperation : Prop :=
  (∀ i, decode (encode i) = .ok i) ∧
  ∀ w i, decode w = .ok i →
    (encode i).extractLsb' 0 8 = w.extractLsb' 0 8 ∧ (∀ id, i = .start id → encode i = w) ∧
    (∀ len, i = .queueTx len → encode i = w) ∧ (∀ d, i = .ringInit d → (encode i).getLsbD 8 = w.getLsbD 8)

/-- The reserved codes of R129 decode to nothing, by name, and only they. -/
def Obligations.OnlyReservedCodesFailToDecode : Prop :=
  ∀ w : Word,
    let op := (w.extractLsb' 0 8).toNat
    (decode w = .error (.reservedOp (w.extractLsb' 0 8)) ↔
      op = 0x00 ∨ (0x06 ≤ op ∧ op ≤ 0x0F) ∨ (0x15 ≤ op ∧ op ≤ 0x1F) ∨ (0x27 ≤ op ∧ op ≤ 0x2F) ∨ 0x34 ≤ op) ∧
    ((∃ i, decode w = .ok i) ∨ decode w = .error (.reservedOp (w.extractLsb' 0 8)))

/-- R129: on CMD every code but the five external ones is answered NOT_SUPPORTED, nothing else changes; `arg` of INIT, STOP and QUERY
is ignored. -/
def Obligations.CmdAnswersNotSupported : Prop :=
  ∀ (s : State) (w : Word) (b : Bus) (rest : List Entry),
    s.cfg.wf = true → s.sched = .op ⟨.client, w, b⟩ :: rest →
    let op := (w.extractLsb' 0 8).toNat
    let s' := { s with sched := rest, bus := b }
    (op = 0 ∨ 5 < op → step s = .next (answered s' [] .notSupported .zero)) ∧
    (op = 1 → step s = exec .init s') ∧ (op = 3 → step s = exec .stop s') ∧ (op = 5 → step s = exec .query s')

/-- A step runs the decoded operation: the entry is taken off the schedule, its operands stand on the bus (log 6, log 7). -/
def Obligations.StepRunsTheDecodedOperation : Prop :=
  ∀ (s : State) (o : Op) (rest : List Entry) (i : Instr),
    s.cfg.wf = true → s.sched = .op o :: rest → decode o.word = .ok i →
    (match o.port with
      | .client => i.external = true
      | .sequencer => i.external = false ∧ i.deviceMove = false
      | .device => i.deviceMove = true) →
    step s = exec i { s with sched := rest, bus := o.bus }

/-- No agent but its own issues an operation (60_exceptions.md R300 (1)); the words of the sequencer and of the Device are never
reserved codes. The refusals are the model's (log 10). -/
def Obligations.StepRefusesAForeignWord : Prop :=
  ∀ (s : State) (o : Op) (rest : List Entry),
    s.cfg.wf = true → s.sched = .op o :: rest →
    (∀ i, decode o.word = .ok i → o.port = .sequencer → i.external = true ∨ i.deviceMove = true →
      step s = .refused .wrongAgent) ∧
    (∀ i, decode o.word = .ok i → o.port = .device → i.deviceMove = false → step s = .refused .wrongAgent) ∧
    (∀ op, decode o.word = .error (.reservedOp op) → o.port ≠ .client → step s = .refused .reservedTag)

/-- A configuration that fails a check of `Config.wf` is refused before any step (00_scope.md R8, 60_exceptions.md R309). Two of these
checks, RX_LEN_W ≥ 1 and the two distinct MAC enable bits, are the model's (log 2). -/
def Obligations.StepRefusesAnIllFormedConfiguration : Prop :=
  ∀ s : State, s.cfg.wf = false → step s = .refused .illFormedConfig

/-- 41_interrupt_dispatcher.md R181: with nothing scheduled the machine takes the one Worker step the table enables; blocked in
WAITING, IDLE or TERMINATED it takes none, and the second half of STOP runs once the Worker has terminated. That the machine then
stays as it is, is the model's (log 11). -/
def Obligations.WorkerTakesTheOneEnabledStep : Prop :=
  ∀ s : State, s.cfg.wf = true → s.sched = [] →
    (s.wstate = .waiting → s.irqValid = false ∨ s.irqPending = true → step s = exec .irqWait s) ∧
    (s.wstate = .waiting → s.irqValid = true → s.irqPending = false → step s = .next s) ∧
    (s.wstate = .processing → s.wphase = .rdclr → step s = exec .statusRdclr s) ∧
    (s.wstate = .processing → s.wphase = .link → step s = exec .linkPhase s) ∧
    (s.wstate = .processing → s.wphase = .rx → step s = exec .rxDrain s) ∧
    (s.wstate = .processing → s.wphase = .abn → step s = exec .abnormalCount s) ∧
    (s.wstate = .processing → s.wphase = .txr → step s = exec .txReclaimPass s) ∧
    (s.wstate = .idle → step s = .next s) ∧
    (s.wstate = .terminated → s.life ≠ .stopping → step s = .next s) ∧
    (s.wstate = .terminated → s.life = .stopping → step s = stopFinish s)

/-! ## Reset and invariants -/

/-- 10_state.md R65: every value the table states for reset. Its entries "unspecified" say nothing; `State.reset` holds there what
logs 3, 4 and 5 name. -/
def Obligations.ResetHoldsTheStatedValues : Prop :=
  let s := State.reset
  s.life = .uninit ∧ s.wstate = .idle ∧ s.wphase = .rdclr ∧
  s.txClaimCur = 0 ∧ s.txReclaimCur = 0 ∧ s.txInflight = 0 ∧ s.rxCur = 0 ∧
  s.rxFaultCount = 0 ∧ s.errCount = 0 ∧ s.txReclaimedCount = 0 ∧ s.rxDropCount = 0 ∧
  s.isrLatch = 0#32 ∧ s.online = false ∧ s.linkRawLast = 0#32 ∧ s.bound = false ∧ s.clientId = 0#24 ∧ s.rxHold = false ∧
  s.irqValid = false ∧ s.regionValid = false ∧ s.irqPending = false ∧ s.macEn = (false, false) ∧
  s.result = ⟨.ok, ⟨0#32, 0#48, 0#32⟩⟩ ∧ s.out = [] ∧ s.wire = []

/-- The reset input `rst` (70_reset_and_hazards.md R320, R321), whatever the block was doing. That the Device then counts as quiesced
and keeps its cursors, and that the schedule and the bus go on, is the model's (log 16). -/
def Obligations.ResetInputRestoresTheRegisters : Prop :=
  ∀ (s : State) (rest : List Entry), s.cfg.wf = true → s.sched = .rst :: rest →
    ∃ t, step s = .next t ∧
      t = { State.resetWith s.cfg with
              dmaStatus := s.dmaStatus, linkStatus := s.linkStatus, macConfig := t.macConfig, mem := s.mem,
              devTxCur := s.devTxCur, devRxCur := s.devRxCur, devQuiesced := true, sched := rest, bus := s.bus,
              drawCtr := s.drawCtr } ∧
      t.macEn = (false, false) ∧
      ∀ k, k ≠ s.cfg.macTxBit → k ≠ s.cfg.macRxBit → t.macConfig.getLsbD k = s.macConfig.getLsbD k

/-- The state after reset meets the invariant of the machine. -/
def Obligations.ResetMeetsTheInvariant : Prop := Inv State.reset

/-- Every step keeps the canonical form of memory: addresses strictly rising, inside the 32-bit space (20_memory.md R70; log 5). -/
def Obligations.StepKeepsMemoryCanonical : Prop :=
  ∀ s t : State, s.mem.wf = true → step s = .next t → t.mem.wf = true

/-- The configuration never changes (10_state.md R20). -/
def Obligations.StepKeepsTheConfiguration : Prop := ∀ s t : State, step s = .next t → t.cfg = s.cfg

/-- 10_state.md R29: the transitions of `life`, and what makes each of them. -/
def Obligations.StepMovesLifeAlongItsTransitions : Prop :=
  ∀ s t : State, step s = .next t → s.life ≠ t.life →
    (s.life = .uninit ∧ t.life = .running ∧ nextMove s = .run .init ∧ t.result.code = .ok) ∨
    (s.life = .running ∧ t.life = .stopping ∧ nextMove s = .run .stop) ∨
    (s.life = .stopping ∧ t.life = .stopped ∧ nextMove s = .stopFinish) ∨
    (t.life = .uninit ∧ nextMove s = .rst)

/-- 41_interrupt_dispatcher.md R181: the transitions of `wstate` and no other, besides reset. The premise is the part of the
invariant that ties `life` to the Worker. -/
def Obligations.StepMovesTheWorkerAlongItsTable : Prop :=
  ∀ s t : State, LifeOk s → step s = .next t → s.wstate ≠ t.wstate →
    (s.wstate = .idle ∧ t.wstate = .waiting ∧ nextMove s = .run .init) ∨
    (s.wstate = .waiting ∧ t.wstate = .terminated ∧ nextMove s = .run .irqWait ∧ s.irqValid = false) ∨
    (s.wstate = .waiting ∧ t.wstate = .processing ∧ nextMove s = .run .irqWait ∧ s.irqValid = true ∧ s.irqPending = true ∧
      t.wphase = .rdclr) ∨
    (s.wstate = .processing ∧ s.wphase = .txr ∧ t.wstate = .waiting ∧ t.wphase = .rdclr ∧ nextMove s = .run .txReclaimPass) ∨
    (t.wstate = .idle ∧ nextMove s = .rst)

/-- Every step keeps what `life` says of the interrupt object, the region, the Worker, the binding and the Device (10_state.md R29,
R30, R33; 43_engine_facade.md R221 to R228). -/
def Obligations.StepKeepsTheLifecycleConsistent : Prop :=
  ∀ s t : State, LifeOk s → step s = .next t → LifeOk t

/-- 10_state.md R60, INV-CUR: it holds after reset and every step keeps it. -/
def Obligations.StepKeepsTheCursorInvariant : Prop :=
  CursorsOk State.reset ∧ ∀ s t : State, CursorsOk s → step s = .next t → CursorsOk t

/-- 10_state.md R25: every step keeps each event counter a CNT_W-bit value. -/
def Obligations.StepKeepsTheCountersInRange : Prop :=
  ∀ s t : State, CountersOk s → step s = .next t → CountersOk t

/-- Every step keeps the invariant of the machine, whatever its agents do: INV-CUR, INV-TXWIN, INV-RXWIN and INV-STATIC of
10_state.md R60 to R63 among it, and that every TX control word holds a size that fits and no reserved bit (30_encoding.md R114, R130).
That the sequencer's position at a call is a field is the model's (log 9). -/
def Obligations.StepKeepsTheInvariant : Prop := ∀ s t : State, Inv s → step s = .next t → Inv t

/-- No condition of the block is a fault (60_exceptions.md R309): no step faults from a state that meets the invariant. -/
def Obligations.StepNeverFaultsFromTheInvariant : Prop := ∀ s : State, Inv s → NoFault (step s)

/-! ## Client commands -/

/-- 43_engine_facade.md R221: INIT, all of it or nothing. -/
def Obligations.InitBringsUpTheEngineOrNothing : Prop :=
  ∀ s : State, s.cfg.wf = true →
    (s.life ≠ .uninit → exec .init s = .next (answered s [] .badState .zero)) ∧
    (s.life = .uninit → s.bus.allocOk = false → exec .init s = .next (answered s [] .noMemory .zero)) ∧
    (s.life = .uninit → s.bus.allocOk = true →
      ∃ t, exec .init s = .next t ∧
        t = { answered s [] .ok .zero with
                regionValid := true, txClaimCur := 0, txReclaimCur := 0, txInflight := 0, rxCur := 0, devTxCur := 0,
                devRxCur := 0, devQuiesced := false, irqValid := true, life := .running, wstate := .waiting, mem := t.mem } ∧
        (∀ i, i < s.cfg.nTx →
          t.desc .tx i = ⟨0#32, 1#32 <<< s.cfg.chainBit, baddr s.cfg .tx i, daddr s.cfg .tx ((i + 1) % s.cfg.nTx)⟩) ∧
        (∀ i, i < s.cfg.nRx →
          t.desc .rx i = ⟨1#32 <<< s.cfg.ownBit, 1#32 <<< s.cfg.chainBit ||| sizeField s.cfg s.cfg.slotSize, baddr s.cfg .rx i,
            daddr s.cfg .rx ((i + 1) % s.cfg.nRx)⟩) ∧
        keepsOutside (fun x => ∃ d i, i < ringLen s.cfg d ∧ inDesc s.cfg d i x) s t)

/-- 43_engine_facade.md R223: START. -/
def Obligations.StartBindsOneClientAndPublishes : Prop :=
  ∀ (s : State) (id : Arg),
    (s.life ≠ .running → exec (.start id) s = .next (answered s [] .badState .zero)) ∧
    (s.life = .running → s.bound = true → exec (.start id) s = .next (answered s [] .alreadyBound .zero)) ∧
    (s.life = .running → s.bound = false →
      exec (.start id) s = .next { answered s [.linkNotify id s.online] .ok .zero with bound := true, clientId := id })

/-- 43_engine_facade.md R226, R227: STOP unless RUNNING is a no-op that answers OK; else its first half, which writes no RESULT. -/
def Obligations.StopBeginsTeardownOrAnswersOk : Prop :=
  ∀ s : State,
    (s.life ≠ .running → exec .stop s = .next (answered s [] .ok .zero)) ∧
    (s.life = .running →
      exec .stop s = .next { s with life := .stopping, bound := false, irqValid := false, out := s.out ++ [.irqInvalidate] })

/-- 43_engine_facade.md R228 and the end of R226: the second half of STOP, exactly where it is enabled. That it is a step of its own
is the model's (log 18). -/
def Obligations.StopFinishQuiescesThenReleases : Prop :=
  ∀ s : State, s.cfg.wf = true →
    (s.life = .stopping → s.wstate = .terminated →
      ∃ t, stopFinish s = .next t ∧
        t = { answered s [.macEnSet false false, .regionRelease] .ok .zero with
                macConfig := t.macConfig, devQuiesced := true, regionValid := false, life := .stopped } ∧
        t.macEn = (false, false) ∧
        ∀ k, k ≠ s.cfg.macTxBit → k ≠ s.cfg.macRxBit → t.macConfig.getLsbD k = s.macConfig.getLsbD k) ∧
    (s.life ≠ .stopping ∨ s.wstate ≠ .terminated → stopFinish s = .refused .notEnabled)

/-- 43_engine_facade.md R229, R230 (1), 60_exceptions.md R289: the first failing check of QUEUE_TX decides, in the order not running,
link down, oversize, ring full; the rest of the state stays. -/
def Obligations.QueueTxReportsTheFirstFailingCheck : Prop :=
  ∀ (s : State) (len : Arg), s.cfg.wf = true →
    (s.life ≠ .running → exec (.queueTx len) s = .next (answered s [] .unavailable .zero)) ∧
    (s.life = .running → s.online = false → exec (.queueTx len) s = .next (answered s [] .unavailable .zero)) ∧
    (s.life = .running → s.online = true → s.cfg.slotSize < len.toNat →
      exec (.queueTx len) s = .next (answered s [] .invalidArgs .zero)) ∧
    (s.life = .running → s.online = true → len.toNat ≤ s.cfg.slotSize → s.regionValid = true →
      s.own .tx s.txClaimCur = true → exec (.queueTx len) s = .next (answered s [] .unavailable .zero))

/-- 43_engine_facade.md R229 with 40_ring_primitives.md R155 and R156: QUEUE_TX on a software-owned slot, no Device move at its split
point. The bytes are those presented, a free value where the Client presents none (log 8). -/
def Obligations.QueueTxHandsTheFrameToTheDevice : Prop :=
  ∀ (s : State) (len : Arg), s.cfg.wf = true → s.life = .running → s.online = true → s.regionValid = true →
    len.toNat ≤ s.cfg.slotSize → s.txClaimCur < s.cfg.nTx → s.own .tx s.txClaimCur = false → s.bus.split = [] →
    let slot := s.txClaimCur
    ∃ t, exec (.queueTx len) s = .next t ∧
      t = { answered s [.txDoorbell] .ok .zero with
              txClaimCur := (slot + 1) % s.cfg.nTx
              txReclaimCur := if s.txInflight = s.cfg.nTx then (s.txReclaimCur + 1) % s.cfg.nTx else s.txReclaimCur
              txInflight := if s.txInflight = s.cfg.nTx then s.txInflight else s.txInflight + 1
              txReclaimedCount :=
                if s.txInflight = s.cfg.nTx then (s.txReclaimedCount + 1) % 2 ^ s.cfg.cntW else s.txReclaimedCount
              drawCtr := s.drawCtr + 1
              mem := t.mem } ∧
      t.desc .tx slot = { s.desc .tx slot with
        status := 1#32 <<< s.cfg.ownBit
        control := (1#32 <<< s.cfg.txIntBit ||| 1#32 <<< s.cfg.txLastBit ||| 1#32 <<< s.cfg.txFirstBit |||
          1#32 <<< s.cfg.chainBit) ||| sizeField s.cfg len.toNat } ∧
      t.slotBytes .tx slot len.toNat = (List.range len.toNat).map (payloadByte s) ∧
      keepsOutside (fun x => inWord (statusAddr s.cfg .tx slot) x ∨ inWord (controlAddr s.cfg .tx slot) x ∨
        inSlot s.cfg .tx slot len.toNat x) s t

/-- 43_engine_facade.md R231: Device moves between the OWN write and the doorbell of QUEUE_TX reach the state they reach after it. -/
def Obligations.QueueTxSplitPointCommutes : Prop :=
  ∀ (s : State) (len : Arg) (t : State), s.cfg.wf = true → exec (.queueTx len) s = .next t →
    (∃ u, exec (.queueTx len) { s with bus := { s.bus with split := [] } } = .next u ∧
      (u.result.code = .ok → ∃ v, runDevMoves s.bus.split u = .ok v ∧ t = { v with bus := s.bus }) ∧
      (u.result.code ≠ .ok → t = { u with bus := s.bus }))

/-- 43_engine_facade.md R232: QUERY. -/
def Obligations.QueryAnswersTheConfiguredValues : Prop :=
  ∀ s : State, exec .query s = .next (answered s [] .ok ⟨s.cfg.mtu, s.cfg.macAddress, s.cfg.featureFlags⟩)

/-! ## Embedded codes, inside their callers (log 9) -/

/-- 40_ring_primitives.md R151, R152: RING_INIT(dir), inside INIT, writes the four words of every descriptor and the cursors of its
ring. The sequencer's position and the return latch are the model's (log 9). -/
def Obligations.RingInitWritesEveryDescriptor : Prop :=
  ∀ (s : State) (d : Dir), s.cfg.wf = true → standsInside .init s = true →
    ∃ t, exec (.ringInit d) s = .next t ∧
      (d = .tx →
        t = { s with txClaimCur := 0, txReclaimCur := 0, txInflight := 0, ret := .nothing, inside := none, mem := t.mem }) ∧
      (d = .rx → t = { s with rxCur := 0, ret := .nothing, inside := none, mem := t.mem }) ∧
      (∀ i, i < ringLen s.cfg d →
        t.desc d i = ⟨if d = .tx then 0#32 else 1#32 <<< s.cfg.ownBit,
          if d = .tx then 1#32 <<< s.cfg.chainBit else 1#32 <<< s.cfg.chainBit ||| sizeField s.cfg s.cfg.slotSize,
          baddr s.cfg d i, daddr s.cfg d ((i + 1) % ringLen s.cfg d)⟩) ∧
      keepsOutside (fun x => ∃ i, i < ringLen s.cfg d ∧ inDesc s.cfg d i x) s t

/-- 40_ring_primitives.md R153: TRY_CLAIM_NEXT_TX, inside QUEUE_TX: the answer is the OWN bit of the slot at the claim cursor; nothing
changes but the return latch and the sequencer's position, the model's (log 9). -/
def Obligations.TryClaimAnswersByTheOwnBit : Prop :=
  ∀ s : State, s.cfg.wf = true → standsInside .queueTx s = true →
    (s.own .tx s.txClaimCur = false →
      exec .tryClaimNextTx s = .next { s with ret := .claim (some s.txClaimCur), inside := none }) ∧
    (s.own .tx s.txClaimCur = true → exec .tryClaimNextTx s = .next { s with ret := .claim none, inside := none })

/-- 40_ring_primitives.md R155, R156: SUBMIT_TX, inside QUEUE_TX, with slot, payload and a mask of control flag bits from the internal
buses. The sequencer's position and the return latch are the model's (log 9). -/
def Obligations.SubmitTxFillsAndHandsOverTheSlot : Prop :=
  ∀ s : State, s.cfg.wf = true → standsInside .queueTx s = true → s.txClaimCur < s.cfg.nTx → s.bus.slot = s.txClaimCur →
    s.own .tx s.txClaimCur = false → s.bus.payload.length ≤ s.cfg.slotSize →
    s.bus.flags &&& ~~~(1#32 <<< s.cfg.txIntBit ||| 1#32 <<< s.cfg.txLastBit ||| 1#32 <<< s.cfg.txFirstBit |||
      1#32 <<< s.cfg.chainBit) = 0#32 →
    let slot := s.txClaimCur
    ∃ t, exec .submitTx s = .next t ∧
      t = { s with
              txClaimCur := (slot + 1) % s.cfg.nTx
              txReclaimCur := if s.txInflight = s.cfg.nTx then (s.txReclaimCur + 1) % s.cfg.nTx else s.txReclaimCur
              txInflight := if s.txInflight = s.cfg.nTx then s.txInflight else s.txInflight + 1
              txReclaimedCount :=
                if s.txInflight = s.cfg.nTx then (s.txReclaimedCount + 1) % 2 ^ s.cfg.cntW else s.txReclaimedCount
              ret := .nothing
              inside := none
              mem := t.mem } ∧
      t.desc .tx slot = { s.desc .tx slot with
        status := 1#32 <<< s.cfg.ownBit, control := s.bus.flags ||| sizeField s.cfg s.bus.payload.length } ∧
      t.slotBytes .tx slot s.bus.payload.length = s.bus.payload ∧
      keepsOutside (fun x => inWord (statusAddr s.cfg .tx slot) x ∨ inWord (controlAddr s.cfg .tx slot) x ∨
        inSlot s.cfg .tx slot s.bus.payload.length x) s t

/-- 40_ring_primitives.md R158: RECLAIM_TX_COMPLETED, inside TX_RECLAIM_PASS, passes the software-owned slots of the in-flight window
in ring order up to the first device-owned one, counts them, and writes no descriptor. The sequencer's position and the return latch
are the model's (log 9). -/
def Obligations.ReclaimPassesFinishedSlotsInOrder : Prop :=
  ∀ s : State, s.cfg.wf = true → standsInside .txReclaimPass s = true → s.txReclaimCur < s.cfg.nTx →
    ∃ n, n ≤ s.txInflight ∧
      exec .reclaimTxCompleted s = .next { s with
        txReclaimCur := (s.txReclaimCur + n) % s.cfg.nTx, txInflight := s.txInflight - n,
        txReclaimedCount := (s.txReclaimedCount + n) % 2 ^ s.cfg.cntW, ret := .count n, inside := none } ∧
      (∀ j, j < n → s.own .tx ((s.txReclaimCur + j) % s.cfg.nTx) = false) ∧
      (n < s.txInflight → s.own .tx ((s.txReclaimCur + n) % s.cfg.nTx) = true)

/-- 40_ring_primitives.md R160 to R162: REAP_RX, inside RX_DRAIN: RX_TAKE with its three answers and RX_RETURN. One half-iteration a
step, the count of the iterator in State (log 17), the sequencer's position and the return latch (log 9) are the model's. -/
def Obligations.ReapRxTakesThenReturns : Prop :=
  ∀ s : State, s.cfg.wf = true → standsInside .rxDrain s = true →
    let len := frameLen s.cfg (s.wordAt (statusAddr s.cfg .rx s.rxCur))
    (s.rxHold = false → s.own .rx s.rxCur = true →
      exec .reapRx s = .next { s with reapReturned := 0, ret := .reaped s.reapReturned, inside := none }) ∧
    (s.rxHold = false → s.own .rx s.rxCur = false → s.cfg.slotSize < len →
      exec .reapRx s = .next { s with
        rxHold := true, rxFaultCount := (s.rxFaultCount + 1) % 2 ^ s.cfg.cntW, ret := .take .oversize,
        inside := none }) ∧
    (s.rxHold = false → s.own .rx s.rxCur = false → len ≤ s.cfg.slotSize →
      exec .reapRx s = .next { s with
        rxHold := true, ret := .take (.frame (s.slotBytes .rx s.rxCur len)), inside := none }) ∧
    (s.rxHold = true → s.rxCur < s.cfg.nRx →
      ∃ t, exec .reapRx s = .next t ∧
        t = { s with
                rxCur := (s.rxCur + 1) % s.cfg.nRx, rxHold := false, reapReturned := s.reapReturned + 1, ret := .nothing,
                inside := none, mem := t.mem } ∧
        t.desc .rx s.rxCur = { s.desc .rx s.rxCur with status := 1#32 <<< s.cfg.ownBit } ∧
        keepsOutside (inWord (statusAddr s.cfg .rx s.rxCur)) s t)

/-! ## Worker steps -/

/-- 41_interrupt_dispatcher.md R182: IRQ_WAIT. While it blocks, the state stays (log 11). -/
def Obligations.IrqWaitReturnsOrTerminates : Prop :=
  ∀ s : State, s.wstate = .waiting →
    (s.irqValid = false → exec .irqWait s = .next { s with wstate := .terminated }) ∧
    (s.irqValid = true → s.irqPending = true →
      exec .irqWait s = .next { s with irqPending := false, wstate := .processing, wphase := .rdclr }) ∧
    (s.irqValid = true → s.irqPending = false → exec .irqWait s = .next s)

/-- 41_interrupt_dispatcher.md R184: STATUS_RDCLR clears exactly the bits it latches. -/
def Obligations.StatusRdclrLatchesAndClears : Prop :=
  ∀ s : State, s.wstate = .processing → s.wphase = .rdclr →
    exec .statusRdclr s = .next { s with isrLatch := s.dmaStatus, dmaStatus := 0#32, wphase := .link }

/-- 41_interrupt_dispatcher.md R186 with 42_link_monitor.md R211: LINK_PHASE, every case of the link word. -/
def Obligations.LinkPhaseReadsTheLinkWord : Prop :=
  ∀ s : State, s.wstate = .processing → s.wphase = .link →
    let change := s.isrLatch.getLsbD s.cfg.stLinkChange
    let up := s.linkStatus.getLsbD s.cfg.linkUpBit
    (change = false → exec .linkPhase s = .next { s with wphase := .rx }) ∧
    (change = true → up = s.online → exec .linkPhase s = .next { s with wphase := .rx, linkRawLast := s.linkStatus }) ∧
    (change = true → up = true → s.online = false →
      exec .linkPhase s = .next { s with
        wphase := .rx, linkRawLast := s.linkStatus, online := true,
        macConfig := s.macConfig ||| (1#32 <<< s.cfg.macTxBit ||| 1#32 <<< s.cfg.macRxBit),
        out := s.out ++ [.macEnSet true true] ++ if s.bound then [.linkNotify s.clientId true] else [] }) ∧
    (change = true → up = false → s.online = true →
      exec .linkPhase s = .next { s with
        wphase := .rx, linkRawLast := s.linkStatus, online := false,
        out := s.out ++ if s.bound then [.linkNotify s.clientId false] else [] })

/-- 42_link_monitor.md R210, R211, R213, R215: LINK_UPDATE(raw), inside LINK_PHASE, with the word just read from LINK_STATUS on the bus.
Both MAC enables are set on the up edge, the other bits of their register stay. The sequencer's position and the return latch are the
model's (log 9). -/
def Obligations.LinkUpdateActsOnEdgesOnly : Prop :=
  ∀ s : State, s.cfg.wf = true → standsInside .linkPhase s = true → s.bus.raw = s.linkStatus →
    let up := s.bus.raw.getLsbD s.cfg.linkUpBit
    (up = s.online →
      exec .linkUpdate s = .next { s with linkRawLast := s.bus.raw, ret := .nothing, inside := none }) ∧
    (up = true → s.online = false →
      ∃ t, exec .linkUpdate s = .next t ∧
        t = { s with
                linkRawLast := s.bus.raw, online := true, macConfig := t.macConfig, ret := .nothing, inside := none,
                out := s.out ++ [.macEnSet true true] ++ if s.bound then [.linkNotify s.clientId true] else [] } ∧
        t.macEn = (true, true) ∧
        ∀ k, k ≠ s.cfg.macTxBit → k ≠ s.cfg.macRxBit → t.macConfig.getLsbD k = s.macConfig.getLsbD k) ∧
    (up = false → s.online = true →
      exec .linkUpdate s = .next { s with
        linkRawLast := s.bus.raw, online := false, ret := .nothing, inside := none,
        out := s.out ++ if s.bound then [.linkNotify s.clientId false] else [] })

/-- 42_link_monitor.md R212: the edge decision reads one bit; the raw word is stored on every call; the same word `n + 1` times gives
what the first call gives. -/
def Obligations.SameLinkWordNotifiesOnce : Prop :=
  ∀ (s : State) (raw : Word),
    (∀ raw', raw'.getLsbD s.cfg.linkUpBit = raw.getLsbD s.cfg.linkUpBit →
      linkUpdate raw' s = { linkUpdate raw s with linkRawLast := raw' }) ∧
    (linkUpdate raw s).linkRawLast = raw ∧
    (∀ n : Nat, (linkUpdate raw)^[n + 1] s = linkUpdate raw s) ∧
    ((linkUpdate raw s).out.filter (fun e => decide (e.handle ≠ none))).length =
      (s.out.filter (fun e => decide (e.handle ≠ none))).length +
        if raw.getLsbD s.cfg.linkUpBit ≠ s.online ∧ s.bound = true then 1 else 0

/-- 41_interrupt_dispatcher.md R188, R189 with 40_ring_primitives.md R161, R162: RX_DRAIN, its take step in every case and its return
step. The iterator's count in State is the model's (log 17). -/
def Obligations.RxDrainDeliversOrDrops : Prop :=
  ∀ s : State, s.cfg.wf = true → s.regionValid = true → s.wstate = .processing → s.wphase = .rx →
    let rx := s.isrLatch.getLsbD s.cfg.stRxComplete
    let len := frameLen s.cfg (s.wordAt (statusAddr s.cfg .rx s.rxCur))
    (s.rxHold = false → rx = false → exec .rxDrain s = .next { s with wphase := .abn }) ∧
    (s.rxHold = false → rx = true → s.own .rx s.rxCur = true →
      exec .rxDrain s = .next { s with wphase := .abn, reapReturned := 0 }) ∧
    (s.rxHold = false → rx = true → s.own .rx s.rxCur = false → s.cfg.slotSize < len →
      exec .rxDrain s = .next { s with rxHold := true, rxFaultCount := (s.rxFaultCount + 1) % 2 ^ s.cfg.cntW }) ∧
    (s.rxHold = false → rx = true → s.own .rx s.rxCur = false → len ≤ s.cfg.slotSize → s.bound = true → s.online = true →
      exec .rxDrain s = .next { s with
        rxHold := true, out := s.out ++ [.rxDeliver s.clientId (s.slotBytes .rx s.rxCur len)] }) ∧
    (s.rxHold = false → rx = true → s.own .rx s.rxCur = false → len ≤ s.cfg.slotSize → s.bound = false ∨ s.online = false →
      exec .rxDrain s = .next { s with rxHold := true, rxDropCount := (s.rxDropCount + 1) % 2 ^ s.cfg.cntW }) ∧
    (s.rxHold = true → s.rxCur < s.cfg.nRx →
      ∃ t, exec .rxDrain s = .next t ∧
        t = { s with
                rxCur := (s.rxCur + 1) % s.cfg.nRx, rxHold := false, reapReturned := s.reapReturned + 1,
                out := s.out ++ [.rxRearm], mem := t.mem } ∧
        t.desc .rx s.rxCur = { s.desc .rx s.rxCur with status := 1#32 <<< s.cfg.ownBit } ∧
        keepsOutside (inWord (statusAddr s.cfg .rx s.rxCur)) s t)

/-- 41_interrupt_dispatcher.md R192: ABNORMAL_COUNT. -/
def Obligations.AbnormalIsCountedOncePerPass : Prop :=
  ∀ s : State, s.wstate = .processing → s.wphase = .abn →
    (s.isrLatch.getLsbD s.cfg.stAbnormal = true →
      exec .abnormalCount s = .next { s with errCount := (s.errCount + 1) % 2 ^ s.cfg.cntW, wphase := .txr }) ∧
    (s.isrLatch.getLsbD s.cfg.stAbnormal = false → exec .abnormalCount s = .next { s with wphase := .txr })

/-- 41_interrupt_dispatcher.md R194 with 40_ring_primitives.md R158: TX_RECLAIM_PASS reclaims if the latch says so, and ends the
pass. -/
def Obligations.TxReclaimPassEndsThePass : Prop :=
  ∀ s : State, s.cfg.wf = true → s.wstate = .processing → s.wphase = .txr →
    (s.isrLatch.getLsbD s.cfg.stTxComplete = false →
      exec .txReclaimPass s = .next { s with wphase := .rdclr, wstate := .waiting }) ∧
    (s.isrLatch.getLsbD s.cfg.stTxComplete = true → s.regionValid = true → s.txReclaimCur < s.cfg.nTx →
      ∃ n, n ≤ s.txInflight ∧
        exec .txReclaimPass s = .next { s with
          txReclaimCur := (s.txReclaimCur + n) % s.cfg.nTx, txInflight := s.txInflight - n,
          txReclaimedCount := (s.txReclaimedCount + n) % 2 ^ s.cfg.cntW, wphase := .rdclr, wstate := .waiting } ∧
        (∀ j, j < n → s.own .tx ((s.txReclaimCur + j) % s.cfg.nTx) = false) ∧
        (n < s.txInflight → s.own .tx ((s.txReclaimCur + n) % s.cfg.nTx) = true))

/-! ## Device moves -/

/-- 44_device_agent.md R253: DEV_TX_COMPLETE sends the SIZE bytes at `buffer_address` and writes one status word with OWN = 0; the other
31 bits are the draw. -/
def Obligations.DevTxCompleteSendsTheFrame : Prop :=
  ∀ s : State, s.cfg.wf = true → s.life = .running ∨ s.life = .stopping → s.devQuiesced = false → s.devTxCur < s.cfg.nTx →
    s.own .tx s.devTxCur = true →
    let slot := s.devTxCur
    ∃ t, exec .devTxComplete s = .next t ∧
      t = { s with
              wire := s.wire ++ [s.bytesAt (s.desc .tx slot).bufferAddress (sizeOf s.cfg (s.desc .tx slot).control)]
              devTxCur := (slot + 1) % s.cfg.nTx
              mem := t.mem } ∧
      t.own .tx slot = false ∧
      (∀ k, k < 32 → k ≠ s.cfg.ownBit → (t.desc .tx slot).status.getLsbD k = s.bus.devFlags.getLsbD k) ∧
      t.desc .tx slot = { s.desc .tx slot with status := (t.desc .tx slot).status } ∧
      keepsOutside (inWord (statusAddr s.cfg .tx slot)) s t

/-- 44_device_agent.md R255: DEV_RX_FILL stores the drawn bytes in the slot, then a status word with OWN = 0, the declared length and
the drawn flags. A draw outside the contract is no move (R251 (b), log 10). -/
def Obligations.DevRxFillStoresTheFrame : Prop :=
  ∀ s : State, s.cfg.wf = true → s.life = .running ∨ s.life = .stopping → s.devQuiesced = false → s.devRxCur < s.cfg.nRx →
    s.own .rx s.devRxCur = true → StaticWords s →
    let slot := s.devRxCur
    (s.bus.data.length ≤ s.cfg.slotSize → s.bus.len < 2 ^ s.cfg.rxLenW →
      ∃ t, exec .devRxFill s = .next t ∧
        t = { s with devRxCur := (slot + 1) % s.cfg.nRx, mem := t.mem } ∧
        t.own .rx slot = false ∧
        frameLen s.cfg (t.desc .rx slot).status = s.bus.len ∧
        (∀ k, k < 32 → k ≠ s.cfg.ownBit → k < s.cfg.rxLenLo ∨ s.cfg.rxLenLo + s.cfg.rxLenW ≤ k →
          (t.desc .rx slot).status.getLsbD k = s.bus.devFlags.getLsbD k) ∧
        t.desc .rx slot = { s.desc .rx slot with status := (t.desc .rx slot).status } ∧
        t.slotBytes .rx slot s.bus.data.length = s.bus.data ∧
        keepsOutside (fun x => inWord (statusAddr s.cfg .rx slot) x ∨ inSlot s.cfg .rx slot s.bus.data.length x) s t) ∧
    (s.cfg.slotSize < s.bus.data.length ∨ 2 ^ s.cfg.rxLenW ≤ s.bus.len → exec .devRxFill s = .refused .outsideContract)

/-- 44_device_agent.md R257: DEV_SET_STATUS; no bit is set without the latch. -/
def Obligations.DevSetStatusRaisesTheInterrupt : Prop :=
  ∀ s : State,
    (s.bus.bits ≠ 0#32 →
      exec .devSetStatus s = .next { s with dmaStatus := s.dmaStatus ||| s.bus.bits, irqPending := true }) ∧
    (s.bus.bits = 0#32 → exec .devSetStatus s = .next s)

/-- 44_device_agent.md R259: DEV_LINK_SET. -/
def Obligations.DevLinkSetStoresTheWord : Prop :=
  ∀ s : State, exec .devLinkSet s = .next { s with linkStatus := s.bus.raw }

/-! ## What is not enabled -/

/-- A step outside its enabling condition is no step of the block (R181, R152, R155, R161, R210, R253, R255, R263; 60_exceptions.md R309
"No move"). The refusal and the sequencer's position are the model's (logs 9 and 10). -/
def Obligations.DisabledOperationsMakeNoMove : Prop :=
  ∀ s : State,
    (s.wstate ≠ .waiting → exec .irqWait s = .refused .notEnabled) ∧
    (¬(s.wstate = .processing ∧ s.wphase = .rdclr) → exec .statusRdclr s = .refused .notEnabled) ∧
    (¬(s.wstate = .processing ∧ s.wphase = .link) → exec .linkPhase s = .refused .notEnabled) ∧
    (¬(s.wstate = .processing ∧ s.wphase = .rx) → exec .rxDrain s = .refused .notEnabled) ∧
    (¬(s.wstate = .processing ∧ s.wphase = .abn) → exec .abnormalCount s = .refused .notEnabled) ∧
    (¬(s.wstate = .processing ∧ s.wphase = .txr) → exec .txReclaimPass s = .refused .notEnabled) ∧
    (standsInside .init s = false → ∀ d, exec (.ringInit d) s = .refused .notEnabled) ∧
    (standsInside .queueTx s = false →
      exec .tryClaimNextTx s = .refused .notEnabled ∧ exec .submitTx s = .refused .notEnabled) ∧
    (standsInside .txReclaimPass s = false → exec .reclaimTxCompleted s = .refused .notEnabled) ∧
    (standsInside .rxDrain s = false → exec .reapRx s = .refused .notEnabled) ∧
    (standsInside .linkPhase s = false ∨ s.bus.raw ≠ s.linkStatus → exec .linkUpdate s = .refused .notEnabled) ∧
    (s.bus.slot ≠ s.txClaimCur ∨ s.own .tx s.bus.slot = true ∨ s.cfg.slotSize < s.bus.payload.length ∨
      s.bus.flags &&& ~~~(txf s.cfg) ≠ 0#32 → exec .submitTx s = .refused .notEnabled) ∧
    (¬(s.life = .running ∨ s.life = .stopping) ∨ s.devQuiesced = true →
      exec .devTxComplete s = .refused .notEnabled ∧ exec .devRxFill s = .refused .notEnabled) ∧
    (s.own .tx s.devTxCur = false → exec .devTxComplete s = .refused .notEnabled) ∧
    (s.own .rx s.devRxCur = false → exec .devRxFill s = .refused .notEnabled)

/-- 42_link_monitor.md R210, 60_exceptions.md R300 (1), 40_ring_primitives.md R152, R154: from a state that meets the invariant no code
embedded in another operation is a step of its own, and what makes a move is a command, the Worker step R181 enables, or a Device move.
That a blocked IRQ_WAIT leaves the state as it is, is the model's (log 11), as is the refusal (log 10). -/
def Obligations.OnlyCommandsWorkerStepsAndDeviceMovesRun : Prop :=
  ∀ (s : State) (i : Instr), Inv s →
    ((∃ d, i = .ringInit d) ∨ i = .tryClaimNextTx ∨ i = .submitTx ∨ i = .reclaimTxCompleted ∨ i = .reapRx ∨ i = .linkUpdate →
      exec i s = .refused .notEnabled) ∧
    ∀ t, exec i s = .next t →
      i.external = true ∨ i.deviceMove = true ∨ workerOp s = some i ∨ (i = .irqWait ∧ t = s)

/-! ## Rules about the whole machine -/

/-- 60_exceptions.md R301, 10_state.md R35: which state each command, Worker step, Device move and code embedded in one of them may
write; every field not named stays. QUEUE_TX is taken without Device moves at its split point. The return latch and the sequencer's
position are the model's (log 9). -/
def Obligations.AgentsWriteOnlyTheirOwnState : Prop :=
  ∀ s t : State,
    (exec .init s = .next t → t = { s with
      txClaimCur := t.txClaimCur, txReclaimCur := t.txReclaimCur, txInflight := t.txInflight, rxCur := t.rxCur, life := t.life,
      wstate := t.wstate, irqValid := t.irqValid, regionValid := t.regionValid, result := t.result, mem := t.mem,
      devTxCur := t.devTxCur, devRxCur := t.devRxCur, devQuiesced := t.devQuiesced, out := t.out }) ∧
    (∀ id, exec (.start id) s = .next t → t = { s with
      bound := t.bound, clientId := t.clientId, result := t.result, out := t.out }) ∧
    (exec .stop s = .next t → t = { s with
      life := t.life, bound := t.bound, irqValid := t.irqValid, result := t.result, out := t.out }) ∧
    (∀ len, s.bus.split = [] → exec (.queueTx len) s = .next t → t = { s with
      txClaimCur := t.txClaimCur, txReclaimCur := t.txReclaimCur, txInflight := t.txInflight,
      txReclaimedCount := t.txReclaimedCount, result := t.result, mem := t.mem, out := t.out, drawCtr := t.drawCtr }) ∧
    (exec .query s = .next t → t = { s with result := t.result, out := t.out }) ∧
    (exec .irqWait s = .next t → t = { s with wstate := t.wstate, wphase := t.wphase, irqPending := t.irqPending }) ∧
    (exec .statusRdclr s = .next t → t = { s with
      wphase := t.wphase, isrLatch := t.isrLatch, dmaStatus := t.dmaStatus }) ∧
    (exec .linkPhase s = .next t → t = { s with
      wphase := t.wphase, online := t.online, linkRawLast := t.linkRawLast, macConfig := t.macConfig, out := t.out }) ∧
    (exec .rxDrain s = .next t → t = { s with
      wphase := t.wphase, rxCur := t.rxCur, rxHold := t.rxHold, rxFaultCount := t.rxFaultCount, rxDropCount := t.rxDropCount,
      reapReturned := t.reapReturned, mem := t.mem, out := t.out }) ∧
    (exec .abnormalCount s = .next t → t = { s with wphase := t.wphase, errCount := t.errCount }) ∧
    (exec .txReclaimPass s = .next t → t = { s with
      wphase := t.wphase, wstate := t.wstate, txReclaimCur := t.txReclaimCur, txInflight := t.txInflight,
      txReclaimedCount := t.txReclaimedCount }) ∧
    (exec .devTxComplete s = .next t → t = { s with mem := t.mem, devTxCur := t.devTxCur, wire := t.wire }) ∧
    (exec .devRxFill s = .next t → t = { s with mem := t.mem, devRxCur := t.devRxCur }) ∧
    (exec .devSetStatus s = .next t → t = { s with dmaStatus := t.dmaStatus, irqPending := t.irqPending }) ∧
    (exec .devLinkSet s = .next t → t = { s with linkStatus := t.linkStatus }) ∧
    (∀ d, exec (.ringInit d) s = .next t → s.inside = some .init ∧ t = { s with
      txClaimCur := t.txClaimCur, txReclaimCur := t.txReclaimCur, txInflight := t.txInflight, rxCur := t.rxCur, mem := t.mem,
      ret := t.ret, inside := none }) ∧
    (exec .tryClaimNextTx s = .next t → s.inside = some .queueTx ∧ t = { s with ret := t.ret, inside := none }) ∧
    (exec .submitTx s = .next t → s.inside = some .queueTx ∧ t = { s with
      txClaimCur := t.txClaimCur, txReclaimCur := t.txReclaimCur, txInflight := t.txInflight,
      txReclaimedCount := t.txReclaimedCount, mem := t.mem, ret := t.ret, inside := none }) ∧
    (exec .reclaimTxCompleted s = .next t → s.inside = some .txReclaimPass ∧ t = { s with
      txReclaimCur := t.txReclaimCur, txInflight := t.txInflight, txReclaimedCount := t.txReclaimedCount, ret := t.ret,
      inside := none }) ∧
    (exec .reapRx s = .next t → s.inside = some .rxDrain ∧ t = { s with
      rxCur := t.rxCur, rxHold := t.rxHold, rxFaultCount := t.rxFaultCount, reapReturned := t.reapReturned, mem := t.mem,
      ret := t.ret, inside := none }) ∧
    (exec .linkUpdate s = .next t → s.inside = some .linkPhase ∧ t = { s with
      online := t.online, linkRawLast := t.linkRawLast, macConfig := t.macConfig, out := t.out, ret := t.ret, inside := none })

/-- 10_state.md R33: while the region is not valid no controller step changes shared memory; INIT maps the region first. -/
def Obligations.NoControllerWriteWhileUnmapped : Prop :=
  ∀ (s t : State) (i : Instr), s.regionValid = false → i ≠ .init → i.deviceMove = false → exec i s = .next t →
    keepsMemory s t

/-- 10_state.md R28, 43_engine_facade.md R227, 41_interrupt_dispatcher.md R189: every client-directed event of a step carries the handle
bound when the step began, or the one START binds; while no client is bound none is emitted. -/
def Obligations.ClientEventsCarryTheBoundHandle : Prop :=
  ∀ (s t : State) (i : Instr), exec i s = .next t →
    ∃ events, t.out = s.out ++ events ∧
      ∀ e ∈ events, ∀ id, e.handle = some id →
        (s.bound = true ∧ id = s.clientId ∧ t.bound = true) ∨ (i = .start id ∧ s.bound = false ∧ t.bound = true)

/-- 10_state.md R59, 44_device_agent.md R251: from a state that meets the invariant, a controller step other than INIT and RING_INIT
changes bytes of software-owned slots only, and a Device move changes only the status word and, of an RX slot, the buffer of a
device-owned slot. QUEUE_TX is taken without Device moves at its split point. -/
def Obligations.OwnersAloneWriteTheirSlots : Prop :=
  ∀ (s t : State) (i : Instr), Inv s → s.bus.split = [] → exec i s = .next t →
    ∀ x, t.byteAt x ≠ s.byteAt x →
      (i.deviceMove = false → i ≠ .init → (∀ d, i ≠ .ringInit d) →
        ∃ d k, k < ringLen s.cfg d ∧ s.own d k = false ∧ (inDesc s.cfg d k x ∨ inSlot s.cfg d k s.cfg.slotSize x)) ∧
      (i.deviceMove = true →
        ∃ d k, k < ringLen s.cfg d ∧ s.own d k = true ∧
          (inWord (statusAddr s.cfg d k) x ∨ (d = .rx ∧ inSlot s.cfg d k s.cfg.slotSize x)))

/-- 40_ring_primitives.md R166: on a ring whose slots are all software-owned N_TX commands QUEUE_TX succeed, the next is refused, and
after one completion by the Device the next one succeeds. -/
def Obligations.RingIsFullAfterExactlyNFrames : Prop :=
  ∀ (s : State) (lens : List Arg), Inv s → s.life = .running → s.online = true → s.bus.split = [] →
    (∀ i, i < s.cfg.nTx → s.own .tx i = false) → (∀ len ∈ lens, len.toNat ≤ s.cfg.slotSize) → lens.length = s.cfg.nTx →
    ∃ t, queueAll lens s = .next t ∧
      t.out = s.out ++ (List.replicate s.cfg.nTx [Event.txDoorbell, Event.result .ok .zero]).flatten ∧
      ∀ len : Arg, len.toNat ≤ s.cfg.slotSize →
        exec (.queueTx len) t = .next (answered t [] .unavailable .zero) ∧
        ∃ u v, exec .devTxComplete t = .next u ∧ exec (.queueTx len) u = .next v ∧ v.result.code = .ok

/-- 44_device_agent.md R267: a payload that fits, queued on an idle ring, completed and echoed by the Device, is delivered byte for
byte by the next take of RX_DRAIN, and is what went on the wire (R253, R254). The schedule with its inputs, and the entry for the
Device's half of the echo, are the model's (logs 6, 7 and 19). -/
def Obligations.EchoedPayloadIsDelivered : Prop :=
  ∀ (s : State) (b b' : Bus) (rest : List Entry), Inv s → s.life = .running → s.online = true → s.bound = true →
    s.wstate = .processing → s.wphase = .rx → s.rxHold = false → s.isrLatch.getLsbD s.cfg.stRxComplete = true →
    (∀ i, i < s.cfg.nTx → s.own .tx i = false) → (∀ i, i < s.cfg.nRx → s.own .rx i = true) →
    b.payload.length ≤ s.cfg.slotSize → b.payload.length < 2 ^ s.cfg.rxLenW → b.payload.length < 2 ^ 24 → b.split = [] →
    s.sched = .op ⟨.client, BitVec.ofNat 24 b.payload.length ++ 0x04#8, b⟩ :: .op ⟨.device, 0x00000030#32, b'⟩ ::
      .echoFill :: .worker :: rest →
    ∃ t, runSteps 4 s = .next t ∧ t.sched = rest ∧ t.wire = s.wire ++ [b.payload] ∧
      t.out = s.out ++ [.txDoorbell, .result .ok .zero, .rxDeliver s.clientId b.payload]

/-- 40_ring_primitives.md R159: no command's result, and nothing else but the two bookkeeping registers and their count, depends on
whether reclamation has run. -/
def Obligations.ReclamationChangesNoResult : Prop :=
  ∀ (s t : State) (i : Instr) (cur inflight count : Nat), s.cfg.wf = true → i.external = true → exec i s = .next t →
    ∃ u, exec i { s with txReclaimCur := cur, txInflight := inflight, txReclaimedCount := count } = .next u ∧
      u = { t with txReclaimCur := u.txReclaimCur, txInflight := u.txInflight, txReclaimedCount := u.txReclaimedCount }

/-- 41_interrupt_dispatcher.md R196: a pass whose latch has none of the four defined bits changes the Worker's own registers, the latch
and the cleared bits of DMA_STATUS, and emits nothing. A pass starts with `rx_hold = 0` in every run from reset. That the Worker takes its steps with nothing scheduled is the model's (log 11). -/
def Obligations.EmptyPassChangesNothingElse : Prop :=
  ∀ s : State, s.cfg.wf = true → s.sched = [] → s.wstate = .waiting → s.irqValid = true → s.irqPending = true →
    s.rxHold = false → s.dmaStatus.getLsbD s.cfg.stTxComplete = false → s.dmaStatus.getLsbD s.cfg.stRxComplete = false →
    s.dmaStatus.getLsbD s.cfg.stAbnormal = false → s.dmaStatus.getLsbD s.cfg.stLinkChange = false →
    runSteps 6 s = .next { s with
      isrLatch := s.dmaStatus, dmaStatus := 0#32, irqPending := false, wstate := .waiting, wphase := .rdclr }

/-- 60_exceptions.md R288: in one pass the link is served before reception: on an up edge the frame is delivered after the
notification, on a down edge it is dropped. That the Worker takes its steps with nothing scheduled is the model's (log 11). -/
def Obligations.LinkIsServedBeforeReception : Prop :=
  ∀ s : State, s.cfg.wf = true → s.regionValid = true → s.sched = [] → s.wstate = .processing → s.wphase = .link →
    s.isrLatch.getLsbD s.cfg.stLinkChange = true → s.isrLatch.getLsbD s.cfg.stRxComplete = true → s.rxHold = false →
    s.bound = true → s.own .rx s.rxCur = false →
    let len := frameLen s.cfg (s.wordAt (statusAddr s.cfg .rx s.rxCur))
    len ≤ s.cfg.slotSize →
    (s.online = false → s.linkStatus.getLsbD s.cfg.linkUpBit = true →
      ∃ t, runSteps 2 s = .next t ∧ t.online = true ∧ t.rxDropCount = s.rxDropCount ∧
        t.out = s.out ++ [.macEnSet true true, .linkNotify s.clientId true,
          .rxDeliver s.clientId (s.slotBytes .rx s.rxCur len)]) ∧
    (s.online = true → s.linkStatus.getLsbD s.cfg.linkUpBit = false →
      ∃ t, runSteps 2 s = .next t ∧ t.online = false ∧ t.rxDropCount = (s.rxDropCount + 1) % 2 ^ s.cfg.cntW ∧
        t.out = s.out ++ [.linkNotify s.clientId false])

/-! ## Words the controller writes -/

/-- 30_encoding.md R120: the constant words, by definition and in REF. -/
def Obligations.ConstantWordsAreThoseOfTheTable : Prop :=
  (∀ c : Config,
    txInitStatus = 0#32 ∧ txInitControl c = BitVec.ofNat 32 (2 ^ c.chainBit) ∧ rxArmStatus c = BitVec.ofNat 32 (2 ^ c.ownBit) ∧
    rxInitControl c = BitVec.ofNat 32 (2 ^ c.chainBit) ||| sizeField c c.slotSize ∧
    txSubmitStatus c = BitVec.ofNat 32 (2 ^ c.ownBit) ∧
    txf c = BitVec.ofNat 32 (2 ^ c.txIntBit) ||| BitVec.ofNat 32 (2 ^ c.txLastBit) ||| BitVec.ofNat 32 (2 ^ c.txFirstBit) |||
      BitVec.ofNat 32 (2 ^ c.chainBit)) ∧
  txInitStatus = 0x00000000#32 ∧ txInitControl .ref = 0x01000000#32 ∧ rxArmStatus .ref = 0x80000000#32 ∧
  rxInitControl .ref = 0x01000010#32 ∧ txSubmitStatus .ref = 0x80000000#32 ∧ txf .ref = 0xE1000000#32

/-- 30_encoding.md R118: the size field is `(n & (2^SIZE_W - 1)) * 2^SIZE_LO`, and in a well-formed configuration the control word of
a frame that fits holds exactly its length, with the four flags set. -/
def Obligations.SizeFieldHoldsTheLength : Prop :=
  ∀ (c : Config) (n : Nat), c.wf = true →
    (sizeField c n).toNat = (n &&& (2 ^ c.sizeW - 1)) * 2 ^ c.sizeLo ∧
    (n ≤ c.slotSize → sizeOf c (txf c ||| sizeField c n) = n ∧
      ∀ b ∈ [c.txIntBit, c.txLastBit, c.txFirstBit, c.chainBit], (txf c ||| sizeField c n).getLsbD b = true)

end
end

