-- ==== Sys2Proof/Laws/Config.lean ====
section
/-! SUPPORT. What a well-formed configuration gives (00_scope.md R7, R8): ranges of parameters, alignment and disjointness of
descriptor and buffer addresses (20_memory.md R72, R73, R77). -/

namespace Sys2Proof.Machine

/-! ## The checks one by one -/

theorem wf_checks {c : Config} (h : c.wf = true) :
    c.ringsOk = true ∧ c.slotOk = true ∧ c.strideOk = true ∧ c.basesOk = true ∧ c.areasApart = true ∧
    c.areasInSpace = true ∧ c.statusFieldsOk = true ∧ c.controlFieldsOk = true ∧ c.dmaBitsOk = true ∧
    c.linkAndCountersOk = true ∧ c.macBitsOk = true := by
  simpa [Config.wf, and_assoc] using h

theorem wf_ringLen_pos {c : Config} (h : c.wf = true) (d : Dir) : 0 < ringLen c d := by
  have := (wf_checks h).1
  simp [Config.ringsOk] at this
  cases d <;> simp [ringLen] <;> omega

theorem wf_nTx_pos {c : Config} (h : c.wf = true) : 0 < c.nTx := wf_ringLen_pos h .tx

theorem wf_nRx_pos {c : Config} (h : c.wf = true) : 0 < c.nRx := wf_ringLen_pos h .rx

theorem wf_slot {c : Config} (h : c.wf = true) : 1 ≤ c.slotSize ∧ c.slotSize < 2 ^ c.sizeW := by
  have := (wf_checks h).2.1
  have : 1 ≤ c.slotSize ∧ c.slotSize ≤ 2 ^ c.sizeW - 1 := by simpa [Config.slotOk] using this
  omega

theorem wf_stride {c : Config} (h : c.wf = true) : 16 ≤ c.descStride ∧ c.descStride % 4 = 0 := by
  have := (wf_checks h).2.2.1
  obtain ⟨h16, hp⟩ : 16 ≤ c.descStride ∧ 2 ^ Nat.log2 c.descStride = c.descStride := by simpa [Config.strideOk] using this
  refine ⟨h16, ?_⟩
  have h2 : 2 ≤ Nat.log2 c.descStride := by
    rcases Nat.lt_or_ge (Nat.log2 c.descStride) 2 with hlt | hge
    · have : 2 ^ Nat.log2 c.descStride ≤ 2 ^ 1 := Nat.pow_le_pow_right (by omega) (by omega)
      omega
    · exact hge
  rw [← hp, show Nat.log2 c.descStride = (Nat.log2 c.descStride - 2) + 2 by omega, Nat.pow_add]
  simp

theorem wf_descBase {c : Config} (h : c.wf = true) (d : Dir) : descBase c d % 4 = 0 := by
  have hb := (wf_checks h).2.2.2.1
  have hs := (wf_stride h).2
  obtain ⟨⟨⟨h1, h2⟩, -⟩, -⟩ : ((c.txDescBase % c.descStride = 0 ∧ c.rxDescBase % c.descStride = 0) ∧
    c.txBufBase % c.descStride = 0) ∧ c.rxBufBase % c.descStride = 0 := by simpa [Config.basesOk] using hb
  have d4 : 4 ∣ c.descStride := Nat.dvd_of_mod_eq_zero hs
  cases d
  · exact Nat.mod_eq_zero_of_dvd (d4.trans (Nat.dvd_of_mod_eq_zero h1))
  · exact Nat.mod_eq_zero_of_dvd (d4.trans (Nat.dvd_of_mod_eq_zero h2))

theorem wf_ownBit {c : Config} (h : c.wf = true) :
    c.ownBit < 32 ∧ c.rxLenLo + c.rxLenW ≤ 32 ∧ (c.ownBit < c.rxLenLo ∨ c.rxLenLo + c.rxLenW ≤ c.ownBit) := by
  have := (wf_checks h).2.2.2.2.2.2.1
  simp [Config.statusFieldsOk, outsideField] at this
  omega

theorem wf_controlFields {c : Config} (h : c.wf = true) :
    c.sizeLo + c.sizeW ≤ 32 ∧
    (c.txIntBit < c.sizeLo ∨ c.sizeLo + c.sizeW ≤ c.txIntBit) ∧ (c.txLastBit < c.sizeLo ∨ c.sizeLo + c.sizeW ≤ c.txLastBit) ∧
    (c.txFirstBit < c.sizeLo ∨ c.sizeLo + c.sizeW ≤ c.txFirstBit) ∧ (c.chainBit < c.sizeLo ∨ c.sizeLo + c.sizeW ≤ c.chainBit) := by
  have := (wf_checks h).2.2.2.2.2.2.2.1
  simp [Config.controlFieldsOk, outsideField] at this
  tauto

theorem wf_cntW {c : Config} (h : c.wf = true) : 1 ≤ c.cntW := by
  have := (wf_checks h).2.2.2.2.2.2.2.2.2.1
  simp [Config.linkAndCountersOk] at this
  exact this.2

theorem wf_linkUpBit {c : Config} (h : c.wf = true) : c.linkUpBit < 32 := by
  have := (wf_checks h).2.2.2.2.2.2.2.2.2.1
  simp [Config.linkAndCountersOk] at this
  omega

theorem wf_macBits {c : Config} (h : c.wf = true) : c.macTxBit < 32 ∧ c.macRxBit < 32 ∧ c.macTxBit ≠ c.macRxBit := by
  have := (wf_checks h).2.2.2.2.2.2.2.2.2.2
  simp [Config.macBitsOk] at this
  omega

/-! ## Areas -/

/-- `d_DESC_BASE + N_d * DESC_STRIDE`. -/
theorem wf_descEnd {c : Config} (h : c.wf = true) (d : Dir) : descBase c d + ringLen c d * c.descStride ≤ 2 ^ 32 := by
  have := (wf_checks h).2.2.2.2.2.1
  simp only [Config.areasInSpace, Bool.and_eq_true, decide_eq_true_eq] at this
  simp only [Config.txDescEnd, Config.rxDescEnd, Config.txBufEnd, Config.rxBufEnd] at this
  cases d <;> simp [descBase, ringLen] <;> omega

theorem wf_bufEnd {c : Config} (h : c.wf = true) (d : Dir) : bufBase c d + ringLen c d * c.slotSize ≤ 2 ^ 32 := by
  have := (wf_checks h).2.2.2.2.2.1
  simp only [Config.areasInSpace, Bool.and_eq_true, decide_eq_true_eq] at this
  simp only [Config.txDescEnd, Config.rxDescEnd, Config.txBufEnd, Config.rxBufEnd] at this
  cases d <;> simp [bufBase, ringLen] <;> omega

/-- Every descriptor area lies apart from every buffer area (00_scope.md R8 (a)). -/
theorem wf_desc_buf_apart {c : Config} (h : c.wf = true) (d d' : Dir) :
    descBase c d + ringLen c d * c.descStride ≤ bufBase c d' ∨ bufBase c d' + ringLen c d' * c.slotSize ≤ descBase c d := by
  have := (wf_checks h).2.2.2.2.1
  simp only [Config.areasApart, apart, Bool.and_eq_true, Bool.or_eq_true, decide_eq_true_eq] at this
  simp only [Config.txDescEnd, Config.rxDescEnd, Config.txBufEnd, Config.rxBufEnd] at this
  cases d <;> cases d' <;> simp only [descBase, bufBase, ringLen] <;> omega

theorem wf_desc_desc_apart {c : Config} (h : c.wf = true) {d d' : Dir} (hd : d ≠ d') :
    descBase c d + ringLen c d * c.descStride ≤ descBase c d' ∨ descBase c d' + ringLen c d' * c.descStride ≤ descBase c d := by
  have := (wf_checks h).2.2.2.2.1
  simp only [Config.areasApart, apart, Bool.and_eq_true, Bool.or_eq_true, decide_eq_true_eq] at this
  simp only [Config.txDescEnd, Config.rxDescEnd, Config.txBufEnd, Config.rxBufEnd] at this
  cases d <;> cases d' <;> simp only [descBase, ringLen] <;> first | contradiction | omega

theorem wf_buf_buf_apart {c : Config} (h : c.wf = true) {d d' : Dir} (hd : d ≠ d') :
    bufBase c d + ringLen c d * c.slotSize ≤ bufBase c d' ∨ bufBase c d' + ringLen c d' * c.slotSize ≤ bufBase c d := by
  have := (wf_checks h).2.2.2.2.1
  simp only [Config.areasApart, apart, Bool.and_eq_true, Bool.or_eq_true, decide_eq_true_eq] at this
  simp only [Config.txDescEnd, Config.rxDescEnd, Config.txBufEnd, Config.rxBufEnd] at this
  cases d <;> cases d' <;> simp only [bufBase, ringLen] <;> first | contradiction | omega

/-! ## Addresses -/

/-- Cell `i` of an array of `n` cells of `w` bytes lies inside the array. -/
theorem cell_inside {i n w : Nat} (hi : i < n) : i * w + w ≤ n * w := by
  have : (i + 1) * w ≤ n * w := Nat.mul_le_mul_right _ hi
  rw [Nat.add_mul] at this
  omega

/-- Two different cells of an array do not meet. -/
theorem cells_apart {i j w : Nat} (h : i ≠ j) : i * w + w ≤ j * w ∨ j * w + w ≤ i * w := by
  rcases Nat.lt_or_gt_of_ne h with h | h
  · exact .inl (cell_inside h)
  · exact .inr (cell_inside h)

/-- Where byte `k` of descriptor `i` stands (20_memory.md R72). -/
theorem descByte_toNat {c : Config} (h : c.wf = true) {d : Dir} {i k : Nat} (hi : i < ringLen c d) (hk : k < 16) :
    (daddr c d i + BitVec.ofNat 32 k).toNat = descBase c d + i * c.descStride + k := by
  have h1 := wf_descEnd h d
  have h2 := cell_inside (w := c.descStride) hi
  have h3 := (wf_stride h).1
  simp only [daddr, BitVec.toNat_add, BitVec.toNat_ofNat]
  omega

theorem daddr_toNat {c : Config} (h : c.wf = true) {d : Dir} {i : Nat} (hi : i < ringLen c d) :
    (daddr c d i).toNat = descBase c d + i * c.descStride := by
  have := descByte_toNat h hi (k := 0) (by omega)
  simpa using this

/-- Where byte `j` of buffer slot `i` stands (20_memory.md R73). -/
theorem slotByte_toNat {c : Config} (h : c.wf = true) {d : Dir} {i j : Nat} (hi : i < ringLen c d) (hj : j < c.slotSize) :
    (slotByteAddr c d i j).toNat = bufBase c d + i * c.slotSize + j := by
  have h1 := wf_bufEnd h d
  have h2 := cell_inside (w := c.slotSize) hi
  simp only [slotByteAddr, baddr, BitVec.toNat_add, BitVec.toNat_ofNat]
  omega

/-- Every word of every descriptor is aligned, whatever the index (20_memory.md R77). -/
theorem descWord_aligned {c : Config} (h : c.wf = true) (d : Dir) (i : Nat) {k : Nat} (hk : k % 4 = 0) :
    (daddr c d i + BitVec.ofNat 32 k).toNat % 4 = 0 := by
  have h1 := wf_descBase h d
  have h2 : (i * c.descStride) % 4 = 0 := by rw [Nat.mul_mod, (wf_stride h).2]; simp
  simp only [daddr, BitVec.toNat_add, BitVec.toNat_ofNat]
  omega

theorem statusAddr_aligned {c : Config} (h : c.wf = true) (d : Dir) (i : Nat) : (statusAddr c d i).toNat % 4 = 0 := by
  simpa [statusAddr] using descWord_aligned h d i (k := 0) rfl

theorem controlAddr_aligned {c : Config} (h : c.wf = true) (d : Dir) (i : Nat) : (controlAddr c d i).toNat % 4 = 0 :=
  descWord_aligned h d i (k := 4) rfl

theorem bufferAddressAddr_aligned {c : Config} (h : c.wf = true) (d : Dir) (i : Nat) :
    (bufferAddressAddr c d i).toNat % 4 = 0 := descWord_aligned h d i (k := 8) rfl

theorem nextAddr_aligned {c : Config} (h : c.wf = true) (d : Dir) (i : Nat) : (nextAddr c d i).toNat % 4 = 0 :=
  descWord_aligned h d i (k := 12) rfl

/-- Different descriptors do not meet. -/
theorem descs_apart {c : Config} (h : c.wf = true) {d d' : Dir} {i i' : Nat} (hi : i < ringLen c d) (hi' : i' < ringLen c d')
    (hne : (d, i) ≠ (d', i')) :
    descBase c d + i * c.descStride + 16 ≤ descBase c d' + i' * c.descStride ∨
    descBase c d' + i' * c.descStride + 16 ≤ descBase c d + i * c.descStride := by
  have h3 := (wf_stride h).1
  by_cases hd : d = d'
  · subst hd
    have : i ≠ i' := fun e => hne (by rw [e])
    have := cells_apart (w := c.descStride) this
    omega
  · have h1 := cell_inside (w := c.descStride) hi
    have h2 := cell_inside (w := c.descStride) hi'
    have := wf_desc_desc_apart h hd
    omega

/-- A descriptor and a buffer slot do not meet. -/
theorem desc_slot_apart {c : Config} (h : c.wf = true) {d d' : Dir} {i i' : Nat} (hi : i < ringLen c d) (hi' : i' < ringLen c d') :
    descBase c d + i * c.descStride + 16 ≤ bufBase c d' + i' * c.slotSize ∨
    bufBase c d' + i' * c.slotSize + c.slotSize ≤ descBase c d + i * c.descStride := by
  have h3 := (wf_stride h).1
  have h1 := cell_inside (w := c.descStride) hi
  have h2 := cell_inside (w := c.slotSize) hi'
  have := wf_desc_buf_apart h d d'
  omega

/-- Different buffer slots do not meet. -/
theorem slots_apart {c : Config} (h : c.wf = true) {d d' : Dir} {i i' : Nat} (hi : i < ringLen c d) (hi' : i' < ringLen c d')
    (hne : (d, i) ≠ (d', i')) :
    bufBase c d + i * c.slotSize + c.slotSize ≤ bufBase c d' + i' * c.slotSize ∨
    bufBase c d' + i' * c.slotSize + c.slotSize ≤ bufBase c d + i * c.slotSize := by
  by_cases hd : d = d'
  · subst hd
    have : i ≠ i' := fun e => hne (by rw [e])
    have := cells_apart (w := c.slotSize) this
    omega
  · have h1 := cell_inside (w := c.slotSize) hi
    have h2 := cell_inside (w := c.slotSize) hi'
    have := wf_buf_buf_apart h hd
    omega

end Sys2Proof.Machine
end

