-- ==== Sys2Proof/Laws/Memory.lean ====
section
/-! SUPPORT. Shared memory: a read after a write, and the canonical form (20_memory.md R74 to R76, R82). -/

namespace Sys2Proof.Machine

/-! ## Cells -/

@[simp] theorem lookupCell_insertCell_same (a : Nat) (b : Byte) (l : List Host.Cell) :
    lookupCell a (insertCell a b l) = some b := by
  induction l with
  | nil => simp [insertCell, lookupCell]
  | cons x rest ih =>
    obtain ⟨k, v⟩ := x
    unfold insertCell
    split
    · simp [lookupCell]
    · split
      · simp [lookupCell]
      · simp_all [lookupCell]

theorem lookupCell_insertCell_ne {a a' : Nat} (b : Byte) (l : List Host.Cell) (h : a' ≠ a) :
    lookupCell a' (insertCell a b l) = lookupCell a' l := by
  induction l with
  | nil => simp [insertCell, lookupCell, h]
  | cons x rest ih =>
    obtain ⟨k, v⟩ := x
    unfold insertCell
    split
    · simp [lookupCell, h]
    · split
      · subst_vars; simp [lookupCell, h]
      · simp [lookupCell, ih]

theorem insertCell_keys {a : Nat} {b : Byte} {l : List Host.Cell} {x : Host.Cell} (h : x ∈ insertCell a b l) :
    x = (a, b) ∨ x ∈ l := by
  induction l with
  | nil => simpa [insertCell] using h
  | cons y rest ih =>
    obtain ⟨k, v⟩ := y
    unfold insertCell at h
    split at h
    · simpa using h
    · split at h
      · simp only [List.mem_cons] at h ⊢; tauto
      · simp only [List.mem_cons] at h ⊢; tauto

theorem insertCell_rising {a : Nat} {b : Byte} {l : List Host.Cell} (h : l.Pairwise fun x y => x.1 < y.1) :
    (insertCell a b l).Pairwise fun x y => x.1 < y.1 := by
  induction l with
  | nil => simp [insertCell]
  | cons y rest ih =>
    obtain ⟨k, v⟩ := y
    rw [List.pairwise_cons] at h
    unfold insertCell
    split
    · rename_i hlt
      refine List.pairwise_cons.2 ⟨fun x hx => ?_, List.pairwise_cons.2 h⟩
      rcases List.mem_cons.1 hx with rfl | hx
      · exact hlt
      · exact Nat.lt_trans hlt (h.1 x hx)
    · split
      · subst_vars; exact List.pairwise_cons.2 ⟨h.1, h.2⟩
      · refine List.pairwise_cons.2 ⟨fun x hx => ?_, ih h.2⟩
        rcases insertCell_keys hx with rfl | hx
        · simp only; omega
        · exact h.1 x hx

/-! ## Bytes -/

theorem Memory.wf_iff (m : Memory) :
    m.wf = true ↔ (m.cells.Pairwise fun x y => x.1 < y.1) ∧ ∀ x ∈ m.cells, x.1 < 2 ^ 32 := by
  simp [Memory.wf]

theorem Memory.empty_wf : Memory.empty.wf = true := by decide

theorem Memory.setByte_wf {m : Memory} (a : Addr) (b : Byte) (h : m.wf = true) : (m.setByte a b).wf = true := by
  rw [Memory.wf_iff] at h ⊢
  refine ⟨insertCell_rising h.1, fun x hx => ?_⟩
  rcases insertCell_keys hx with rfl | hx
  · exact a.isLt
  · exact h.2 x hx

theorem Memory.setWord_wf {m : Memory} (a : Addr) (w : Word) (h : m.wf = true) : (m.setWord a w).wf = true :=
  Memory.setByte_wf _ _ (Memory.setByte_wf _ _ (Memory.setByte_wf _ _ (Memory.setByte_wf _ _ h)))

@[simp] theorem Memory.byte_setByte_same (m : Memory) (a : Addr) (b : Byte) : (m.setByte a b).byte a = b := by
  simp [Memory.byte, Memory.setByte]

theorem Memory.byte_setByte_ne (m : Memory) {a x : Addr} (b : Byte) (h : x ≠ a) : (m.setByte a b).byte x = m.byte x := by
  have : x.toNat ≠ a.toNat := fun e => h (BitVec.eq_of_toNat_eq e)
  simp [Memory.byte, Memory.setByte, lookupCell_insertCell_ne _ _ this]

/-! ## Words -/

/-- The four bytes of a word, put together, are the word (20_memory.md R74). -/
theorem word_of_bytes (w : Word) :
    (w.extractLsb' 24 8 ++ w.extractLsb' 16 8 ++ w.extractLsb' 8 8 ++ w.extractLsb' 0 8 : Word) = w := by
  apply BitVec.eq_of_getLsbD_eq
  intro i hi
  simp only [BitVec.getLsbD_append, BitVec.getLsbD_extractLsb']
  have : i < 8 ∨ (8 ≤ i ∧ i < 16) ∨ (16 ≤ i ∧ i < 24) ∨ (24 ≤ i ∧ i < 32) := by omega
  rcases this with h | ⟨h, h'⟩ | ⟨h, h'⟩ | ⟨h, h'⟩
  · simp [h]
  · simp [show ¬i < 8 by omega, show i - 8 < 8 by omega, show 8 + (i - 8) = i by omega]
  · simp [show ¬i < 8 by omega, show ¬i - 8 < 8 by omega, show i - 8 - 8 < 8 by omega,
      show 16 + (i - 8 - 8) = i by omega]
  · simp [show ¬i < 8 by omega, show ¬i - 8 < 8 by omega, show ¬i - 8 - 8 < 8 by omega,
      show i - 8 - 8 - 8 < 8 by omega, show 24 + (i - 8 - 8 - 8) = i by omega]

theorem Memory.byte_setWord_ne (m : Memory) {a x : Addr} (w : Word)
    (h : x ≠ a ∧ x ≠ a + 1#32 ∧ x ≠ a + 2#32 ∧ x ≠ a + 3#32) : (m.setWord a w).byte x = m.byte x := by
  obtain ⟨h0, h1, h2, h3⟩ := h
  simp [Memory.setWord, Memory.byte_setByte_ne _ _ h0, Memory.byte_setByte_ne _ _ h1, Memory.byte_setByte_ne _ _ h2,
    Memory.byte_setByte_ne _ _ h3]

theorem Memory.word_setWord_same (m : Memory) (a : Addr) (w : Word) : (m.setWord a w).word a = w := by
  have e : ∀ i j : Addr, i ≠ j → a + i ≠ a + j := fun i j h h' => h (by simpa using h')
  have e0 : ∀ j : Addr, j ≠ 0#32 → a ≠ a + j := fun j h h' => h (by simpa using h'.symm)
  have b0 : (m.setWord a w).byte a = w.extractLsb' 0 8 := by
    simp only [Memory.setWord]
    rw [Memory.byte_setByte_ne _ _ (e0 _ (by decide)), Memory.byte_setByte_ne _ _ (e0 _ (by decide)),
      Memory.byte_setByte_ne _ _ (e0 _ (by decide)), Memory.byte_setByte_same]
  have b1 : (m.setWord a w).byte (a + 1#32) = w.extractLsb' 8 8 := by
    simp only [Memory.setWord]
    rw [Memory.byte_setByte_ne _ _ (e _ _ (by decide)), Memory.byte_setByte_ne _ _ (e _ _ (by decide)),
      Memory.byte_setByte_same]
  have b2 : (m.setWord a w).byte (a + 2#32) = w.extractLsb' 16 8 := by
    simp only [Memory.setWord]
    rw [Memory.byte_setByte_ne _ _ (e _ _ (by decide)), Memory.byte_setByte_same]
  have b3 : (m.setWord a w).byte (a + 3#32) = w.extractLsb' 24 8 := by
    simp only [Memory.setWord]; rw [Memory.byte_setByte_same]
  rw [Memory.word, b0, b1, b2, b3]
  exact word_of_bytes w

/-- The word read depends on its four bytes only. -/
theorem Memory.word_congr {m m' : Memory} {a : Addr}
    (h : ∀ x, x = a ∨ x = a + 1#32 ∨ x = a + 2#32 ∨ x = a + 3#32 → m.byte x = m'.byte x) : m.word a = m'.word a := by
  rw [Memory.word, Memory.word, h a (by simp), h _ (.inr (.inl rfl)), h _ (.inr (.inr (.inl rfl))),
    h _ (.inr (.inr (.inr rfl)))]

/-- The bytes of the word at an aligned address are the four addresses from it. -/
theorem word_bytes_iff {a x : Addr} (h : a.toNat % 4 = 0) :
    (x = a ∨ x = a + 1#32 ∨ x = a + 2#32 ∨ x = a + 3#32) ↔ a.toNat ≤ x.toNat ∧ x.toNat < a.toNat + 4 := by
  have := a.isLt
  simp only [BitVec.toNat_eq, BitVec.toNat_add, BitVec.toNat_ofNat]
  omega

/-- A word write leaves every byte outside its four bytes alone. -/
theorem Memory.byte_setWord_outside (m : Memory) {a x : Addr} (w : Word) (h : a.toNat % 4 = 0)
    (hx : x.toNat < a.toNat ∨ a.toNat + 4 ≤ x.toNat) : (m.setWord a w).byte x = m.byte x := by
  apply Memory.byte_setWord_ne
  have := mt (word_bytes_iff (x := x) h).1 (by omega)
  tauto

/-- A word write leaves every other aligned word alone. -/
theorem Memory.word_setWord_ne (m : Memory) {a b : Addr} (w : Word) (ha : a.toNat % 4 = 0) (hb : b.toNat % 4 = 0)
    (h : b ≠ a) : (m.setWord a w).word b = m.word b := by
  apply Memory.word_congr
  intro x hx
  have hne : b.toNat ≠ a.toNat := fun e => h (BitVec.eq_of_toNat_eq e)
  have := (word_bytes_iff hb).1 hx
  exact Memory.byte_setWord_outside m w ha (by omega)

/-- A byte write outside a word's four bytes leaves the word alone. -/
theorem Memory.word_setByte_outside (m : Memory) {a x : Addr} (b : Byte) (ha : a.toNat % 4 = 0)
    (h : x.toNat < a.toNat ∨ a.toNat + 4 ≤ x.toNat) : (m.setByte x b).word a = m.word a := by
  apply Memory.word_congr
  intro y hy
  have := (word_bytes_iff ha).1 hy
  apply Memory.byte_setByte_ne
  rintro rfl
  omega

end Sys2Proof.Machine
end

