-- ==== Sys2Proof/Laws/State.lean ====
section
/-! SUPPORT. One lemma for each field of State and each named update: what the field holds afterwards. -/

namespace Sys2Proof.Machine

@[simp] theorem order_eq (s : State) : order s = s := rfl
@[simp] theorem regWrite_txDoorbell (v : Word) (s : State) : regWrite .txDoorbell v s = emit .txDoorbell s := rfl
@[simp] theorem regWrite_rxRearm (v : Word) (s : State) : regWrite .rxRearm v s = emit .rxRearm s := rfl
@[simp] theorem regRead_linkStatus (s : State) : regRead .linkStatus s = s.linkStatus := rfl
@[simp] theorem regRead_macConfig (s : State) : regRead .macConfig s = s.macConfig := rfl

/-! ### emit -/

@[simp] theorem emit_txClaimCur (e : Event) (s : State) : (emit e s).txClaimCur = s.txClaimCur := rfl
@[simp] theorem emit_txReclaimCur (e : Event) (s : State) : (emit e s).txReclaimCur = s.txReclaimCur := rfl
@[simp] theorem emit_txInflight (e : Event) (s : State) : (emit e s).txInflight = s.txInflight := rfl
@[simp] theorem emit_rxCur (e : Event) (s : State) : (emit e s).rxCur = s.rxCur := rfl
@[simp] theorem emit_rxFaultCount (e : Event) (s : State) : (emit e s).rxFaultCount = s.rxFaultCount := rfl
@[simp] theorem emit_errCount (e : Event) (s : State) : (emit e s).errCount = s.errCount := rfl
@[simp] theorem emit_txReclaimedCount (e : Event) (s : State) : (emit e s).txReclaimedCount = s.txReclaimedCount := rfl
@[simp] theorem emit_rxDropCount (e : Event) (s : State) : (emit e s).rxDropCount = s.rxDropCount := rfl
@[simp] theorem emit_isrLatch (e : Event) (s : State) : (emit e s).isrLatch = s.isrLatch := rfl
@[simp] theorem emit_online (e : Event) (s : State) : (emit e s).online = s.online := rfl
@[simp] theorem emit_linkRawLast (e : Event) (s : State) : (emit e s).linkRawLast = s.linkRawLast := rfl
@[simp] theorem emit_bound (e : Event) (s : State) : (emit e s).bound = s.bound := rfl
@[simp] theorem emit_clientId (e : Event) (s : State) : (emit e s).clientId = s.clientId := rfl
@[simp] theorem emit_life (e : Event) (s : State) : (emit e s).life = s.life := rfl
@[simp] theorem emit_wstate (e : Event) (s : State) : (emit e s).wstate = s.wstate := rfl
@[simp] theorem emit_wphase (e : Event) (s : State) : (emit e s).wphase = s.wphase := rfl
@[simp] theorem emit_rxHold (e : Event) (s : State) : (emit e s).rxHold = s.rxHold := rfl
@[simp] theorem emit_irqValid (e : Event) (s : State) : (emit e s).irqValid = s.irqValid := rfl
@[simp] theorem emit_regionValid (e : Event) (s : State) : (emit e s).regionValid = s.regionValid := rfl
@[simp] theorem emit_dmaStatus (e : Event) (s : State) : (emit e s).dmaStatus = s.dmaStatus := rfl
@[simp] theorem emit_irqPending (e : Event) (s : State) : (emit e s).irqPending = s.irqPending := rfl
@[simp] theorem emit_linkStatus (e : Event) (s : State) : (emit e s).linkStatus = s.linkStatus := rfl
@[simp] theorem emit_macConfig (e : Event) (s : State) : (emit e s).macConfig = s.macConfig := rfl
@[simp] theorem emit_result (e : Event) (s : State) : (emit e s).result = s.result := rfl
@[simp] theorem emit_mem (e : Event) (s : State) : (emit e s).mem = s.mem := rfl
@[simp] theorem emit_devTxCur (e : Event) (s : State) : (emit e s).devTxCur = s.devTxCur := rfl
@[simp] theorem emit_devRxCur (e : Event) (s : State) : (emit e s).devRxCur = s.devRxCur := rfl
@[simp] theorem emit_devQuiesced (e : Event) (s : State) : (emit e s).devQuiesced = s.devQuiesced := rfl
@[simp] theorem emit_out (e : Event) (s : State) : (emit e s).out = s.out ++ [e] := rfl
@[simp] theorem emit_wire (e : Event) (s : State) : (emit e s).wire = s.wire := rfl
@[simp] theorem emit_cfg (e : Event) (s : State) : (emit e s).cfg = s.cfg := rfl
@[simp] theorem emit_sched (e : Event) (s : State) : (emit e s).sched = s.sched := rfl
@[simp] theorem emit_bus (e : Event) (s : State) : (emit e s).bus = s.bus := rfl
@[simp] theorem emit_ret (e : Event) (s : State) : (emit e s).ret = s.ret := rfl
@[simp] theorem emit_reapReturned (e : Event) (s : State) : (emit e s).reapReturned = s.reapReturned := rfl
@[simp] theorem emit_inside (e : Event) (s : State) : (emit e s).inside = s.inside := rfl
@[simp] theorem emit_drawCtr (e : Event) (s : State) : (emit e s).drawCtr = s.drawCtr := rfl

/-! ### resultWith -/

@[simp] theorem resultWith_txClaimCur (code : ResultCode) (p : ResultPayload) (s : State) : (resultWith code p s).txClaimCur = s.txClaimCur := rfl
@[simp] theorem resultWith_txReclaimCur (code : ResultCode) (p : ResultPayload) (s : State) : (resultWith code p s).txReclaimCur = s.txReclaimCur := rfl
@[simp] theorem resultWith_txInflight (code : ResultCode) (p : ResultPayload) (s : State) : (resultWith code p s).txInflight = s.txInflight := rfl
@[simp] theorem resultWith_rxCur (code : ResultCode) (p : ResultPayload) (s : State) : (resultWith code p s).rxCur = s.rxCur := rfl
@[simp] theorem resultWith_rxFaultCount (code : ResultCode) (p : ResultPayload) (s : State) : (resultWith code p s).rxFaultCount = s.rxFaultCount := rfl
@[simp] theorem resultWith_errCount (code : ResultCode) (p : ResultPayload) (s : State) : (resultWith code p s).errCount = s.errCount := rfl
@[simp] theorem resultWith_txReclaimedCount (code : ResultCode) (p : ResultPayload) (s : State) : (resultWith code p s).txReclaimedCount = s.txReclaimedCount := rfl
@[simp] theorem resultWith_rxDropCount (code : ResultCode) (p : ResultPayload) (s : State) : (resultWith code p s).rxDropCount = s.rxDropCount := rfl
@[simp] theorem resultWith_isrLatch (code : ResultCode) (p : ResultPayload) (s : State) : (resultWith code p s).isrLatch = s.isrLatch := rfl
@[simp] theorem resultWith_online (code : ResultCode) (p : ResultPayload) (s : State) : (resultWith code p s).online = s.online := rfl
@[simp] theorem resultWith_linkRawLast (code : ResultCode) (p : ResultPayload) (s : State) : (resultWith code p s).linkRawLast = s.linkRawLast := rfl
@[simp] theorem resultWith_bound (code : ResultCode) (p : ResultPayload) (s : State) : (resultWith code p s).bound = s.bound := rfl
@[simp] theorem resultWith_clientId (code : ResultCode) (p : ResultPayload) (s : State) : (resultWith code p s).clientId = s.clientId := rfl
@[simp] theorem resultWith_life (code : ResultCode) (p : ResultPayload) (s : State) : (resultWith code p s).life = s.life := rfl
@[simp] theorem resultWith_wstate (code : ResultCode) (p : ResultPayload) (s : State) : (resultWith code p s).wstate = s.wstate := rfl
@[simp] theorem resultWith_wphase (code : ResultCode) (p : ResultPayload) (s : State) : (resultWith code p s).wphase = s.wphase := rfl
@[simp] theorem resultWith_rxHold (code : ResultCode) (p : ResultPayload) (s : State) : (resultWith code p s).rxHold = s.rxHold := rfl
@[simp] theorem resultWith_irqValid (code : ResultCode) (p : ResultPayload) (s : State) : (resultWith code p s).irqValid = s.irqValid := rfl
@[simp] theorem resultWith_regionValid (code : ResultCode) (p : ResultPayload) (s : State) : (resultWith code p s).regionValid = s.regionValid := rfl
@[simp] theorem resultWith_dmaStatus (code : ResultCode) (p : ResultPayload) (s : State) : (resultWith code p s).dmaStatus = s.dmaStatus := rfl
@[simp] theorem resultWith_irqPending (code : ResultCode) (p : ResultPayload) (s : State) : (resultWith code p s).irqPending = s.irqPending := rfl
@[simp] theorem resultWith_linkStatus (code : ResultCode) (p : ResultPayload) (s : State) : (resultWith code p s).linkStatus = s.linkStatus := rfl
@[simp] theorem resultWith_macConfig (code : ResultCode) (p : ResultPayload) (s : State) : (resultWith code p s).macConfig = s.macConfig := rfl
@[simp] theorem resultWith_result (code : ResultCode) (p : ResultPayload) (s : State) : (resultWith code p s).result = ⟨code, p⟩ := rfl
@[simp] theorem resultWith_mem (code : ResultCode) (p : ResultPayload) (s : State) : (resultWith code p s).mem = s.mem := rfl
@[simp] theorem resultWith_devTxCur (code : ResultCode) (p : ResultPayload) (s : State) : (resultWith code p s).devTxCur = s.devTxCur := rfl
@[simp] theorem resultWith_devRxCur (code : ResultCode) (p : ResultPayload) (s : State) : (resultWith code p s).devRxCur = s.devRxCur := rfl
@[simp] theorem resultWith_devQuiesced (code : ResultCode) (p : ResultPayload) (s : State) : (resultWith code p s).devQuiesced = s.devQuiesced := rfl
@[simp] theorem resultWith_out (code : ResultCode) (p : ResultPayload) (s : State) : (resultWith code p s).out = s.out ++ [.result code p] := rfl
@[simp] theorem resultWith_wire (code : ResultCode) (p : ResultPayload) (s : State) : (resultWith code p s).wire = s.wire := rfl
@[simp] theorem resultWith_cfg (code : ResultCode) (p : ResultPayload) (s : State) : (resultWith code p s).cfg = s.cfg := rfl
@[simp] theorem resultWith_sched (code : ResultCode) (p : ResultPayload) (s : State) : (resultWith code p s).sched = s.sched := rfl
@[simp] theorem resultWith_bus (code : ResultCode) (p : ResultPayload) (s : State) : (resultWith code p s).bus = s.bus := rfl
@[simp] theorem resultWith_ret (code : ResultCode) (p : ResultPayload) (s : State) : (resultWith code p s).ret = s.ret := rfl
@[simp] theorem resultWith_reapReturned (code : ResultCode) (p : ResultPayload) (s : State) : (resultWith code p s).reapReturned = s.reapReturned := rfl
@[simp] theorem resultWith_inside (code : ResultCode) (p : ResultPayload) (s : State) : (resultWith code p s).inside = s.inside := rfl
@[simp] theorem resultWith_drawCtr (code : ResultCode) (p : ResultPayload) (s : State) : (resultWith code p s).drawCtr = s.drawCtr := rfl

/-! ### result -/

@[simp] theorem result_txClaimCur (code : ResultCode) (s : State) : (result code s).txClaimCur = s.txClaimCur := rfl
@[simp] theorem result_txReclaimCur (code : ResultCode) (s : State) : (result code s).txReclaimCur = s.txReclaimCur := rfl
@[simp] theorem result_txInflight (code : ResultCode) (s : State) : (result code s).txInflight = s.txInflight := rfl
@[simp] theorem result_rxCur (code : ResultCode) (s : State) : (result code s).rxCur = s.rxCur := rfl
@[simp] theorem result_rxFaultCount (code : ResultCode) (s : State) : (result code s).rxFaultCount = s.rxFaultCount := rfl
@[simp] theorem result_errCount (code : ResultCode) (s : State) : (result code s).errCount = s.errCount := rfl
@[simp] theorem result_txReclaimedCount (code : ResultCode) (s : State) : (result code s).txReclaimedCount = s.txReclaimedCount := rfl
@[simp] theorem result_rxDropCount (code : ResultCode) (s : State) : (result code s).rxDropCount = s.rxDropCount := rfl
@[simp] theorem result_isrLatch (code : ResultCode) (s : State) : (result code s).isrLatch = s.isrLatch := rfl
@[simp] theorem result_online (code : ResultCode) (s : State) : (result code s).online = s.online := rfl
@[simp] theorem result_linkRawLast (code : ResultCode) (s : State) : (result code s).linkRawLast = s.linkRawLast := rfl
@[simp] theorem result_bound (code : ResultCode) (s : State) : (result code s).bound = s.bound := rfl
@[simp] theorem result_clientId (code : ResultCode) (s : State) : (result code s).clientId = s.clientId := rfl
@[simp] theorem result_life (code : ResultCode) (s : State) : (result code s).life = s.life := rfl
@[simp] theorem result_wstate (code : ResultCode) (s : State) : (result code s).wstate = s.wstate := rfl
@[simp] theorem result_wphase (code : ResultCode) (s : State) : (result code s).wphase = s.wphase := rfl
@[simp] theorem result_rxHold (code : ResultCode) (s : State) : (result code s).rxHold = s.rxHold := rfl
@[simp] theorem result_irqValid (code : ResultCode) (s : State) : (result code s).irqValid = s.irqValid := rfl
@[simp] theorem result_regionValid (code : ResultCode) (s : State) : (result code s).regionValid = s.regionValid := rfl
@[simp] theorem result_dmaStatus (code : ResultCode) (s : State) : (result code s).dmaStatus = s.dmaStatus := rfl
@[simp] theorem result_irqPending (code : ResultCode) (s : State) : (result code s).irqPending = s.irqPending := rfl
@[simp] theorem result_linkStatus (code : ResultCode) (s : State) : (result code s).linkStatus = s.linkStatus := rfl
@[simp] theorem result_macConfig (code : ResultCode) (s : State) : (result code s).macConfig = s.macConfig := rfl
@[simp] theorem result_result (code : ResultCode) (s : State) : (result code s).result = ⟨code, .zero⟩ := rfl
@[simp] theorem result_mem (code : ResultCode) (s : State) : (result code s).mem = s.mem := rfl
@[simp] theorem result_devTxCur (code : ResultCode) (s : State) : (result code s).devTxCur = s.devTxCur := rfl
@[simp] theorem result_devRxCur (code : ResultCode) (s : State) : (result code s).devRxCur = s.devRxCur := rfl
@[simp] theorem result_devQuiesced (code : ResultCode) (s : State) : (result code s).devQuiesced = s.devQuiesced := rfl
@[simp] theorem result_out (code : ResultCode) (s : State) : (result code s).out = s.out ++ [.result code .zero] := rfl
@[simp] theorem result_wire (code : ResultCode) (s : State) : (result code s).wire = s.wire := rfl
@[simp] theorem result_cfg (code : ResultCode) (s : State) : (result code s).cfg = s.cfg := rfl
@[simp] theorem result_sched (code : ResultCode) (s : State) : (result code s).sched = s.sched := rfl
@[simp] theorem result_bus (code : ResultCode) (s : State) : (result code s).bus = s.bus := rfl
@[simp] theorem result_ret (code : ResultCode) (s : State) : (result code s).ret = s.ret := rfl
@[simp] theorem result_reapReturned (code : ResultCode) (s : State) : (result code s).reapReturned = s.reapReturned := rfl
@[simp] theorem result_inside (code : ResultCode) (s : State) : (result code s).inside = s.inside := rfl
@[simp] theorem result_drawCtr (code : ResultCode) (s : State) : (result code s).drawCtr = s.drawCtr := rfl

/-! ### cmdNotSupported -/

@[simp] theorem cmdNotSupported_txClaimCur (s : State) : (cmdNotSupported s).txClaimCur = s.txClaimCur := rfl
@[simp] theorem cmdNotSupported_txReclaimCur (s : State) : (cmdNotSupported s).txReclaimCur = s.txReclaimCur := rfl
@[simp] theorem cmdNotSupported_txInflight (s : State) : (cmdNotSupported s).txInflight = s.txInflight := rfl
@[simp] theorem cmdNotSupported_rxCur (s : State) : (cmdNotSupported s).rxCur = s.rxCur := rfl
@[simp] theorem cmdNotSupported_rxFaultCount (s : State) : (cmdNotSupported s).rxFaultCount = s.rxFaultCount := rfl
@[simp] theorem cmdNotSupported_errCount (s : State) : (cmdNotSupported s).errCount = s.errCount := rfl
@[simp] theorem cmdNotSupported_txReclaimedCount (s : State) : (cmdNotSupported s).txReclaimedCount = s.txReclaimedCount := rfl
@[simp] theorem cmdNotSupported_rxDropCount (s : State) : (cmdNotSupported s).rxDropCount = s.rxDropCount := rfl
@[simp] theorem cmdNotSupported_isrLatch (s : State) : (cmdNotSupported s).isrLatch = s.isrLatch := rfl
@[simp] theorem cmdNotSupported_online (s : State) : (cmdNotSupported s).online = s.online := rfl
@[simp] theorem cmdNotSupported_linkRawLast (s : State) : (cmdNotSupported s).linkRawLast = s.linkRawLast := rfl
@[simp] theorem cmdNotSupported_bound (s : State) : (cmdNotSupported s).bound = s.bound := rfl
@[simp] theorem cmdNotSupported_clientId (s : State) : (cmdNotSupported s).clientId = s.clientId := rfl
@[simp] theorem cmdNotSupported_life (s : State) : (cmdNotSupported s).life = s.life := rfl
@[simp] theorem cmdNotSupported_wstate (s : State) : (cmdNotSupported s).wstate = s.wstate := rfl
@[simp] theorem cmdNotSupported_wphase (s : State) : (cmdNotSupported s).wphase = s.wphase := rfl
@[simp] theorem cmdNotSupported_rxHold (s : State) : (cmdNotSupported s).rxHold = s.rxHold := rfl
@[simp] theorem cmdNotSupported_irqValid (s : State) : (cmdNotSupported s).irqValid = s.irqValid := rfl
@[simp] theorem cmdNotSupported_regionValid (s : State) : (cmdNotSupported s).regionValid = s.regionValid := rfl
@[simp] theorem cmdNotSupported_dmaStatus (s : State) : (cmdNotSupported s).dmaStatus = s.dmaStatus := rfl
@[simp] theorem cmdNotSupported_irqPending (s : State) : (cmdNotSupported s).irqPending = s.irqPending := rfl
@[simp] theorem cmdNotSupported_linkStatus (s : State) : (cmdNotSupported s).linkStatus = s.linkStatus := rfl
@[simp] theorem cmdNotSupported_macConfig (s : State) : (cmdNotSupported s).macConfig = s.macConfig := rfl
@[simp] theorem cmdNotSupported_result (s : State) : (cmdNotSupported s).result = ⟨.notSupported, .zero⟩ := rfl
@[simp] theorem cmdNotSupported_mem (s : State) : (cmdNotSupported s).mem = s.mem := rfl
@[simp] theorem cmdNotSupported_devTxCur (s : State) : (cmdNotSupported s).devTxCur = s.devTxCur := rfl
@[simp] theorem cmdNotSupported_devRxCur (s : State) : (cmdNotSupported s).devRxCur = s.devRxCur := rfl
@[simp] theorem cmdNotSupported_devQuiesced (s : State) : (cmdNotSupported s).devQuiesced = s.devQuiesced := rfl
@[simp] theorem cmdNotSupported_out (s : State) : (cmdNotSupported s).out = s.out ++ [.result .notSupported .zero] := rfl
@[simp] theorem cmdNotSupported_wire (s : State) : (cmdNotSupported s).wire = s.wire := rfl
@[simp] theorem cmdNotSupported_cfg (s : State) : (cmdNotSupported s).cfg = s.cfg := rfl
@[simp] theorem cmdNotSupported_sched (s : State) : (cmdNotSupported s).sched = s.sched := rfl
@[simp] theorem cmdNotSupported_bus (s : State) : (cmdNotSupported s).bus = s.bus := rfl
@[simp] theorem cmdNotSupported_ret (s : State) : (cmdNotSupported s).ret = s.ret := rfl
@[simp] theorem cmdNotSupported_reapReturned (s : State) : (cmdNotSupported s).reapReturned = s.reapReturned := rfl
@[simp] theorem cmdNotSupported_inside (s : State) : (cmdNotSupported s).inside = s.inside := rfl
@[simp] theorem cmdNotSupported_drawCtr (s : State) : (cmdNotSupported s).drawCtr = s.drawCtr := rfl

/-! ### countRxFault -/

@[simp] theorem countRxFault_txClaimCur (s : State) : (countRxFault s).txClaimCur = s.txClaimCur := rfl
@[simp] theorem countRxFault_txReclaimCur (s : State) : (countRxFault s).txReclaimCur = s.txReclaimCur := rfl
@[simp] theorem countRxFault_txInflight (s : State) : (countRxFault s).txInflight = s.txInflight := rfl
@[simp] theorem countRxFault_rxCur (s : State) : (countRxFault s).rxCur = s.rxCur := rfl
@[simp] theorem countRxFault_rxFaultCount (s : State) : (countRxFault s).rxFaultCount = addCount s.cfg s.rxFaultCount 1 := rfl
@[simp] theorem countRxFault_errCount (s : State) : (countRxFault s).errCount = s.errCount := rfl
@[simp] theorem countRxFault_txReclaimedCount (s : State) : (countRxFault s).txReclaimedCount = s.txReclaimedCount := rfl
@[simp] theorem countRxFault_rxDropCount (s : State) : (countRxFault s).rxDropCount = s.rxDropCount := rfl
@[simp] theorem countRxFault_isrLatch (s : State) : (countRxFault s).isrLatch = s.isrLatch := rfl
@[simp] theorem countRxFault_online (s : State) : (countRxFault s).online = s.online := rfl
@[simp] theorem countRxFault_linkRawLast (s : State) : (countRxFault s).linkRawLast = s.linkRawLast := rfl
@[simp] theorem countRxFault_bound (s : State) : (countRxFault s).bound = s.bound := rfl
@[simp] theorem countRxFault_clientId (s : State) : (countRxFault s).clientId = s.clientId := rfl
@[simp] theorem countRxFault_life (s : State) : (countRxFault s).life = s.life := rfl
@[simp] theorem countRxFault_wstate (s : State) : (countRxFault s).wstate = s.wstate := rfl
@[simp] theorem countRxFault_wphase (s : State) : (countRxFault s).wphase = s.wphase := rfl
@[simp] theorem countRxFault_rxHold (s : State) : (countRxFault s).rxHold = s.rxHold := rfl
@[simp] theorem countRxFault_irqValid (s : State) : (countRxFault s).irqValid = s.irqValid := rfl
@[simp] theorem countRxFault_regionValid (s : State) : (countRxFault s).regionValid = s.regionValid := rfl
@[simp] theorem countRxFault_dmaStatus (s : State) : (countRxFault s).dmaStatus = s.dmaStatus := rfl
@[simp] theorem countRxFault_irqPending (s : State) : (countRxFault s).irqPending = s.irqPending := rfl
@[simp] theorem countRxFault_linkStatus (s : State) : (countRxFault s).linkStatus = s.linkStatus := rfl
@[simp] theorem countRxFault_macConfig (s : State) : (countRxFault s).macConfig = s.macConfig := rfl
@[simp] theorem countRxFault_result (s : State) : (countRxFault s).result = s.result := rfl
@[simp] theorem countRxFault_mem (s : State) : (countRxFault s).mem = s.mem := rfl
@[simp] theorem countRxFault_devTxCur (s : State) : (countRxFault s).devTxCur = s.devTxCur := rfl
@[simp] theorem countRxFault_devRxCur (s : State) : (countRxFault s).devRxCur = s.devRxCur := rfl
@[simp] theorem countRxFault_devQuiesced (s : State) : (countRxFault s).devQuiesced = s.devQuiesced := rfl
@[simp] theorem countRxFault_out (s : State) : (countRxFault s).out = s.out := rfl
@[simp] theorem countRxFault_wire (s : State) : (countRxFault s).wire = s.wire := rfl
@[simp] theorem countRxFault_cfg (s : State) : (countRxFault s).cfg = s.cfg := rfl
@[simp] theorem countRxFault_sched (s : State) : (countRxFault s).sched = s.sched := rfl
@[simp] theorem countRxFault_bus (s : State) : (countRxFault s).bus = s.bus := rfl
@[simp] theorem countRxFault_ret (s : State) : (countRxFault s).ret = s.ret := rfl
@[simp] theorem countRxFault_reapReturned (s : State) : (countRxFault s).reapReturned = s.reapReturned := rfl
@[simp] theorem countRxFault_inside (s : State) : (countRxFault s).inside = s.inside := rfl
@[simp] theorem countRxFault_drawCtr (s : State) : (countRxFault s).drawCtr = s.drawCtr := rfl

/-! ### countErr -/

@[simp] theorem countErr_txClaimCur (s : State) : (countErr s).txClaimCur = s.txClaimCur := rfl
@[simp] theorem countErr_txReclaimCur (s : State) : (countErr s).txReclaimCur = s.txReclaimCur := rfl
@[simp] theorem countErr_txInflight (s : State) : (countErr s).txInflight = s.txInflight := rfl
@[simp] theorem countErr_rxCur (s : State) : (countErr s).rxCur = s.rxCur := rfl
@[simp] theorem countErr_rxFaultCount (s : State) : (countErr s).rxFaultCount = s.rxFaultCount := rfl
@[simp] theorem countErr_errCount (s : State) : (countErr s).errCount = addCount s.cfg s.errCount 1 := rfl
@[simp] theorem countErr_txReclaimedCount (s : State) : (countErr s).txReclaimedCount = s.txReclaimedCount := rfl
@[simp] theorem countErr_rxDropCount (s : State) : (countErr s).rxDropCount = s.rxDropCount := rfl
@[simp] theorem countErr_isrLatch (s : State) : (countErr s).isrLatch = s.isrLatch := rfl
@[simp] theorem countErr_online (s : State) : (countErr s).online = s.online := rfl
@[simp] theorem countErr_linkRawLast (s : State) : (countErr s).linkRawLast = s.linkRawLast := rfl
@[simp] theorem countErr_bound (s : State) : (countErr s).bound = s.bound := rfl
@[simp] theorem countErr_clientId (s : State) : (countErr s).clientId = s.clientId := rfl
@[simp] theorem countErr_life (s : State) : (countErr s).life = s.life := rfl
@[simp] theorem countErr_wstate (s : State) : (countErr s).wstate = s.wstate := rfl
@[simp] theorem countErr_wphase (s : State) : (countErr s).wphase = s.wphase := rfl
@[simp] theorem countErr_rxHold (s : State) : (countErr s).rxHold = s.rxHold := rfl
@[simp] theorem countErr_irqValid (s : State) : (countErr s).irqValid = s.irqValid := rfl
@[simp] theorem countErr_regionValid (s : State) : (countErr s).regionValid = s.regionValid := rfl
@[simp] theorem countErr_dmaStatus (s : State) : (countErr s).dmaStatus = s.dmaStatus := rfl
@[simp] theorem countErr_irqPending (s : State) : (countErr s).irqPending = s.irqPending := rfl
@[simp] theorem countErr_linkStatus (s : State) : (countErr s).linkStatus = s.linkStatus := rfl
@[simp] theorem countErr_macConfig (s : State) : (countErr s).macConfig = s.macConfig := rfl
@[simp] theorem countErr_result (s : State) : (countErr s).result = s.result := rfl
@[simp] theorem countErr_mem (s : State) : (countErr s).mem = s.mem := rfl
@[simp] theorem countErr_devTxCur (s : State) : (countErr s).devTxCur = s.devTxCur := rfl
@[simp] theorem countErr_devRxCur (s : State) : (countErr s).devRxCur = s.devRxCur := rfl
@[simp] theorem countErr_devQuiesced (s : State) : (countErr s).devQuiesced = s.devQuiesced := rfl
@[simp] theorem countErr_out (s : State) : (countErr s).out = s.out := rfl
@[simp] theorem countErr_wire (s : State) : (countErr s).wire = s.wire := rfl
@[simp] theorem countErr_cfg (s : State) : (countErr s).cfg = s.cfg := rfl
@[simp] theorem countErr_sched (s : State) : (countErr s).sched = s.sched := rfl
@[simp] theorem countErr_bus (s : State) : (countErr s).bus = s.bus := rfl
@[simp] theorem countErr_ret (s : State) : (countErr s).ret = s.ret := rfl
@[simp] theorem countErr_reapReturned (s : State) : (countErr s).reapReturned = s.reapReturned := rfl
@[simp] theorem countErr_inside (s : State) : (countErr s).inside = s.inside := rfl
@[simp] theorem countErr_drawCtr (s : State) : (countErr s).drawCtr = s.drawCtr := rfl

/-! ### countRxDrop -/

@[simp] theorem countRxDrop_txClaimCur (s : State) : (countRxDrop s).txClaimCur = s.txClaimCur := rfl
@[simp] theorem countRxDrop_txReclaimCur (s : State) : (countRxDrop s).txReclaimCur = s.txReclaimCur := rfl
@[simp] theorem countRxDrop_txInflight (s : State) : (countRxDrop s).txInflight = s.txInflight := rfl
@[simp] theorem countRxDrop_rxCur (s : State) : (countRxDrop s).rxCur = s.rxCur := rfl
@[simp] theorem countRxDrop_rxFaultCount (s : State) : (countRxDrop s).rxFaultCount = s.rxFaultCount := rfl
@[simp] theorem countRxDrop_errCount (s : State) : (countRxDrop s).errCount = s.errCount := rfl
@[simp] theorem countRxDrop_txReclaimedCount (s : State) : (countRxDrop s).txReclaimedCount = s.txReclaimedCount := rfl
@[simp] theorem countRxDrop_rxDropCount (s : State) : (countRxDrop s).rxDropCount = addCount s.cfg s.rxDropCount 1 := rfl
@[simp] theorem countRxDrop_isrLatch (s : State) : (countRxDrop s).isrLatch = s.isrLatch := rfl
@[simp] theorem countRxDrop_online (s : State) : (countRxDrop s).online = s.online := rfl
@[simp] theorem countRxDrop_linkRawLast (s : State) : (countRxDrop s).linkRawLast = s.linkRawLast := rfl
@[simp] theorem countRxDrop_bound (s : State) : (countRxDrop s).bound = s.bound := rfl
@[simp] theorem countRxDrop_clientId (s : State) : (countRxDrop s).clientId = s.clientId := rfl
@[simp] theorem countRxDrop_life (s : State) : (countRxDrop s).life = s.life := rfl
@[simp] theorem countRxDrop_wstate (s : State) : (countRxDrop s).wstate = s.wstate := rfl
@[simp] theorem countRxDrop_wphase (s : State) : (countRxDrop s).wphase = s.wphase := rfl
@[simp] theorem countRxDrop_rxHold (s : State) : (countRxDrop s).rxHold = s.rxHold := rfl
@[simp] theorem countRxDrop_irqValid (s : State) : (countRxDrop s).irqValid = s.irqValid := rfl
@[simp] theorem countRxDrop_regionValid (s : State) : (countRxDrop s).regionValid = s.regionValid := rfl
@[simp] theorem countRxDrop_dmaStatus (s : State) : (countRxDrop s).dmaStatus = s.dmaStatus := rfl
@[simp] theorem countRxDrop_irqPending (s : State) : (countRxDrop s).irqPending = s.irqPending := rfl
@[simp] theorem countRxDrop_linkStatus (s : State) : (countRxDrop s).linkStatus = s.linkStatus := rfl
@[simp] theorem countRxDrop_macConfig (s : State) : (countRxDrop s).macConfig = s.macConfig := rfl
@[simp] theorem countRxDrop_result (s : State) : (countRxDrop s).result = s.result := rfl
@[simp] theorem countRxDrop_mem (s : State) : (countRxDrop s).mem = s.mem := rfl
@[simp] theorem countRxDrop_devTxCur (s : State) : (countRxDrop s).devTxCur = s.devTxCur := rfl
@[simp] theorem countRxDrop_devRxCur (s : State) : (countRxDrop s).devRxCur = s.devRxCur := rfl
@[simp] theorem countRxDrop_devQuiesced (s : State) : (countRxDrop s).devQuiesced = s.devQuiesced := rfl
@[simp] theorem countRxDrop_out (s : State) : (countRxDrop s).out = s.out := rfl
@[simp] theorem countRxDrop_wire (s : State) : (countRxDrop s).wire = s.wire := rfl
@[simp] theorem countRxDrop_cfg (s : State) : (countRxDrop s).cfg = s.cfg := rfl
@[simp] theorem countRxDrop_sched (s : State) : (countRxDrop s).sched = s.sched := rfl
@[simp] theorem countRxDrop_bus (s : State) : (countRxDrop s).bus = s.bus := rfl
@[simp] theorem countRxDrop_ret (s : State) : (countRxDrop s).ret = s.ret := rfl
@[simp] theorem countRxDrop_reapReturned (s : State) : (countRxDrop s).reapReturned = s.reapReturned := rfl
@[simp] theorem countRxDrop_inside (s : State) : (countRxDrop s).inside = s.inside := rfl
@[simp] theorem countRxDrop_drawCtr (s : State) : (countRxDrop s).drawCtr = s.drawCtr := rfl

/-! ### countReclaimed -/

@[simp] theorem countReclaimed_txClaimCur (n : Nat) (s : State) : (countReclaimed n s).txClaimCur = s.txClaimCur := rfl
@[simp] theorem countReclaimed_txReclaimCur (n : Nat) (s : State) : (countReclaimed n s).txReclaimCur = s.txReclaimCur := rfl
@[simp] theorem countReclaimed_txInflight (n : Nat) (s : State) : (countReclaimed n s).txInflight = s.txInflight := rfl
@[simp] theorem countReclaimed_rxCur (n : Nat) (s : State) : (countReclaimed n s).rxCur = s.rxCur := rfl
@[simp] theorem countReclaimed_rxFaultCount (n : Nat) (s : State) : (countReclaimed n s).rxFaultCount = s.rxFaultCount := rfl
@[simp] theorem countReclaimed_errCount (n : Nat) (s : State) : (countReclaimed n s).errCount = s.errCount := rfl
@[simp] theorem countReclaimed_txReclaimedCount (n : Nat) (s : State) : (countReclaimed n s).txReclaimedCount = addCount s.cfg s.txReclaimedCount n := rfl
@[simp] theorem countReclaimed_rxDropCount (n : Nat) (s : State) : (countReclaimed n s).rxDropCount = s.rxDropCount := rfl
@[simp] theorem countReclaimed_isrLatch (n : Nat) (s : State) : (countReclaimed n s).isrLatch = s.isrLatch := rfl
@[simp] theorem countReclaimed_online (n : Nat) (s : State) : (countReclaimed n s).online = s.online := rfl
@[simp] theorem countReclaimed_linkRawLast (n : Nat) (s : State) : (countReclaimed n s).linkRawLast = s.linkRawLast := rfl
@[simp] theorem countReclaimed_bound (n : Nat) (s : State) : (countReclaimed n s).bound = s.bound := rfl
@[simp] theorem countReclaimed_clientId (n : Nat) (s : State) : (countReclaimed n s).clientId = s.clientId := rfl
@[simp] theorem countReclaimed_life (n : Nat) (s : State) : (countReclaimed n s).life = s.life := rfl
@[simp] theorem countReclaimed_wstate (n : Nat) (s : State) : (countReclaimed n s).wstate = s.wstate := rfl
@[simp] theorem countReclaimed_wphase (n : Nat) (s : State) : (countReclaimed n s).wphase = s.wphase := rfl
@[simp] theorem countReclaimed_rxHold (n : Nat) (s : State) : (countReclaimed n s).rxHold = s.rxHold := rfl
@[simp] theorem countReclaimed_irqValid (n : Nat) (s : State) : (countReclaimed n s).irqValid = s.irqValid := rfl
@[simp] theorem countReclaimed_regionValid (n : Nat) (s : State) : (countReclaimed n s).regionValid = s.regionValid := rfl
@[simp] theorem countReclaimed_dmaStatus (n : Nat) (s : State) : (countReclaimed n s).dmaStatus = s.dmaStatus := rfl
@[simp] theorem countReclaimed_irqPending (n : Nat) (s : State) : (countReclaimed n s).irqPending = s.irqPending := rfl
@[simp] theorem countReclaimed_linkStatus (n : Nat) (s : State) : (countReclaimed n s).linkStatus = s.linkStatus := rfl
@[simp] theorem countReclaimed_macConfig (n : Nat) (s : State) : (countReclaimed n s).macConfig = s.macConfig := rfl
@[simp] theorem countReclaimed_result (n : Nat) (s : State) : (countReclaimed n s).result = s.result := rfl
@[simp] theorem countReclaimed_mem (n : Nat) (s : State) : (countReclaimed n s).mem = s.mem := rfl
@[simp] theorem countReclaimed_devTxCur (n : Nat) (s : State) : (countReclaimed n s).devTxCur = s.devTxCur := rfl
@[simp] theorem countReclaimed_devRxCur (n : Nat) (s : State) : (countReclaimed n s).devRxCur = s.devRxCur := rfl
@[simp] theorem countReclaimed_devQuiesced (n : Nat) (s : State) : (countReclaimed n s).devQuiesced = s.devQuiesced := rfl
@[simp] theorem countReclaimed_out (n : Nat) (s : State) : (countReclaimed n s).out = s.out := rfl
@[simp] theorem countReclaimed_wire (n : Nat) (s : State) : (countReclaimed n s).wire = s.wire := rfl
@[simp] theorem countReclaimed_cfg (n : Nat) (s : State) : (countReclaimed n s).cfg = s.cfg := rfl
@[simp] theorem countReclaimed_sched (n : Nat) (s : State) : (countReclaimed n s).sched = s.sched := rfl
@[simp] theorem countReclaimed_bus (n : Nat) (s : State) : (countReclaimed n s).bus = s.bus := rfl
@[simp] theorem countReclaimed_ret (n : Nat) (s : State) : (countReclaimed n s).ret = s.ret := rfl
@[simp] theorem countReclaimed_reapReturned (n : Nat) (s : State) : (countReclaimed n s).reapReturned = s.reapReturned := rfl
@[simp] theorem countReclaimed_inside (n : Nat) (s : State) : (countReclaimed n s).inside = s.inside := rfl
@[simp] theorem countReclaimed_drawCtr (n : Nat) (s : State) : (countReclaimed n s).drawCtr = s.drawCtr := rfl

/-! ### macSetBits -/

@[simp] theorem macSetBits_txClaimCur (m : Word) (s : State) : (macSetBits m s).txClaimCur = s.txClaimCur := rfl
@[simp] theorem macSetBits_txReclaimCur (m : Word) (s : State) : (macSetBits m s).txReclaimCur = s.txReclaimCur := rfl
@[simp] theorem macSetBits_txInflight (m : Word) (s : State) : (macSetBits m s).txInflight = s.txInflight := rfl
@[simp] theorem macSetBits_rxCur (m : Word) (s : State) : (macSetBits m s).rxCur = s.rxCur := rfl
@[simp] theorem macSetBits_rxFaultCount (m : Word) (s : State) : (macSetBits m s).rxFaultCount = s.rxFaultCount := rfl
@[simp] theorem macSetBits_errCount (m : Word) (s : State) : (macSetBits m s).errCount = s.errCount := rfl
@[simp] theorem macSetBits_txReclaimedCount (m : Word) (s : State) : (macSetBits m s).txReclaimedCount = s.txReclaimedCount := rfl
@[simp] theorem macSetBits_rxDropCount (m : Word) (s : State) : (macSetBits m s).rxDropCount = s.rxDropCount := rfl
@[simp] theorem macSetBits_isrLatch (m : Word) (s : State) : (macSetBits m s).isrLatch = s.isrLatch := rfl
@[simp] theorem macSetBits_online (m : Word) (s : State) : (macSetBits m s).online = s.online := rfl
@[simp] theorem macSetBits_linkRawLast (m : Word) (s : State) : (macSetBits m s).linkRawLast = s.linkRawLast := rfl
@[simp] theorem macSetBits_bound (m : Word) (s : State) : (macSetBits m s).bound = s.bound := rfl
@[simp] theorem macSetBits_clientId (m : Word) (s : State) : (macSetBits m s).clientId = s.clientId := rfl
@[simp] theorem macSetBits_life (m : Word) (s : State) : (macSetBits m s).life = s.life := rfl
@[simp] theorem macSetBits_wstate (m : Word) (s : State) : (macSetBits m s).wstate = s.wstate := rfl
@[simp] theorem macSetBits_wphase (m : Word) (s : State) : (macSetBits m s).wphase = s.wphase := rfl
@[simp] theorem macSetBits_rxHold (m : Word) (s : State) : (macSetBits m s).rxHold = s.rxHold := rfl
@[simp] theorem macSetBits_irqValid (m : Word) (s : State) : (macSetBits m s).irqValid = s.irqValid := rfl
@[simp] theorem macSetBits_regionValid (m : Word) (s : State) : (macSetBits m s).regionValid = s.regionValid := rfl
@[simp] theorem macSetBits_dmaStatus (m : Word) (s : State) : (macSetBits m s).dmaStatus = s.dmaStatus := rfl
@[simp] theorem macSetBits_irqPending (m : Word) (s : State) : (macSetBits m s).irqPending = s.irqPending := rfl
@[simp] theorem macSetBits_linkStatus (m : Word) (s : State) : (macSetBits m s).linkStatus = s.linkStatus := rfl
@[simp] theorem macSetBits_macConfig (m : Word) (s : State) : (macSetBits m s).macConfig = s.macConfig ||| m := rfl
@[simp] theorem macSetBits_result (m : Word) (s : State) : (macSetBits m s).result = s.result := rfl
@[simp] theorem macSetBits_mem (m : Word) (s : State) : (macSetBits m s).mem = s.mem := rfl
@[simp] theorem macSetBits_devTxCur (m : Word) (s : State) : (macSetBits m s).devTxCur = s.devTxCur := rfl
@[simp] theorem macSetBits_devRxCur (m : Word) (s : State) : (macSetBits m s).devRxCur = s.devRxCur := rfl
@[simp] theorem macSetBits_devQuiesced (m : Word) (s : State) : (macSetBits m s).devQuiesced = s.devQuiesced := rfl
@[simp] theorem macSetBits_out (m : Word) (s : State) : (macSetBits m s).out = s.out := rfl
@[simp] theorem macSetBits_wire (m : Word) (s : State) : (macSetBits m s).wire = s.wire := rfl
@[simp] theorem macSetBits_cfg (m : Word) (s : State) : (macSetBits m s).cfg = s.cfg := rfl
@[simp] theorem macSetBits_sched (m : Word) (s : State) : (macSetBits m s).sched = s.sched := rfl
@[simp] theorem macSetBits_bus (m : Word) (s : State) : (macSetBits m s).bus = s.bus := rfl
@[simp] theorem macSetBits_ret (m : Word) (s : State) : (macSetBits m s).ret = s.ret := rfl
@[simp] theorem macSetBits_reapReturned (m : Word) (s : State) : (macSetBits m s).reapReturned = s.reapReturned := rfl
@[simp] theorem macSetBits_inside (m : Word) (s : State) : (macSetBits m s).inside = s.inside := rfl
@[simp] theorem macSetBits_drawCtr (m : Word) (s : State) : (macSetBits m s).drawCtr = s.drawCtr := rfl

/-! ### macClearBits -/

@[simp] theorem macClearBits_txClaimCur (m : Word) (s : State) : (macClearBits m s).txClaimCur = s.txClaimCur := rfl
@[simp] theorem macClearBits_txReclaimCur (m : Word) (s : State) : (macClearBits m s).txReclaimCur = s.txReclaimCur := rfl
@[simp] theorem macClearBits_txInflight (m : Word) (s : State) : (macClearBits m s).txInflight = s.txInflight := rfl
@[simp] theorem macClearBits_rxCur (m : Word) (s : State) : (macClearBits m s).rxCur = s.rxCur := rfl
@[simp] theorem macClearBits_rxFaultCount (m : Word) (s : State) : (macClearBits m s).rxFaultCount = s.rxFaultCount := rfl
@[simp] theorem macClearBits_errCount (m : Word) (s : State) : (macClearBits m s).errCount = s.errCount := rfl
@[simp] theorem macClearBits_txReclaimedCount (m : Word) (s : State) : (macClearBits m s).txReclaimedCount = s.txReclaimedCount := rfl
@[simp] theorem macClearBits_rxDropCount (m : Word) (s : State) : (macClearBits m s).rxDropCount = s.rxDropCount := rfl
@[simp] theorem macClearBits_isrLatch (m : Word) (s : State) : (macClearBits m s).isrLatch = s.isrLatch := rfl
@[simp] theorem macClearBits_online (m : Word) (s : State) : (macClearBits m s).online = s.online := rfl
@[simp] theorem macClearBits_linkRawLast (m : Word) (s : State) : (macClearBits m s).linkRawLast = s.linkRawLast := rfl
@[simp] theorem macClearBits_bound (m : Word) (s : State) : (macClearBits m s).bound = s.bound := rfl
@[simp] theorem macClearBits_clientId (m : Word) (s : State) : (macClearBits m s).clientId = s.clientId := rfl
@[simp] theorem macClearBits_life (m : Word) (s : State) : (macClearBits m s).life = s.life := rfl
@[simp] theorem macClearBits_wstate (m : Word) (s : State) : (macClearBits m s).wstate = s.wstate := rfl
@[simp] theorem macClearBits_wphase (m : Word) (s : State) : (macClearBits m s).wphase = s.wphase := rfl
@[simp] theorem macClearBits_rxHold (m : Word) (s : State) : (macClearBits m s).rxHold = s.rxHold := rfl
@[simp] theorem macClearBits_irqValid (m : Word) (s : State) : (macClearBits m s).irqValid = s.irqValid := rfl
@[simp] theorem macClearBits_regionValid (m : Word) (s : State) : (macClearBits m s).regionValid = s.regionValid := rfl
@[simp] theorem macClearBits_dmaStatus (m : Word) (s : State) : (macClearBits m s).dmaStatus = s.dmaStatus := rfl
@[simp] theorem macClearBits_irqPending (m : Word) (s : State) : (macClearBits m s).irqPending = s.irqPending := rfl
@[simp] theorem macClearBits_linkStatus (m : Word) (s : State) : (macClearBits m s).linkStatus = s.linkStatus := rfl
@[simp] theorem macClearBits_macConfig (m : Word) (s : State) : (macClearBits m s).macConfig = s.macConfig &&& ~~~m := rfl
@[simp] theorem macClearBits_result (m : Word) (s : State) : (macClearBits m s).result = s.result := rfl
@[simp] theorem macClearBits_mem (m : Word) (s : State) : (macClearBits m s).mem = s.mem := rfl
@[simp] theorem macClearBits_devTxCur (m : Word) (s : State) : (macClearBits m s).devTxCur = s.devTxCur := rfl
@[simp] theorem macClearBits_devRxCur (m : Word) (s : State) : (macClearBits m s).devRxCur = s.devRxCur := rfl
@[simp] theorem macClearBits_devQuiesced (m : Word) (s : State) : (macClearBits m s).devQuiesced = s.devQuiesced := rfl
@[simp] theorem macClearBits_out (m : Word) (s : State) : (macClearBits m s).out = s.out := rfl
@[simp] theorem macClearBits_wire (m : Word) (s : State) : (macClearBits m s).wire = s.wire := rfl
@[simp] theorem macClearBits_cfg (m : Word) (s : State) : (macClearBits m s).cfg = s.cfg := rfl
@[simp] theorem macClearBits_sched (m : Word) (s : State) : (macClearBits m s).sched = s.sched := rfl
@[simp] theorem macClearBits_bus (m : Word) (s : State) : (macClearBits m s).bus = s.bus := rfl
@[simp] theorem macClearBits_ret (m : Word) (s : State) : (macClearBits m s).ret = s.ret := rfl
@[simp] theorem macClearBits_reapReturned (m : Word) (s : State) : (macClearBits m s).reapReturned = s.reapReturned := rfl
@[simp] theorem macClearBits_inside (m : Word) (s : State) : (macClearBits m s).inside = s.inside := rfl
@[simp] theorem macClearBits_drawCtr (m : Word) (s : State) : (macClearBits m s).drawCtr = s.drawCtr := rfl

/-! ### enterPass -/

@[simp] theorem enterPass_txClaimCur (s : State) : (enterPass s).txClaimCur = s.txClaimCur := rfl
@[simp] theorem enterPass_txReclaimCur (s : State) : (enterPass s).txReclaimCur = s.txReclaimCur := rfl
@[simp] theorem enterPass_txInflight (s : State) : (enterPass s).txInflight = s.txInflight := rfl
@[simp] theorem enterPass_rxCur (s : State) : (enterPass s).rxCur = s.rxCur := rfl
@[simp] theorem enterPass_rxFaultCount (s : State) : (enterPass s).rxFaultCount = s.rxFaultCount := rfl
@[simp] theorem enterPass_errCount (s : State) : (enterPass s).errCount = s.errCount := rfl
@[simp] theorem enterPass_txReclaimedCount (s : State) : (enterPass s).txReclaimedCount = s.txReclaimedCount := rfl
@[simp] theorem enterPass_rxDropCount (s : State) : (enterPass s).rxDropCount = s.rxDropCount := rfl
@[simp] theorem enterPass_isrLatch (s : State) : (enterPass s).isrLatch = s.isrLatch := rfl
@[simp] theorem enterPass_online (s : State) : (enterPass s).online = s.online := rfl
@[simp] theorem enterPass_linkRawLast (s : State) : (enterPass s).linkRawLast = s.linkRawLast := rfl
@[simp] theorem enterPass_bound (s : State) : (enterPass s).bound = s.bound := rfl
@[simp] theorem enterPass_clientId (s : State) : (enterPass s).clientId = s.clientId := rfl
@[simp] theorem enterPass_life (s : State) : (enterPass s).life = s.life := rfl
@[simp] theorem enterPass_wstate (s : State) : (enterPass s).wstate = .processing := rfl
@[simp] theorem enterPass_wphase (s : State) : (enterPass s).wphase = .rdclr := rfl
@[simp] theorem enterPass_rxHold (s : State) : (enterPass s).rxHold = s.rxHold := rfl
@[simp] theorem enterPass_irqValid (s : State) : (enterPass s).irqValid = s.irqValid := rfl
@[simp] theorem enterPass_regionValid (s : State) : (enterPass s).regionValid = s.regionValid := rfl
@[simp] theorem enterPass_dmaStatus (s : State) : (enterPass s).dmaStatus = s.dmaStatus := rfl
@[simp] theorem enterPass_irqPending (s : State) : (enterPass s).irqPending = false := rfl
@[simp] theorem enterPass_linkStatus (s : State) : (enterPass s).linkStatus = s.linkStatus := rfl
@[simp] theorem enterPass_macConfig (s : State) : (enterPass s).macConfig = s.macConfig := rfl
@[simp] theorem enterPass_result (s : State) : (enterPass s).result = s.result := rfl
@[simp] theorem enterPass_mem (s : State) : (enterPass s).mem = s.mem := rfl
@[simp] theorem enterPass_devTxCur (s : State) : (enterPass s).devTxCur = s.devTxCur := rfl
@[simp] theorem enterPass_devRxCur (s : State) : (enterPass s).devRxCur = s.devRxCur := rfl
@[simp] theorem enterPass_devQuiesced (s : State) : (enterPass s).devQuiesced = s.devQuiesced := rfl
@[simp] theorem enterPass_out (s : State) : (enterPass s).out = s.out := rfl
@[simp] theorem enterPass_wire (s : State) : (enterPass s).wire = s.wire := rfl
@[simp] theorem enterPass_cfg (s : State) : (enterPass s).cfg = s.cfg := rfl
@[simp] theorem enterPass_sched (s : State) : (enterPass s).sched = s.sched := rfl
@[simp] theorem enterPass_bus (s : State) : (enterPass s).bus = s.bus := rfl
@[simp] theorem enterPass_ret (s : State) : (enterPass s).ret = s.ret := rfl
@[simp] theorem enterPass_reapReturned (s : State) : (enterPass s).reapReturned = s.reapReturned := rfl
@[simp] theorem enterPass_inside (s : State) : (enterPass s).inside = s.inside := rfl
@[simp] theorem enterPass_drawCtr (s : State) : (enterPass s).drawCtr = s.drawCtr := rfl

/-! ### statusReadClear -/

@[simp] theorem statusReadClear_txClaimCur (s : State) : (statusReadClear s).txClaimCur = s.txClaimCur := rfl
@[simp] theorem statusReadClear_txReclaimCur (s : State) : (statusReadClear s).txReclaimCur = s.txReclaimCur := rfl
@[simp] theorem statusReadClear_txInflight (s : State) : (statusReadClear s).txInflight = s.txInflight := rfl
@[simp] theorem statusReadClear_rxCur (s : State) : (statusReadClear s).rxCur = s.rxCur := rfl
@[simp] theorem statusReadClear_rxFaultCount (s : State) : (statusReadClear s).rxFaultCount = s.rxFaultCount := rfl
@[simp] theorem statusReadClear_errCount (s : State) : (statusReadClear s).errCount = s.errCount := rfl
@[simp] theorem statusReadClear_txReclaimedCount (s : State) : (statusReadClear s).txReclaimedCount = s.txReclaimedCount := rfl
@[simp] theorem statusReadClear_rxDropCount (s : State) : (statusReadClear s).rxDropCount = s.rxDropCount := rfl
@[simp] theorem statusReadClear_isrLatch (s : State) : (statusReadClear s).isrLatch = s.dmaStatus := rfl
@[simp] theorem statusReadClear_online (s : State) : (statusReadClear s).online = s.online := rfl
@[simp] theorem statusReadClear_linkRawLast (s : State) : (statusReadClear s).linkRawLast = s.linkRawLast := rfl
@[simp] theorem statusReadClear_bound (s : State) : (statusReadClear s).bound = s.bound := rfl
@[simp] theorem statusReadClear_clientId (s : State) : (statusReadClear s).clientId = s.clientId := rfl
@[simp] theorem statusReadClear_life (s : State) : (statusReadClear s).life = s.life := rfl
@[simp] theorem statusReadClear_wstate (s : State) : (statusReadClear s).wstate = s.wstate := rfl
@[simp] theorem statusReadClear_wphase (s : State) : (statusReadClear s).wphase = s.wphase := rfl
@[simp] theorem statusReadClear_rxHold (s : State) : (statusReadClear s).rxHold = s.rxHold := rfl
@[simp] theorem statusReadClear_irqValid (s : State) : (statusReadClear s).irqValid = s.irqValid := rfl
@[simp] theorem statusReadClear_regionValid (s : State) : (statusReadClear s).regionValid = s.regionValid := rfl
@[simp] theorem statusReadClear_dmaStatus (s : State) : (statusReadClear s).dmaStatus = s.dmaStatus &&& ~~~s.dmaStatus := rfl
@[simp] theorem statusReadClear_irqPending (s : State) : (statusReadClear s).irqPending = s.irqPending := rfl
@[simp] theorem statusReadClear_linkStatus (s : State) : (statusReadClear s).linkStatus = s.linkStatus := rfl
@[simp] theorem statusReadClear_macConfig (s : State) : (statusReadClear s).macConfig = s.macConfig := rfl
@[simp] theorem statusReadClear_result (s : State) : (statusReadClear s).result = s.result := rfl
@[simp] theorem statusReadClear_mem (s : State) : (statusReadClear s).mem = s.mem := rfl
@[simp] theorem statusReadClear_devTxCur (s : State) : (statusReadClear s).devTxCur = s.devTxCur := rfl
@[simp] theorem statusReadClear_devRxCur (s : State) : (statusReadClear s).devRxCur = s.devRxCur := rfl
@[simp] theorem statusReadClear_devQuiesced (s : State) : (statusReadClear s).devQuiesced = s.devQuiesced := rfl
@[simp] theorem statusReadClear_out (s : State) : (statusReadClear s).out = s.out := rfl
@[simp] theorem statusReadClear_wire (s : State) : (statusReadClear s).wire = s.wire := rfl
@[simp] theorem statusReadClear_cfg (s : State) : (statusReadClear s).cfg = s.cfg := rfl
@[simp] theorem statusReadClear_sched (s : State) : (statusReadClear s).sched = s.sched := rfl
@[simp] theorem statusReadClear_bus (s : State) : (statusReadClear s).bus = s.bus := rfl
@[simp] theorem statusReadClear_ret (s : State) : (statusReadClear s).ret = s.ret := rfl
@[simp] theorem statusReadClear_reapReturned (s : State) : (statusReadClear s).reapReturned = s.reapReturned := rfl
@[simp] theorem statusReadClear_inside (s : State) : (statusReadClear s).inside = s.inside := rfl
@[simp] theorem statusReadClear_drawCtr (s : State) : (statusReadClear s).drawCtr = s.drawCtr := rfl

/-! ### returnFromPass -/

@[simp] theorem returnFromPass_txClaimCur (s : State) : (returnFromPass s).txClaimCur = s.txClaimCur := rfl
@[simp] theorem returnFromPass_txReclaimCur (s : State) : (returnFromPass s).txReclaimCur = s.txReclaimCur := rfl
@[simp] theorem returnFromPass_txInflight (s : State) : (returnFromPass s).txInflight = s.txInflight := rfl
@[simp] theorem returnFromPass_rxCur (s : State) : (returnFromPass s).rxCur = s.rxCur := rfl
@[simp] theorem returnFromPass_rxFaultCount (s : State) : (returnFromPass s).rxFaultCount = s.rxFaultCount := rfl
@[simp] theorem returnFromPass_errCount (s : State) : (returnFromPass s).errCount = s.errCount := rfl
@[simp] theorem returnFromPass_txReclaimedCount (s : State) : (returnFromPass s).txReclaimedCount = s.txReclaimedCount := rfl
@[simp] theorem returnFromPass_rxDropCount (s : State) : (returnFromPass s).rxDropCount = s.rxDropCount := rfl
@[simp] theorem returnFromPass_isrLatch (s : State) : (returnFromPass s).isrLatch = s.isrLatch := rfl
@[simp] theorem returnFromPass_online (s : State) : (returnFromPass s).online = s.online := rfl
@[simp] theorem returnFromPass_linkRawLast (s : State) : (returnFromPass s).linkRawLast = s.linkRawLast := rfl
@[simp] theorem returnFromPass_bound (s : State) : (returnFromPass s).bound = s.bound := rfl
@[simp] theorem returnFromPass_clientId (s : State) : (returnFromPass s).clientId = s.clientId := rfl
@[simp] theorem returnFromPass_life (s : State) : (returnFromPass s).life = s.life := rfl
@[simp] theorem returnFromPass_wstate (s : State) : (returnFromPass s).wstate = .waiting := rfl
@[simp] theorem returnFromPass_wphase (s : State) : (returnFromPass s).wphase = .rdclr := rfl
@[simp] theorem returnFromPass_rxHold (s : State) : (returnFromPass s).rxHold = s.rxHold := rfl
@[simp] theorem returnFromPass_irqValid (s : State) : (returnFromPass s).irqValid = s.irqValid := rfl
@[simp] theorem returnFromPass_regionValid (s : State) : (returnFromPass s).regionValid = s.regionValid := rfl
@[simp] theorem returnFromPass_dmaStatus (s : State) : (returnFromPass s).dmaStatus = s.dmaStatus := rfl
@[simp] theorem returnFromPass_irqPending (s : State) : (returnFromPass s).irqPending = s.irqPending := rfl
@[simp] theorem returnFromPass_linkStatus (s : State) : (returnFromPass s).linkStatus = s.linkStatus := rfl
@[simp] theorem returnFromPass_macConfig (s : State) : (returnFromPass s).macConfig = s.macConfig := rfl
@[simp] theorem returnFromPass_result (s : State) : (returnFromPass s).result = s.result := rfl
@[simp] theorem returnFromPass_mem (s : State) : (returnFromPass s).mem = s.mem := rfl
@[simp] theorem returnFromPass_devTxCur (s : State) : (returnFromPass s).devTxCur = s.devTxCur := rfl
@[simp] theorem returnFromPass_devRxCur (s : State) : (returnFromPass s).devRxCur = s.devRxCur := rfl
@[simp] theorem returnFromPass_devQuiesced (s : State) : (returnFromPass s).devQuiesced = s.devQuiesced := rfl
@[simp] theorem returnFromPass_out (s : State) : (returnFromPass s).out = s.out := rfl
@[simp] theorem returnFromPass_wire (s : State) : (returnFromPass s).wire = s.wire := rfl
@[simp] theorem returnFromPass_cfg (s : State) : (returnFromPass s).cfg = s.cfg := rfl
@[simp] theorem returnFromPass_sched (s : State) : (returnFromPass s).sched = s.sched := rfl
@[simp] theorem returnFromPass_bus (s : State) : (returnFromPass s).bus = s.bus := rfl
@[simp] theorem returnFromPass_ret (s : State) : (returnFromPass s).ret = s.ret := rfl
@[simp] theorem returnFromPass_reapReturned (s : State) : (returnFromPass s).reapReturned = s.reapReturned := rfl
@[simp] theorem returnFromPass_inside (s : State) : (returnFromPass s).inside = s.inside := rfl
@[simp] theorem returnFromPass_drawCtr (s : State) : (returnFromPass s).drawCtr = s.drawCtr := rfl

/-! ### toPhase -/

@[simp] theorem toPhase_txClaimCur (p : WPhase) (s : State) : (toPhase p s).txClaimCur = s.txClaimCur := rfl
@[simp] theorem toPhase_txReclaimCur (p : WPhase) (s : State) : (toPhase p s).txReclaimCur = s.txReclaimCur := rfl
@[simp] theorem toPhase_txInflight (p : WPhase) (s : State) : (toPhase p s).txInflight = s.txInflight := rfl
@[simp] theorem toPhase_rxCur (p : WPhase) (s : State) : (toPhase p s).rxCur = s.rxCur := rfl
@[simp] theorem toPhase_rxFaultCount (p : WPhase) (s : State) : (toPhase p s).rxFaultCount = s.rxFaultCount := rfl
@[simp] theorem toPhase_errCount (p : WPhase) (s : State) : (toPhase p s).errCount = s.errCount := rfl
@[simp] theorem toPhase_txReclaimedCount (p : WPhase) (s : State) : (toPhase p s).txReclaimedCount = s.txReclaimedCount := rfl
@[simp] theorem toPhase_rxDropCount (p : WPhase) (s : State) : (toPhase p s).rxDropCount = s.rxDropCount := rfl
@[simp] theorem toPhase_isrLatch (p : WPhase) (s : State) : (toPhase p s).isrLatch = s.isrLatch := rfl
@[simp] theorem toPhase_online (p : WPhase) (s : State) : (toPhase p s).online = s.online := rfl
@[simp] theorem toPhase_linkRawLast (p : WPhase) (s : State) : (toPhase p s).linkRawLast = s.linkRawLast := rfl
@[simp] theorem toPhase_bound (p : WPhase) (s : State) : (toPhase p s).bound = s.bound := rfl
@[simp] theorem toPhase_clientId (p : WPhase) (s : State) : (toPhase p s).clientId = s.clientId := rfl
@[simp] theorem toPhase_life (p : WPhase) (s : State) : (toPhase p s).life = s.life := rfl
@[simp] theorem toPhase_wstate (p : WPhase) (s : State) : (toPhase p s).wstate = s.wstate := rfl
@[simp] theorem toPhase_wphase (p : WPhase) (s : State) : (toPhase p s).wphase = p := rfl
@[simp] theorem toPhase_rxHold (p : WPhase) (s : State) : (toPhase p s).rxHold = s.rxHold := rfl
@[simp] theorem toPhase_irqValid (p : WPhase) (s : State) : (toPhase p s).irqValid = s.irqValid := rfl
@[simp] theorem toPhase_regionValid (p : WPhase) (s : State) : (toPhase p s).regionValid = s.regionValid := rfl
@[simp] theorem toPhase_dmaStatus (p : WPhase) (s : State) : (toPhase p s).dmaStatus = s.dmaStatus := rfl
@[simp] theorem toPhase_irqPending (p : WPhase) (s : State) : (toPhase p s).irqPending = s.irqPending := rfl
@[simp] theorem toPhase_linkStatus (p : WPhase) (s : State) : (toPhase p s).linkStatus = s.linkStatus := rfl
@[simp] theorem toPhase_macConfig (p : WPhase) (s : State) : (toPhase p s).macConfig = s.macConfig := rfl
@[simp] theorem toPhase_result (p : WPhase) (s : State) : (toPhase p s).result = s.result := rfl
@[simp] theorem toPhase_mem (p : WPhase) (s : State) : (toPhase p s).mem = s.mem := rfl
@[simp] theorem toPhase_devTxCur (p : WPhase) (s : State) : (toPhase p s).devTxCur = s.devTxCur := rfl
@[simp] theorem toPhase_devRxCur (p : WPhase) (s : State) : (toPhase p s).devRxCur = s.devRxCur := rfl
@[simp] theorem toPhase_devQuiesced (p : WPhase) (s : State) : (toPhase p s).devQuiesced = s.devQuiesced := rfl
@[simp] theorem toPhase_out (p : WPhase) (s : State) : (toPhase p s).out = s.out := rfl
@[simp] theorem toPhase_wire (p : WPhase) (s : State) : (toPhase p s).wire = s.wire := rfl
@[simp] theorem toPhase_cfg (p : WPhase) (s : State) : (toPhase p s).cfg = s.cfg := rfl
@[simp] theorem toPhase_sched (p : WPhase) (s : State) : (toPhase p s).sched = s.sched := rfl
@[simp] theorem toPhase_bus (p : WPhase) (s : State) : (toPhase p s).bus = s.bus := rfl
@[simp] theorem toPhase_ret (p : WPhase) (s : State) : (toPhase p s).ret = s.ret := rfl
@[simp] theorem toPhase_reapReturned (p : WPhase) (s : State) : (toPhase p s).reapReturned = s.reapReturned := rfl
@[simp] theorem toPhase_inside (p : WPhase) (s : State) : (toPhase p s).inside = s.inside := rfl
@[simp] theorem toPhase_drawCtr (p : WPhase) (s : State) : (toPhase p s).drawCtr = s.drawCtr := rfl

/-! ### startEngine -/

@[simp] theorem startEngine_txClaimCur (s : State) : (startEngine s).txClaimCur = s.txClaimCur := rfl
@[simp] theorem startEngine_txReclaimCur (s : State) : (startEngine s).txReclaimCur = s.txReclaimCur := rfl
@[simp] theorem startEngine_txInflight (s : State) : (startEngine s).txInflight = s.txInflight := rfl
@[simp] theorem startEngine_rxCur (s : State) : (startEngine s).rxCur = s.rxCur := rfl
@[simp] theorem startEngine_rxFaultCount (s : State) : (startEngine s).rxFaultCount = s.rxFaultCount := rfl
@[simp] theorem startEngine_errCount (s : State) : (startEngine s).errCount = s.errCount := rfl
@[simp] theorem startEngine_txReclaimedCount (s : State) : (startEngine s).txReclaimedCount = s.txReclaimedCount := rfl
@[simp] theorem startEngine_rxDropCount (s : State) : (startEngine s).rxDropCount = s.rxDropCount := rfl
@[simp] theorem startEngine_isrLatch (s : State) : (startEngine s).isrLatch = s.isrLatch := rfl
@[simp] theorem startEngine_online (s : State) : (startEngine s).online = s.online := rfl
@[simp] theorem startEngine_linkRawLast (s : State) : (startEngine s).linkRawLast = s.linkRawLast := rfl
@[simp] theorem startEngine_bound (s : State) : (startEngine s).bound = s.bound := rfl
@[simp] theorem startEngine_clientId (s : State) : (startEngine s).clientId = s.clientId := rfl
@[simp] theorem startEngine_life (s : State) : (startEngine s).life = .running := rfl
@[simp] theorem startEngine_wstate (s : State) : (startEngine s).wstate = .waiting := rfl
@[simp] theorem startEngine_wphase (s : State) : (startEngine s).wphase = s.wphase := rfl
@[simp] theorem startEngine_rxHold (s : State) : (startEngine s).rxHold = s.rxHold := rfl
@[simp] theorem startEngine_irqValid (s : State) : (startEngine s).irqValid = true := rfl
@[simp] theorem startEngine_regionValid (s : State) : (startEngine s).regionValid = s.regionValid := rfl
@[simp] theorem startEngine_dmaStatus (s : State) : (startEngine s).dmaStatus = s.dmaStatus := rfl
@[simp] theorem startEngine_irqPending (s : State) : (startEngine s).irqPending = s.irqPending := rfl
@[simp] theorem startEngine_linkStatus (s : State) : (startEngine s).linkStatus = s.linkStatus := rfl
@[simp] theorem startEngine_macConfig (s : State) : (startEngine s).macConfig = s.macConfig := rfl
@[simp] theorem startEngine_result (s : State) : (startEngine s).result = s.result := rfl
@[simp] theorem startEngine_mem (s : State) : (startEngine s).mem = s.mem := rfl
@[simp] theorem startEngine_devTxCur (s : State) : (startEngine s).devTxCur = s.devTxCur := rfl
@[simp] theorem startEngine_devRxCur (s : State) : (startEngine s).devRxCur = s.devRxCur := rfl
@[simp] theorem startEngine_devQuiesced (s : State) : (startEngine s).devQuiesced = s.devQuiesced := rfl
@[simp] theorem startEngine_out (s : State) : (startEngine s).out = s.out := rfl
@[simp] theorem startEngine_wire (s : State) : (startEngine s).wire = s.wire := rfl
@[simp] theorem startEngine_cfg (s : State) : (startEngine s).cfg = s.cfg := rfl
@[simp] theorem startEngine_sched (s : State) : (startEngine s).sched = s.sched := rfl
@[simp] theorem startEngine_bus (s : State) : (startEngine s).bus = s.bus := rfl
@[simp] theorem startEngine_ret (s : State) : (startEngine s).ret = s.ret := rfl
@[simp] theorem startEngine_reapReturned (s : State) : (startEngine s).reapReturned = s.reapReturned := rfl
@[simp] theorem startEngine_inside (s : State) : (startEngine s).inside = s.inside := rfl
@[simp] theorem startEngine_drawCtr (s : State) : (startEngine s).drawCtr = s.drawCtr := rfl

/-! ### pointDevice -/

@[simp] theorem pointDevice_txClaimCur (s : State) : (pointDevice s).txClaimCur = s.txClaimCur := rfl
@[simp] theorem pointDevice_txReclaimCur (s : State) : (pointDevice s).txReclaimCur = s.txReclaimCur := rfl
@[simp] theorem pointDevice_txInflight (s : State) : (pointDevice s).txInflight = s.txInflight := rfl
@[simp] theorem pointDevice_rxCur (s : State) : (pointDevice s).rxCur = s.rxCur := rfl
@[simp] theorem pointDevice_rxFaultCount (s : State) : (pointDevice s).rxFaultCount = s.rxFaultCount := rfl
@[simp] theorem pointDevice_errCount (s : State) : (pointDevice s).errCount = s.errCount := rfl
@[simp] theorem pointDevice_txReclaimedCount (s : State) : (pointDevice s).txReclaimedCount = s.txReclaimedCount := rfl
@[simp] theorem pointDevice_rxDropCount (s : State) : (pointDevice s).rxDropCount = s.rxDropCount := rfl
@[simp] theorem pointDevice_isrLatch (s : State) : (pointDevice s).isrLatch = s.isrLatch := rfl
@[simp] theorem pointDevice_online (s : State) : (pointDevice s).online = s.online := rfl
@[simp] theorem pointDevice_linkRawLast (s : State) : (pointDevice s).linkRawLast = s.linkRawLast := rfl
@[simp] theorem pointDevice_bound (s : State) : (pointDevice s).bound = s.bound := rfl
@[simp] theorem pointDevice_clientId (s : State) : (pointDevice s).clientId = s.clientId := rfl
@[simp] theorem pointDevice_life (s : State) : (pointDevice s).life = s.life := rfl
@[simp] theorem pointDevice_wstate (s : State) : (pointDevice s).wstate = s.wstate := rfl
@[simp] theorem pointDevice_wphase (s : State) : (pointDevice s).wphase = s.wphase := rfl
@[simp] theorem pointDevice_rxHold (s : State) : (pointDevice s).rxHold = s.rxHold := rfl
@[simp] theorem pointDevice_irqValid (s : State) : (pointDevice s).irqValid = s.irqValid := rfl
@[simp] theorem pointDevice_regionValid (s : State) : (pointDevice s).regionValid = s.regionValid := rfl
@[simp] theorem pointDevice_dmaStatus (s : State) : (pointDevice s).dmaStatus = s.dmaStatus := rfl
@[simp] theorem pointDevice_irqPending (s : State) : (pointDevice s).irqPending = s.irqPending := rfl
@[simp] theorem pointDevice_linkStatus (s : State) : (pointDevice s).linkStatus = s.linkStatus := rfl
@[simp] theorem pointDevice_macConfig (s : State) : (pointDevice s).macConfig = s.macConfig := rfl
@[simp] theorem pointDevice_result (s : State) : (pointDevice s).result = s.result := rfl
@[simp] theorem pointDevice_mem (s : State) : (pointDevice s).mem = s.mem := rfl
@[simp] theorem pointDevice_devTxCur (s : State) : (pointDevice s).devTxCur = 0 := rfl
@[simp] theorem pointDevice_devRxCur (s : State) : (pointDevice s).devRxCur = 0 := rfl
@[simp] theorem pointDevice_devQuiesced (s : State) : (pointDevice s).devQuiesced = false := rfl
@[simp] theorem pointDevice_out (s : State) : (pointDevice s).out = s.out := rfl
@[simp] theorem pointDevice_wire (s : State) : (pointDevice s).wire = s.wire := rfl
@[simp] theorem pointDevice_cfg (s : State) : (pointDevice s).cfg = s.cfg := rfl
@[simp] theorem pointDevice_sched (s : State) : (pointDevice s).sched = s.sched := rfl
@[simp] theorem pointDevice_bus (s : State) : (pointDevice s).bus = s.bus := rfl
@[simp] theorem pointDevice_ret (s : State) : (pointDevice s).ret = s.ret := rfl
@[simp] theorem pointDevice_reapReturned (s : State) : (pointDevice s).reapReturned = s.reapReturned := rfl
@[simp] theorem pointDevice_inside (s : State) : (pointDevice s).inside = s.inside := rfl
@[simp] theorem pointDevice_drawCtr (s : State) : (pointDevice s).drawCtr = s.drawCtr := rfl

/-! ### stopBegin -/

@[simp] theorem stopBegin_txClaimCur (s : State) : (stopBegin s).txClaimCur = s.txClaimCur := rfl
@[simp] theorem stopBegin_txReclaimCur (s : State) : (stopBegin s).txReclaimCur = s.txReclaimCur := rfl
@[simp] theorem stopBegin_txInflight (s : State) : (stopBegin s).txInflight = s.txInflight := rfl
@[simp] theorem stopBegin_rxCur (s : State) : (stopBegin s).rxCur = s.rxCur := rfl
@[simp] theorem stopBegin_rxFaultCount (s : State) : (stopBegin s).rxFaultCount = s.rxFaultCount := rfl
@[simp] theorem stopBegin_errCount (s : State) : (stopBegin s).errCount = s.errCount := rfl
@[simp] theorem stopBegin_txReclaimedCount (s : State) : (stopBegin s).txReclaimedCount = s.txReclaimedCount := rfl
@[simp] theorem stopBegin_rxDropCount (s : State) : (stopBegin s).rxDropCount = s.rxDropCount := rfl
@[simp] theorem stopBegin_isrLatch (s : State) : (stopBegin s).isrLatch = s.isrLatch := rfl
@[simp] theorem stopBegin_online (s : State) : (stopBegin s).online = s.online := rfl
@[simp] theorem stopBegin_linkRawLast (s : State) : (stopBegin s).linkRawLast = s.linkRawLast := rfl
@[simp] theorem stopBegin_bound (s : State) : (stopBegin s).bound = false := rfl
@[simp] theorem stopBegin_clientId (s : State) : (stopBegin s).clientId = s.clientId := rfl
@[simp] theorem stopBegin_life (s : State) : (stopBegin s).life = .stopping := rfl
@[simp] theorem stopBegin_wstate (s : State) : (stopBegin s).wstate = s.wstate := rfl
@[simp] theorem stopBegin_wphase (s : State) : (stopBegin s).wphase = s.wphase := rfl
@[simp] theorem stopBegin_rxHold (s : State) : (stopBegin s).rxHold = s.rxHold := rfl
@[simp] theorem stopBegin_irqValid (s : State) : (stopBegin s).irqValid = false := rfl
@[simp] theorem stopBegin_regionValid (s : State) : (stopBegin s).regionValid = s.regionValid := rfl
@[simp] theorem stopBegin_dmaStatus (s : State) : (stopBegin s).dmaStatus = s.dmaStatus := rfl
@[simp] theorem stopBegin_irqPending (s : State) : (stopBegin s).irqPending = s.irqPending := rfl
@[simp] theorem stopBegin_linkStatus (s : State) : (stopBegin s).linkStatus = s.linkStatus := rfl
@[simp] theorem stopBegin_macConfig (s : State) : (stopBegin s).macConfig = s.macConfig := rfl
@[simp] theorem stopBegin_result (s : State) : (stopBegin s).result = s.result := rfl
@[simp] theorem stopBegin_mem (s : State) : (stopBegin s).mem = s.mem := rfl
@[simp] theorem stopBegin_devTxCur (s : State) : (stopBegin s).devTxCur = s.devTxCur := rfl
@[simp] theorem stopBegin_devRxCur (s : State) : (stopBegin s).devRxCur = s.devRxCur := rfl
@[simp] theorem stopBegin_devQuiesced (s : State) : (stopBegin s).devQuiesced = s.devQuiesced := rfl
@[simp] theorem stopBegin_out (s : State) : (stopBegin s).out = s.out ++ [.irqInvalidate] := rfl
@[simp] theorem stopBegin_wire (s : State) : (stopBegin s).wire = s.wire := rfl
@[simp] theorem stopBegin_cfg (s : State) : (stopBegin s).cfg = s.cfg := rfl
@[simp] theorem stopBegin_sched (s : State) : (stopBegin s).sched = s.sched := rfl
@[simp] theorem stopBegin_bus (s : State) : (stopBegin s).bus = s.bus := rfl
@[simp] theorem stopBegin_ret (s : State) : (stopBegin s).ret = s.ret := rfl
@[simp] theorem stopBegin_reapReturned (s : State) : (stopBegin s).reapReturned = s.reapReturned := rfl
@[simp] theorem stopBegin_inside (s : State) : (stopBegin s).inside = s.inside := rfl
@[simp] theorem stopBegin_drawCtr (s : State) : (stopBegin s).drawCtr = s.drawCtr := rfl

/-! ### quiesceDevice -/

@[simp] theorem quiesceDevice_txClaimCur (s : State) : (quiesceDevice s).txClaimCur = s.txClaimCur := rfl
@[simp] theorem quiesceDevice_txReclaimCur (s : State) : (quiesceDevice s).txReclaimCur = s.txReclaimCur := rfl
@[simp] theorem quiesceDevice_txInflight (s : State) : (quiesceDevice s).txInflight = s.txInflight := rfl
@[simp] theorem quiesceDevice_rxCur (s : State) : (quiesceDevice s).rxCur = s.rxCur := rfl
@[simp] theorem quiesceDevice_rxFaultCount (s : State) : (quiesceDevice s).rxFaultCount = s.rxFaultCount := rfl
@[simp] theorem quiesceDevice_errCount (s : State) : (quiesceDevice s).errCount = s.errCount := rfl
@[simp] theorem quiesceDevice_txReclaimedCount (s : State) : (quiesceDevice s).txReclaimedCount = s.txReclaimedCount := rfl
@[simp] theorem quiesceDevice_rxDropCount (s : State) : (quiesceDevice s).rxDropCount = s.rxDropCount := rfl
@[simp] theorem quiesceDevice_isrLatch (s : State) : (quiesceDevice s).isrLatch = s.isrLatch := rfl
@[simp] theorem quiesceDevice_online (s : State) : (quiesceDevice s).online = s.online := rfl
@[simp] theorem quiesceDevice_linkRawLast (s : State) : (quiesceDevice s).linkRawLast = s.linkRawLast := rfl
@[simp] theorem quiesceDevice_bound (s : State) : (quiesceDevice s).bound = s.bound := rfl
@[simp] theorem quiesceDevice_clientId (s : State) : (quiesceDevice s).clientId = s.clientId := rfl
@[simp] theorem quiesceDevice_life (s : State) : (quiesceDevice s).life = s.life := rfl
@[simp] theorem quiesceDevice_wstate (s : State) : (quiesceDevice s).wstate = s.wstate := rfl
@[simp] theorem quiesceDevice_wphase (s : State) : (quiesceDevice s).wphase = s.wphase := rfl
@[simp] theorem quiesceDevice_rxHold (s : State) : (quiesceDevice s).rxHold = s.rxHold := rfl
@[simp] theorem quiesceDevice_irqValid (s : State) : (quiesceDevice s).irqValid = s.irqValid := rfl
@[simp] theorem quiesceDevice_regionValid (s : State) : (quiesceDevice s).regionValid = s.regionValid := rfl
@[simp] theorem quiesceDevice_dmaStatus (s : State) : (quiesceDevice s).dmaStatus = s.dmaStatus := rfl
@[simp] theorem quiesceDevice_irqPending (s : State) : (quiesceDevice s).irqPending = s.irqPending := rfl
@[simp] theorem quiesceDevice_linkStatus (s : State) : (quiesceDevice s).linkStatus = s.linkStatus := rfl
@[simp] theorem quiesceDevice_macConfig (s : State) : (quiesceDevice s).macConfig = s.macConfig &&& ~~~(macEnMask s.cfg) := rfl
@[simp] theorem quiesceDevice_result (s : State) : (quiesceDevice s).result = s.result := rfl
@[simp] theorem quiesceDevice_mem (s : State) : (quiesceDevice s).mem = s.mem := rfl
@[simp] theorem quiesceDevice_devTxCur (s : State) : (quiesceDevice s).devTxCur = s.devTxCur := rfl
@[simp] theorem quiesceDevice_devRxCur (s : State) : (quiesceDevice s).devRxCur = s.devRxCur := rfl
@[simp] theorem quiesceDevice_devQuiesced (s : State) : (quiesceDevice s).devQuiesced = true := rfl
@[simp] theorem quiesceDevice_out (s : State) : (quiesceDevice s).out = s.out ++ [.macEnSet false false] := rfl
@[simp] theorem quiesceDevice_wire (s : State) : (quiesceDevice s).wire = s.wire := rfl
@[simp] theorem quiesceDevice_cfg (s : State) : (quiesceDevice s).cfg = s.cfg := rfl
@[simp] theorem quiesceDevice_sched (s : State) : (quiesceDevice s).sched = s.sched := rfl
@[simp] theorem quiesceDevice_bus (s : State) : (quiesceDevice s).bus = s.bus := rfl
@[simp] theorem quiesceDevice_ret (s : State) : (quiesceDevice s).ret = s.ret := rfl
@[simp] theorem quiesceDevice_reapReturned (s : State) : (quiesceDevice s).reapReturned = s.reapReturned := rfl
@[simp] theorem quiesceDevice_inside (s : State) : (quiesceDevice s).inside = s.inside := rfl
@[simp] theorem quiesceDevice_drawCtr (s : State) : (quiesceDevice s).drawCtr = s.drawCtr := rfl

/-! ### releaseRegion -/

@[simp] theorem releaseRegion_txClaimCur (s : State) : (releaseRegion s).txClaimCur = s.txClaimCur := rfl
@[simp] theorem releaseRegion_txReclaimCur (s : State) : (releaseRegion s).txReclaimCur = s.txReclaimCur := rfl
@[simp] theorem releaseRegion_txInflight (s : State) : (releaseRegion s).txInflight = s.txInflight := rfl
@[simp] theorem releaseRegion_rxCur (s : State) : (releaseRegion s).rxCur = s.rxCur := rfl
@[simp] theorem releaseRegion_rxFaultCount (s : State) : (releaseRegion s).rxFaultCount = s.rxFaultCount := rfl
@[simp] theorem releaseRegion_errCount (s : State) : (releaseRegion s).errCount = s.errCount := rfl
@[simp] theorem releaseRegion_txReclaimedCount (s : State) : (releaseRegion s).txReclaimedCount = s.txReclaimedCount := rfl
@[simp] theorem releaseRegion_rxDropCount (s : State) : (releaseRegion s).rxDropCount = s.rxDropCount := rfl
@[simp] theorem releaseRegion_isrLatch (s : State) : (releaseRegion s).isrLatch = s.isrLatch := rfl
@[simp] theorem releaseRegion_online (s : State) : (releaseRegion s).online = s.online := rfl
@[simp] theorem releaseRegion_linkRawLast (s : State) : (releaseRegion s).linkRawLast = s.linkRawLast := rfl
@[simp] theorem releaseRegion_bound (s : State) : (releaseRegion s).bound = s.bound := rfl
@[simp] theorem releaseRegion_clientId (s : State) : (releaseRegion s).clientId = s.clientId := rfl
@[simp] theorem releaseRegion_life (s : State) : (releaseRegion s).life = s.life := rfl
@[simp] theorem releaseRegion_wstate (s : State) : (releaseRegion s).wstate = s.wstate := rfl
@[simp] theorem releaseRegion_wphase (s : State) : (releaseRegion s).wphase = s.wphase := rfl
@[simp] theorem releaseRegion_rxHold (s : State) : (releaseRegion s).rxHold = s.rxHold := rfl
@[simp] theorem releaseRegion_irqValid (s : State) : (releaseRegion s).irqValid = s.irqValid := rfl
@[simp] theorem releaseRegion_regionValid (s : State) : (releaseRegion s).regionValid = false := rfl
@[simp] theorem releaseRegion_dmaStatus (s : State) : (releaseRegion s).dmaStatus = s.dmaStatus := rfl
@[simp] theorem releaseRegion_irqPending (s : State) : (releaseRegion s).irqPending = s.irqPending := rfl
@[simp] theorem releaseRegion_linkStatus (s : State) : (releaseRegion s).linkStatus = s.linkStatus := rfl
@[simp] theorem releaseRegion_macConfig (s : State) : (releaseRegion s).macConfig = s.macConfig := rfl
@[simp] theorem releaseRegion_result (s : State) : (releaseRegion s).result = s.result := rfl
@[simp] theorem releaseRegion_mem (s : State) : (releaseRegion s).mem = s.mem := rfl
@[simp] theorem releaseRegion_devTxCur (s : State) : (releaseRegion s).devTxCur = s.devTxCur := rfl
@[simp] theorem releaseRegion_devRxCur (s : State) : (releaseRegion s).devRxCur = s.devRxCur := rfl
@[simp] theorem releaseRegion_devQuiesced (s : State) : (releaseRegion s).devQuiesced = s.devQuiesced := rfl
@[simp] theorem releaseRegion_out (s : State) : (releaseRegion s).out = s.out ++ [.regionRelease] := rfl
@[simp] theorem releaseRegion_wire (s : State) : (releaseRegion s).wire = s.wire := rfl
@[simp] theorem releaseRegion_cfg (s : State) : (releaseRegion s).cfg = s.cfg := rfl
@[simp] theorem releaseRegion_sched (s : State) : (releaseRegion s).sched = s.sched := rfl
@[simp] theorem releaseRegion_bus (s : State) : (releaseRegion s).bus = s.bus := rfl
@[simp] theorem releaseRegion_ret (s : State) : (releaseRegion s).ret = s.ret := rfl
@[simp] theorem releaseRegion_reapReturned (s : State) : (releaseRegion s).reapReturned = s.reapReturned := rfl
@[simp] theorem releaseRegion_inside (s : State) : (releaseRegion s).inside = s.inside := rfl
@[simp] theorem releaseRegion_drawCtr (s : State) : (releaseRegion s).drawCtr = s.drawCtr := rfl

/-! ### devSetStatus -/

@[simp] theorem devSetStatus_txClaimCur (b : Word) (s : State) : (devSetStatus b s).txClaimCur = s.txClaimCur := rfl
@[simp] theorem devSetStatus_txReclaimCur (b : Word) (s : State) : (devSetStatus b s).txReclaimCur = s.txReclaimCur := rfl
@[simp] theorem devSetStatus_txInflight (b : Word) (s : State) : (devSetStatus b s).txInflight = s.txInflight := rfl
@[simp] theorem devSetStatus_rxCur (b : Word) (s : State) : (devSetStatus b s).rxCur = s.rxCur := rfl
@[simp] theorem devSetStatus_rxFaultCount (b : Word) (s : State) : (devSetStatus b s).rxFaultCount = s.rxFaultCount := rfl
@[simp] theorem devSetStatus_errCount (b : Word) (s : State) : (devSetStatus b s).errCount = s.errCount := rfl
@[simp] theorem devSetStatus_txReclaimedCount (b : Word) (s : State) : (devSetStatus b s).txReclaimedCount = s.txReclaimedCount := rfl
@[simp] theorem devSetStatus_rxDropCount (b : Word) (s : State) : (devSetStatus b s).rxDropCount = s.rxDropCount := rfl
@[simp] theorem devSetStatus_isrLatch (b : Word) (s : State) : (devSetStatus b s).isrLatch = s.isrLatch := rfl
@[simp] theorem devSetStatus_online (b : Word) (s : State) : (devSetStatus b s).online = s.online := rfl
@[simp] theorem devSetStatus_linkRawLast (b : Word) (s : State) : (devSetStatus b s).linkRawLast = s.linkRawLast := rfl
@[simp] theorem devSetStatus_bound (b : Word) (s : State) : (devSetStatus b s).bound = s.bound := rfl
@[simp] theorem devSetStatus_clientId (b : Word) (s : State) : (devSetStatus b s).clientId = s.clientId := rfl
@[simp] theorem devSetStatus_life (b : Word) (s : State) : (devSetStatus b s).life = s.life := rfl
@[simp] theorem devSetStatus_wstate (b : Word) (s : State) : (devSetStatus b s).wstate = s.wstate := rfl
@[simp] theorem devSetStatus_wphase (b : Word) (s : State) : (devSetStatus b s).wphase = s.wphase := rfl
@[simp] theorem devSetStatus_rxHold (b : Word) (s : State) : (devSetStatus b s).rxHold = s.rxHold := rfl
@[simp] theorem devSetStatus_irqValid (b : Word) (s : State) : (devSetStatus b s).irqValid = s.irqValid := rfl
@[simp] theorem devSetStatus_regionValid (b : Word) (s : State) : (devSetStatus b s).regionValid = s.regionValid := rfl
@[simp] theorem devSetStatus_dmaStatus (b : Word) (s : State) : (devSetStatus b s).dmaStatus = s.dmaStatus ||| b := rfl
@[simp] theorem devSetStatus_irqPending (b : Word) (s : State) : (devSetStatus b s).irqPending = (s.irqPending || decide (b ≠ 0#32)) := rfl
@[simp] theorem devSetStatus_linkStatus (b : Word) (s : State) : (devSetStatus b s).linkStatus = s.linkStatus := rfl
@[simp] theorem devSetStatus_macConfig (b : Word) (s : State) : (devSetStatus b s).macConfig = s.macConfig := rfl
@[simp] theorem devSetStatus_result (b : Word) (s : State) : (devSetStatus b s).result = s.result := rfl
@[simp] theorem devSetStatus_mem (b : Word) (s : State) : (devSetStatus b s).mem = s.mem := rfl
@[simp] theorem devSetStatus_devTxCur (b : Word) (s : State) : (devSetStatus b s).devTxCur = s.devTxCur := rfl
@[simp] theorem devSetStatus_devRxCur (b : Word) (s : State) : (devSetStatus b s).devRxCur = s.devRxCur := rfl
@[simp] theorem devSetStatus_devQuiesced (b : Word) (s : State) : (devSetStatus b s).devQuiesced = s.devQuiesced := rfl
@[simp] theorem devSetStatus_out (b : Word) (s : State) : (devSetStatus b s).out = s.out := rfl
@[simp] theorem devSetStatus_wire (b : Word) (s : State) : (devSetStatus b s).wire = s.wire := rfl
@[simp] theorem devSetStatus_cfg (b : Word) (s : State) : (devSetStatus b s).cfg = s.cfg := rfl
@[simp] theorem devSetStatus_sched (b : Word) (s : State) : (devSetStatus b s).sched = s.sched := rfl
@[simp] theorem devSetStatus_bus (b : Word) (s : State) : (devSetStatus b s).bus = s.bus := rfl
@[simp] theorem devSetStatus_ret (b : Word) (s : State) : (devSetStatus b s).ret = s.ret := rfl
@[simp] theorem devSetStatus_reapReturned (b : Word) (s : State) : (devSetStatus b s).reapReturned = s.reapReturned := rfl
@[simp] theorem devSetStatus_inside (b : Word) (s : State) : (devSetStatus b s).inside = s.inside := rfl
@[simp] theorem devSetStatus_drawCtr (b : Word) (s : State) : (devSetStatus b s).drawCtr = s.drawCtr := rfl

/-! ### devLinkSet -/

@[simp] theorem devLinkSet_txClaimCur (r : Word) (s : State) : (devLinkSet r s).txClaimCur = s.txClaimCur := rfl
@[simp] theorem devLinkSet_txReclaimCur (r : Word) (s : State) : (devLinkSet r s).txReclaimCur = s.txReclaimCur := rfl
@[simp] theorem devLinkSet_txInflight (r : Word) (s : State) : (devLinkSet r s).txInflight = s.txInflight := rfl
@[simp] theorem devLinkSet_rxCur (r : Word) (s : State) : (devLinkSet r s).rxCur = s.rxCur := rfl
@[simp] theorem devLinkSet_rxFaultCount (r : Word) (s : State) : (devLinkSet r s).rxFaultCount = s.rxFaultCount := rfl
@[simp] theorem devLinkSet_errCount (r : Word) (s : State) : (devLinkSet r s).errCount = s.errCount := rfl
@[simp] theorem devLinkSet_txReclaimedCount (r : Word) (s : State) : (devLinkSet r s).txReclaimedCount = s.txReclaimedCount := rfl
@[simp] theorem devLinkSet_rxDropCount (r : Word) (s : State) : (devLinkSet r s).rxDropCount = s.rxDropCount := rfl
@[simp] theorem devLinkSet_isrLatch (r : Word) (s : State) : (devLinkSet r s).isrLatch = s.isrLatch := rfl
@[simp] theorem devLinkSet_online (r : Word) (s : State) : (devLinkSet r s).online = s.online := rfl
@[simp] theorem devLinkSet_linkRawLast (r : Word) (s : State) : (devLinkSet r s).linkRawLast = s.linkRawLast := rfl
@[simp] theorem devLinkSet_bound (r : Word) (s : State) : (devLinkSet r s).bound = s.bound := rfl
@[simp] theorem devLinkSet_clientId (r : Word) (s : State) : (devLinkSet r s).clientId = s.clientId := rfl
@[simp] theorem devLinkSet_life (r : Word) (s : State) : (devLinkSet r s).life = s.life := rfl
@[simp] theorem devLinkSet_wstate (r : Word) (s : State) : (devLinkSet r s).wstate = s.wstate := rfl
@[simp] theorem devLinkSet_wphase (r : Word) (s : State) : (devLinkSet r s).wphase = s.wphase := rfl
@[simp] theorem devLinkSet_rxHold (r : Word) (s : State) : (devLinkSet r s).rxHold = s.rxHold := rfl
@[simp] theorem devLinkSet_irqValid (r : Word) (s : State) : (devLinkSet r s).irqValid = s.irqValid := rfl
@[simp] theorem devLinkSet_regionValid (r : Word) (s : State) : (devLinkSet r s).regionValid = s.regionValid := rfl
@[simp] theorem devLinkSet_dmaStatus (r : Word) (s : State) : (devLinkSet r s).dmaStatus = s.dmaStatus := rfl
@[simp] theorem devLinkSet_irqPending (r : Word) (s : State) : (devLinkSet r s).irqPending = s.irqPending := rfl
@[simp] theorem devLinkSet_linkStatus (r : Word) (s : State) : (devLinkSet r s).linkStatus = r := rfl
@[simp] theorem devLinkSet_macConfig (r : Word) (s : State) : (devLinkSet r s).macConfig = s.macConfig := rfl
@[simp] theorem devLinkSet_result (r : Word) (s : State) : (devLinkSet r s).result = s.result := rfl
@[simp] theorem devLinkSet_mem (r : Word) (s : State) : (devLinkSet r s).mem = s.mem := rfl
@[simp] theorem devLinkSet_devTxCur (r : Word) (s : State) : (devLinkSet r s).devTxCur = s.devTxCur := rfl
@[simp] theorem devLinkSet_devRxCur (r : Word) (s : State) : (devLinkSet r s).devRxCur = s.devRxCur := rfl
@[simp] theorem devLinkSet_devQuiesced (r : Word) (s : State) : (devLinkSet r s).devQuiesced = s.devQuiesced := rfl
@[simp] theorem devLinkSet_out (r : Word) (s : State) : (devLinkSet r s).out = s.out := rfl
@[simp] theorem devLinkSet_wire (r : Word) (s : State) : (devLinkSet r s).wire = s.wire := rfl
@[simp] theorem devLinkSet_cfg (r : Word) (s : State) : (devLinkSet r s).cfg = s.cfg := rfl
@[simp] theorem devLinkSet_sched (r : Word) (s : State) : (devLinkSet r s).sched = s.sched := rfl
@[simp] theorem devLinkSet_bus (r : Word) (s : State) : (devLinkSet r s).bus = s.bus := rfl
@[simp] theorem devLinkSet_ret (r : Word) (s : State) : (devLinkSet r s).ret = s.ret := rfl
@[simp] theorem devLinkSet_reapReturned (r : Word) (s : State) : (devLinkSet r s).reapReturned = s.reapReturned := rfl
@[simp] theorem devLinkSet_inside (r : Word) (s : State) : (devLinkSet r s).inside = s.inside := rfl
@[simp] theorem devLinkSet_drawCtr (r : Word) (s : State) : (devLinkSet r s).drawCtr = s.drawCtr := rfl

/-! ### nextDraw -/

@[simp] theorem nextDraw_txClaimCur (s : State) : (nextDraw s).txClaimCur = s.txClaimCur := rfl
@[simp] theorem nextDraw_txReclaimCur (s : State) : (nextDraw s).txReclaimCur = s.txReclaimCur := rfl
@[simp] theorem nextDraw_txInflight (s : State) : (nextDraw s).txInflight = s.txInflight := rfl
@[simp] theorem nextDraw_rxCur (s : State) : (nextDraw s).rxCur = s.rxCur := rfl
@[simp] theorem nextDraw_rxFaultCount (s : State) : (nextDraw s).rxFaultCount = s.rxFaultCount := rfl
@[simp] theorem nextDraw_errCount (s : State) : (nextDraw s).errCount = s.errCount := rfl
@[simp] theorem nextDraw_txReclaimedCount (s : State) : (nextDraw s).txReclaimedCount = s.txReclaimedCount := rfl
@[simp] theorem nextDraw_rxDropCount (s : State) : (nextDraw s).rxDropCount = s.rxDropCount := rfl
@[simp] theorem nextDraw_isrLatch (s : State) : (nextDraw s).isrLatch = s.isrLatch := rfl
@[simp] theorem nextDraw_online (s : State) : (nextDraw s).online = s.online := rfl
@[simp] theorem nextDraw_linkRawLast (s : State) : (nextDraw s).linkRawLast = s.linkRawLast := rfl
@[simp] theorem nextDraw_bound (s : State) : (nextDraw s).bound = s.bound := rfl
@[simp] theorem nextDraw_clientId (s : State) : (nextDraw s).clientId = s.clientId := rfl
@[simp] theorem nextDraw_life (s : State) : (nextDraw s).life = s.life := rfl
@[simp] theorem nextDraw_wstate (s : State) : (nextDraw s).wstate = s.wstate := rfl
@[simp] theorem nextDraw_wphase (s : State) : (nextDraw s).wphase = s.wphase := rfl
@[simp] theorem nextDraw_rxHold (s : State) : (nextDraw s).rxHold = s.rxHold := rfl
@[simp] theorem nextDraw_irqValid (s : State) : (nextDraw s).irqValid = s.irqValid := rfl
@[simp] theorem nextDraw_regionValid (s : State) : (nextDraw s).regionValid = s.regionValid := rfl
@[simp] theorem nextDraw_dmaStatus (s : State) : (nextDraw s).dmaStatus = s.dmaStatus := rfl
@[simp] theorem nextDraw_irqPending (s : State) : (nextDraw s).irqPending = s.irqPending := rfl
@[simp] theorem nextDraw_linkStatus (s : State) : (nextDraw s).linkStatus = s.linkStatus := rfl
@[simp] theorem nextDraw_macConfig (s : State) : (nextDraw s).macConfig = s.macConfig := rfl
@[simp] theorem nextDraw_result (s : State) : (nextDraw s).result = s.result := rfl
@[simp] theorem nextDraw_mem (s : State) : (nextDraw s).mem = s.mem := rfl
@[simp] theorem nextDraw_devTxCur (s : State) : (nextDraw s).devTxCur = s.devTxCur := rfl
@[simp] theorem nextDraw_devRxCur (s : State) : (nextDraw s).devRxCur = s.devRxCur := rfl
@[simp] theorem nextDraw_devQuiesced (s : State) : (nextDraw s).devQuiesced = s.devQuiesced := rfl
@[simp] theorem nextDraw_out (s : State) : (nextDraw s).out = s.out := rfl
@[simp] theorem nextDraw_wire (s : State) : (nextDraw s).wire = s.wire := rfl
@[simp] theorem nextDraw_cfg (s : State) : (nextDraw s).cfg = s.cfg := rfl
@[simp] theorem nextDraw_sched (s : State) : (nextDraw s).sched = s.sched := rfl
@[simp] theorem nextDraw_bus (s : State) : (nextDraw s).bus = s.bus := rfl
@[simp] theorem nextDraw_ret (s : State) : (nextDraw s).ret = s.ret := rfl
@[simp] theorem nextDraw_reapReturned (s : State) : (nextDraw s).reapReturned = s.reapReturned := rfl
@[simp] theorem nextDraw_inside (s : State) : (nextDraw s).inside = s.inside := rfl
@[simp] theorem nextDraw_drawCtr (s : State) : (nextDraw s).drawCtr = s.drawCtr + 1 := rfl

/-! ### resetCursors -/

@[simp] theorem resetCursors_rxFaultCount (d : Dir) (s : State) : (resetCursors d s).rxFaultCount = s.rxFaultCount := by cases d <;> rfl
@[simp] theorem resetCursors_errCount (d : Dir) (s : State) : (resetCursors d s).errCount = s.errCount := by cases d <;> rfl
@[simp] theorem resetCursors_txReclaimedCount (d : Dir) (s : State) : (resetCursors d s).txReclaimedCount = s.txReclaimedCount := by cases d <;> rfl
@[simp] theorem resetCursors_rxDropCount (d : Dir) (s : State) : (resetCursors d s).rxDropCount = s.rxDropCount := by cases d <;> rfl
@[simp] theorem resetCursors_isrLatch (d : Dir) (s : State) : (resetCursors d s).isrLatch = s.isrLatch := by cases d <;> rfl
@[simp] theorem resetCursors_online (d : Dir) (s : State) : (resetCursors d s).online = s.online := by cases d <;> rfl
@[simp] theorem resetCursors_linkRawLast (d : Dir) (s : State) : (resetCursors d s).linkRawLast = s.linkRawLast := by cases d <;> rfl
@[simp] theorem resetCursors_bound (d : Dir) (s : State) : (resetCursors d s).bound = s.bound := by cases d <;> rfl
@[simp] theorem resetCursors_clientId (d : Dir) (s : State) : (resetCursors d s).clientId = s.clientId := by cases d <;> rfl
@[simp] theorem resetCursors_life (d : Dir) (s : State) : (resetCursors d s).life = s.life := by cases d <;> rfl
@[simp] theorem resetCursors_wstate (d : Dir) (s : State) : (resetCursors d s).wstate = s.wstate := by cases d <;> rfl
@[simp] theorem resetCursors_wphase (d : Dir) (s : State) : (resetCursors d s).wphase = s.wphase := by cases d <;> rfl
@[simp] theorem resetCursors_rxHold (d : Dir) (s : State) : (resetCursors d s).rxHold = s.rxHold := by cases d <;> rfl
@[simp] theorem resetCursors_irqValid (d : Dir) (s : State) : (resetCursors d s).irqValid = s.irqValid := by cases d <;> rfl
@[simp] theorem resetCursors_regionValid (d : Dir) (s : State) : (resetCursors d s).regionValid = s.regionValid := by cases d <;> rfl
@[simp] theorem resetCursors_dmaStatus (d : Dir) (s : State) : (resetCursors d s).dmaStatus = s.dmaStatus := by cases d <;> rfl
@[simp] theorem resetCursors_irqPending (d : Dir) (s : State) : (resetCursors d s).irqPending = s.irqPending := by cases d <;> rfl
@[simp] theorem resetCursors_linkStatus (d : Dir) (s : State) : (resetCursors d s).linkStatus = s.linkStatus := by cases d <;> rfl
@[simp] theorem resetCursors_macConfig (d : Dir) (s : State) : (resetCursors d s).macConfig = s.macConfig := by cases d <;> rfl
@[simp] theorem resetCursors_result (d : Dir) (s : State) : (resetCursors d s).result = s.result := by cases d <;> rfl
@[simp] theorem resetCursors_mem (d : Dir) (s : State) : (resetCursors d s).mem = s.mem := by cases d <;> rfl
@[simp] theorem resetCursors_devTxCur (d : Dir) (s : State) : (resetCursors d s).devTxCur = s.devTxCur := by cases d <;> rfl
@[simp] theorem resetCursors_devRxCur (d : Dir) (s : State) : (resetCursors d s).devRxCur = s.devRxCur := by cases d <;> rfl
@[simp] theorem resetCursors_devQuiesced (d : Dir) (s : State) : (resetCursors d s).devQuiesced = s.devQuiesced := by cases d <;> rfl
@[simp] theorem resetCursors_out (d : Dir) (s : State) : (resetCursors d s).out = s.out := by cases d <;> rfl
@[simp] theorem resetCursors_wire (d : Dir) (s : State) : (resetCursors d s).wire = s.wire := by cases d <;> rfl
@[simp] theorem resetCursors_cfg (d : Dir) (s : State) : (resetCursors d s).cfg = s.cfg := by cases d <;> rfl
@[simp] theorem resetCursors_sched (d : Dir) (s : State) : (resetCursors d s).sched = s.sched := by cases d <;> rfl
@[simp] theorem resetCursors_bus (d : Dir) (s : State) : (resetCursors d s).bus = s.bus := by cases d <;> rfl
@[simp] theorem resetCursors_ret (d : Dir) (s : State) : (resetCursors d s).ret = s.ret := by cases d <;> rfl
@[simp] theorem resetCursors_reapReturned (d : Dir) (s : State) : (resetCursors d s).reapReturned = s.reapReturned := by cases d <;> rfl
@[simp] theorem resetCursors_inside (d : Dir) (s : State) : (resetCursors d s).inside = s.inside := by cases d <;> rfl
@[simp] theorem resetCursors_drawCtr (d : Dir) (s : State) : (resetCursors d s).drawCtr = s.drawCtr := by cases d <;> rfl

/-! ### growWindow -/

@[simp] theorem growWindow_txClaimCur (s : State) : (growWindow s).txClaimCur = s.txClaimCur := by unfold growWindow; split <;> rfl
@[simp] theorem growWindow_rxCur (s : State) : (growWindow s).rxCur = s.rxCur := by unfold growWindow; split <;> rfl
@[simp] theorem growWindow_rxFaultCount (s : State) : (growWindow s).rxFaultCount = s.rxFaultCount := by unfold growWindow; split <;> rfl
@[simp] theorem growWindow_errCount (s : State) : (growWindow s).errCount = s.errCount := by unfold growWindow; split <;> rfl
@[simp] theorem growWindow_rxDropCount (s : State) : (growWindow s).rxDropCount = s.rxDropCount := by unfold growWindow; split <;> rfl
@[simp] theorem growWindow_isrLatch (s : State) : (growWindow s).isrLatch = s.isrLatch := by unfold growWindow; split <;> rfl
@[simp] theorem growWindow_online (s : State) : (growWindow s).online = s.online := by unfold growWindow; split <;> rfl
@[simp] theorem growWindow_linkRawLast (s : State) : (growWindow s).linkRawLast = s.linkRawLast := by unfold growWindow; split <;> rfl
@[simp] theorem growWindow_bound (s : State) : (growWindow s).bound = s.bound := by unfold growWindow; split <;> rfl
@[simp] theorem growWindow_clientId (s : State) : (growWindow s).clientId = s.clientId := by unfold growWindow; split <;> rfl
@[simp] theorem growWindow_life (s : State) : (growWindow s).life = s.life := by unfold growWindow; split <;> rfl
@[simp] theorem growWindow_wstate (s : State) : (growWindow s).wstate = s.wstate := by unfold growWindow; split <;> rfl
@[simp] theorem growWindow_wphase (s : State) : (growWindow s).wphase = s.wphase := by unfold growWindow; split <;> rfl
@[simp] theorem growWindow_rxHold (s : State) : (growWindow s).rxHold = s.rxHold := by unfold growWindow; split <;> rfl
@[simp] theorem growWindow_irqValid (s : State) : (growWindow s).irqValid = s.irqValid := by unfold growWindow; split <;> rfl
@[simp] theorem growWindow_regionValid (s : State) : (growWindow s).regionValid = s.regionValid := by unfold growWindow; split <;> rfl
@[simp] theorem growWindow_dmaStatus (s : State) : (growWindow s).dmaStatus = s.dmaStatus := by unfold growWindow; split <;> rfl
@[simp] theorem growWindow_irqPending (s : State) : (growWindow s).irqPending = s.irqPending := by unfold growWindow; split <;> rfl
@[simp] theorem growWindow_linkStatus (s : State) : (growWindow s).linkStatus = s.linkStatus := by unfold growWindow; split <;> rfl
@[simp] theorem growWindow_macConfig (s : State) : (growWindow s).macConfig = s.macConfig := by unfold growWindow; split <;> rfl
@[simp] theorem growWindow_result (s : State) : (growWindow s).result = s.result := by unfold growWindow; split <;> rfl
@[simp] theorem growWindow_mem (s : State) : (growWindow s).mem = s.mem := by unfold growWindow; split <;> rfl
@[simp] theorem growWindow_devTxCur (s : State) : (growWindow s).devTxCur = s.devTxCur := by unfold growWindow; split <;> rfl
@[simp] theorem growWindow_devRxCur (s : State) : (growWindow s).devRxCur = s.devRxCur := by unfold growWindow; split <;> rfl
@[simp] theorem growWindow_devQuiesced (s : State) : (growWindow s).devQuiesced = s.devQuiesced := by unfold growWindow; split <;> rfl
@[simp] theorem growWindow_out (s : State) : (growWindow s).out = s.out := by unfold growWindow; split <;> rfl
@[simp] theorem growWindow_wire (s : State) : (growWindow s).wire = s.wire := by unfold growWindow; split <;> rfl
@[simp] theorem growWindow_cfg (s : State) : (growWindow s).cfg = s.cfg := by unfold growWindow; split <;> rfl
@[simp] theorem growWindow_sched (s : State) : (growWindow s).sched = s.sched := by unfold growWindow; split <;> rfl
@[simp] theorem growWindow_bus (s : State) : (growWindow s).bus = s.bus := by unfold growWindow; split <;> rfl
@[simp] theorem growWindow_ret (s : State) : (growWindow s).ret = s.ret := by unfold growWindow; split <;> rfl
@[simp] theorem growWindow_reapReturned (s : State) : (growWindow s).reapReturned = s.reapReturned := by unfold growWindow; split <;> rfl
@[simp] theorem growWindow_inside (s : State) : (growWindow s).inside = s.inside := by unfold growWindow; split <;> rfl
@[simp] theorem growWindow_drawCtr (s : State) : (growWindow s).drawCtr = s.drawCtr := by unfold growWindow; split <;> rfl

/-! ### submitBookkeeping -/

@[simp] theorem submitBookkeeping_txClaimCur (slot : Nat) (s : State) : (submitBookkeeping slot s).txClaimCur = advance slot s.cfg.nTx := by simp [submitBookkeeping]
@[simp] theorem submitBookkeeping_txReclaimCur (slot : Nat) (s : State) : (submitBookkeeping slot s).txReclaimCur = (growWindow s).txReclaimCur := by simp [submitBookkeeping]
@[simp] theorem submitBookkeeping_txInflight (slot : Nat) (s : State) : (submitBookkeeping slot s).txInflight = (growWindow s).txInflight := by simp [submitBookkeeping]
@[simp] theorem submitBookkeeping_rxCur (slot : Nat) (s : State) : (submitBookkeeping slot s).rxCur = s.rxCur := by simp [submitBookkeeping]
@[simp] theorem submitBookkeeping_rxFaultCount (slot : Nat) (s : State) : (submitBookkeeping slot s).rxFaultCount = s.rxFaultCount := by simp [submitBookkeeping]
@[simp] theorem submitBookkeeping_errCount (slot : Nat) (s : State) : (submitBookkeeping slot s).errCount = s.errCount := by simp [submitBookkeeping]
@[simp] theorem submitBookkeeping_txReclaimedCount (slot : Nat) (s : State) : (submitBookkeeping slot s).txReclaimedCount = (growWindow s).txReclaimedCount := by simp [submitBookkeeping]
@[simp] theorem submitBookkeeping_rxDropCount (slot : Nat) (s : State) : (submitBookkeeping slot s).rxDropCount = s.rxDropCount := by simp [submitBookkeeping]
@[simp] theorem submitBookkeeping_isrLatch (slot : Nat) (s : State) : (submitBookkeeping slot s).isrLatch = s.isrLatch := by simp [submitBookkeeping]
@[simp] theorem submitBookkeeping_online (slot : Nat) (s : State) : (submitBookkeeping slot s).online = s.online := by simp [submitBookkeeping]
@[simp] theorem submitBookkeeping_linkRawLast (slot : Nat) (s : State) : (submitBookkeeping slot s).linkRawLast = s.linkRawLast := by simp [submitBookkeeping]
@[simp] theorem submitBookkeeping_bound (slot : Nat) (s : State) : (submitBookkeeping slot s).bound = s.bound := by simp [submitBookkeeping]
@[simp] theorem submitBookkeeping_clientId (slot : Nat) (s : State) : (submitBookkeeping slot s).clientId = s.clientId := by simp [submitBookkeeping]
@[simp] theorem submitBookkeeping_life (slot : Nat) (s : State) : (submitBookkeeping slot s).life = s.life := by simp [submitBookkeeping]
@[simp] theorem submitBookkeeping_wstate (slot : Nat) (s : State) : (submitBookkeeping slot s).wstate = s.wstate := by simp [submitBookkeeping]
@[simp] theorem submitBookkeeping_wphase (slot : Nat) (s : State) : (submitBookkeeping slot s).wphase = s.wphase := by simp [submitBookkeeping]
@[simp] theorem submitBookkeeping_rxHold (slot : Nat) (s : State) : (submitBookkeeping slot s).rxHold = s.rxHold := by simp [submitBookkeeping]
@[simp] theorem submitBookkeeping_irqValid (slot : Nat) (s : State) : (submitBookkeeping slot s).irqValid = s.irqValid := by simp [submitBookkeeping]
@[simp] theorem submitBookkeeping_regionValid (slot : Nat) (s : State) : (submitBookkeeping slot s).regionValid = s.regionValid := by simp [submitBookkeeping]
@[simp] theorem submitBookkeeping_dmaStatus (slot : Nat) (s : State) : (submitBookkeeping slot s).dmaStatus = s.dmaStatus := by simp [submitBookkeeping]
@[simp] theorem submitBookkeeping_irqPending (slot : Nat) (s : State) : (submitBookkeeping slot s).irqPending = s.irqPending := by simp [submitBookkeeping]
@[simp] theorem submitBookkeeping_linkStatus (slot : Nat) (s : State) : (submitBookkeeping slot s).linkStatus = s.linkStatus := by simp [submitBookkeeping]
@[simp] theorem submitBookkeeping_macConfig (slot : Nat) (s : State) : (submitBookkeeping slot s).macConfig = s.macConfig := by simp [submitBookkeeping]
@[simp] theorem submitBookkeeping_result (slot : Nat) (s : State) : (submitBookkeeping slot s).result = s.result := by simp [submitBookkeeping]
@[simp] theorem submitBookkeeping_mem (slot : Nat) (s : State) : (submitBookkeeping slot s).mem = s.mem := by simp [submitBookkeeping]
@[simp] theorem submitBookkeeping_devTxCur (slot : Nat) (s : State) : (submitBookkeeping slot s).devTxCur = s.devTxCur := by simp [submitBookkeeping]
@[simp] theorem submitBookkeeping_devRxCur (slot : Nat) (s : State) : (submitBookkeeping slot s).devRxCur = s.devRxCur := by simp [submitBookkeeping]
@[simp] theorem submitBookkeeping_devQuiesced (slot : Nat) (s : State) : (submitBookkeeping slot s).devQuiesced = s.devQuiesced := by simp [submitBookkeeping]
@[simp] theorem submitBookkeeping_out (slot : Nat) (s : State) : (submitBookkeeping slot s).out = s.out := by simp [submitBookkeeping]
@[simp] theorem submitBookkeeping_wire (slot : Nat) (s : State) : (submitBookkeeping slot s).wire = s.wire := by simp [submitBookkeeping]
@[simp] theorem submitBookkeeping_cfg (slot : Nat) (s : State) : (submitBookkeeping slot s).cfg = s.cfg := by simp [submitBookkeeping]
@[simp] theorem submitBookkeeping_sched (slot : Nat) (s : State) : (submitBookkeeping slot s).sched = s.sched := by simp [submitBookkeeping]
@[simp] theorem submitBookkeeping_bus (slot : Nat) (s : State) : (submitBookkeeping slot s).bus = s.bus := by simp [submitBookkeeping]
@[simp] theorem submitBookkeeping_ret (slot : Nat) (s : State) : (submitBookkeeping slot s).ret = s.ret := by simp [submitBookkeeping]
@[simp] theorem submitBookkeeping_reapReturned (slot : Nat) (s : State) : (submitBookkeeping slot s).reapReturned = s.reapReturned := by simp [submitBookkeeping]
@[simp] theorem submitBookkeeping_inside (slot : Nat) (s : State) : (submitBookkeeping slot s).inside = s.inside := by simp [submitBookkeeping]
@[simp] theorem submitBookkeeping_drawCtr (slot : Nat) (s : State) : (submitBookkeeping slot s).drawCtr = s.drawCtr := by simp [submitBookkeeping]

/-! ### notifyLink -/

@[simp] theorem notifyLink_txClaimCur (up : Bool) (s : State) : (notifyLink up s).txClaimCur = s.txClaimCur := by unfold notifyLink; split <;> rfl
@[simp] theorem notifyLink_txReclaimCur (up : Bool) (s : State) : (notifyLink up s).txReclaimCur = s.txReclaimCur := by unfold notifyLink; split <;> rfl
@[simp] theorem notifyLink_txInflight (up : Bool) (s : State) : (notifyLink up s).txInflight = s.txInflight := by unfold notifyLink; split <;> rfl
@[simp] theorem notifyLink_rxCur (up : Bool) (s : State) : (notifyLink up s).rxCur = s.rxCur := by unfold notifyLink; split <;> rfl
@[simp] theorem notifyLink_rxFaultCount (up : Bool) (s : State) : (notifyLink up s).rxFaultCount = s.rxFaultCount := by unfold notifyLink; split <;> rfl
@[simp] theorem notifyLink_errCount (up : Bool) (s : State) : (notifyLink up s).errCount = s.errCount := by unfold notifyLink; split <;> rfl
@[simp] theorem notifyLink_txReclaimedCount (up : Bool) (s : State) : (notifyLink up s).txReclaimedCount = s.txReclaimedCount := by unfold notifyLink; split <;> rfl
@[simp] theorem notifyLink_rxDropCount (up : Bool) (s : State) : (notifyLink up s).rxDropCount = s.rxDropCount := by unfold notifyLink; split <;> rfl
@[simp] theorem notifyLink_isrLatch (up : Bool) (s : State) : (notifyLink up s).isrLatch = s.isrLatch := by unfold notifyLink; split <;> rfl
@[simp] theorem notifyLink_online (up : Bool) (s : State) : (notifyLink up s).online = s.online := by unfold notifyLink; split <;> rfl
@[simp] theorem notifyLink_linkRawLast (up : Bool) (s : State) : (notifyLink up s).linkRawLast = s.linkRawLast := by unfold notifyLink; split <;> rfl
@[simp] theorem notifyLink_bound (up : Bool) (s : State) : (notifyLink up s).bound = s.bound := by unfold notifyLink; split <;> rfl
@[simp] theorem notifyLink_clientId (up : Bool) (s : State) : (notifyLink up s).clientId = s.clientId := by unfold notifyLink; split <;> rfl
@[simp] theorem notifyLink_life (up : Bool) (s : State) : (notifyLink up s).life = s.life := by unfold notifyLink; split <;> rfl
@[simp] theorem notifyLink_wstate (up : Bool) (s : State) : (notifyLink up s).wstate = s.wstate := by unfold notifyLink; split <;> rfl
@[simp] theorem notifyLink_wphase (up : Bool) (s : State) : (notifyLink up s).wphase = s.wphase := by unfold notifyLink; split <;> rfl
@[simp] theorem notifyLink_rxHold (up : Bool) (s : State) : (notifyLink up s).rxHold = s.rxHold := by unfold notifyLink; split <;> rfl
@[simp] theorem notifyLink_irqValid (up : Bool) (s : State) : (notifyLink up s).irqValid = s.irqValid := by unfold notifyLink; split <;> rfl
@[simp] theorem notifyLink_regionValid (up : Bool) (s : State) : (notifyLink up s).regionValid = s.regionValid := by unfold notifyLink; split <;> rfl
@[simp] theorem notifyLink_dmaStatus (up : Bool) (s : State) : (notifyLink up s).dmaStatus = s.dmaStatus := by unfold notifyLink; split <;> rfl
@[simp] theorem notifyLink_irqPending (up : Bool) (s : State) : (notifyLink up s).irqPending = s.irqPending := by unfold notifyLink; split <;> rfl
@[simp] theorem notifyLink_linkStatus (up : Bool) (s : State) : (notifyLink up s).linkStatus = s.linkStatus := by unfold notifyLink; split <;> rfl
@[simp] theorem notifyLink_macConfig (up : Bool) (s : State) : (notifyLink up s).macConfig = s.macConfig := by unfold notifyLink; split <;> rfl
@[simp] theorem notifyLink_result (up : Bool) (s : State) : (notifyLink up s).result = s.result := by unfold notifyLink; split <;> rfl
@[simp] theorem notifyLink_mem (up : Bool) (s : State) : (notifyLink up s).mem = s.mem := by unfold notifyLink; split <;> rfl
@[simp] theorem notifyLink_devTxCur (up : Bool) (s : State) : (notifyLink up s).devTxCur = s.devTxCur := by unfold notifyLink; split <;> rfl
@[simp] theorem notifyLink_devRxCur (up : Bool) (s : State) : (notifyLink up s).devRxCur = s.devRxCur := by unfold notifyLink; split <;> rfl
@[simp] theorem notifyLink_devQuiesced (up : Bool) (s : State) : (notifyLink up s).devQuiesced = s.devQuiesced := by unfold notifyLink; split <;> rfl
@[simp] theorem notifyLink_wire (up : Bool) (s : State) : (notifyLink up s).wire = s.wire := by unfold notifyLink; split <;> rfl
@[simp] theorem notifyLink_cfg (up : Bool) (s : State) : (notifyLink up s).cfg = s.cfg := by unfold notifyLink; split <;> rfl
@[simp] theorem notifyLink_sched (up : Bool) (s : State) : (notifyLink up s).sched = s.sched := by unfold notifyLink; split <;> rfl
@[simp] theorem notifyLink_bus (up : Bool) (s : State) : (notifyLink up s).bus = s.bus := by unfold notifyLink; split <;> rfl
@[simp] theorem notifyLink_ret (up : Bool) (s : State) : (notifyLink up s).ret = s.ret := by unfold notifyLink; split <;> rfl
@[simp] theorem notifyLink_reapReturned (up : Bool) (s : State) : (notifyLink up s).reapReturned = s.reapReturned := by unfold notifyLink; split <;> rfl
@[simp] theorem notifyLink_inside (up : Bool) (s : State) : (notifyLink up s).inside = s.inside := by unfold notifyLink; split <;> rfl
@[simp] theorem notifyLink_drawCtr (up : Bool) (s : State) : (notifyLink up s).drawCtr = s.drawCtr := by unfold notifyLink; split <;> rfl

/-! ### latchRaw -/

@[simp] theorem latchRaw_txClaimCur (raw : Word) (s : State) : (latchRaw raw s).txClaimCur = s.txClaimCur := rfl
@[simp] theorem latchRaw_txReclaimCur (raw : Word) (s : State) : (latchRaw raw s).txReclaimCur = s.txReclaimCur := rfl
@[simp] theorem latchRaw_txInflight (raw : Word) (s : State) : (latchRaw raw s).txInflight = s.txInflight := rfl
@[simp] theorem latchRaw_rxCur (raw : Word) (s : State) : (latchRaw raw s).rxCur = s.rxCur := rfl
@[simp] theorem latchRaw_rxFaultCount (raw : Word) (s : State) : (latchRaw raw s).rxFaultCount = s.rxFaultCount := rfl
@[simp] theorem latchRaw_errCount (raw : Word) (s : State) : (latchRaw raw s).errCount = s.errCount := rfl
@[simp] theorem latchRaw_txReclaimedCount (raw : Word) (s : State) : (latchRaw raw s).txReclaimedCount = s.txReclaimedCount := rfl
@[simp] theorem latchRaw_rxDropCount (raw : Word) (s : State) : (latchRaw raw s).rxDropCount = s.rxDropCount := rfl
@[simp] theorem latchRaw_isrLatch (raw : Word) (s : State) : (latchRaw raw s).isrLatch = s.isrLatch := rfl
@[simp] theorem latchRaw_online (raw : Word) (s : State) : (latchRaw raw s).online = s.online := rfl
@[simp] theorem latchRaw_linkRawLast (raw : Word) (s : State) : (latchRaw raw s).linkRawLast = raw := rfl
@[simp] theorem latchRaw_bound (raw : Word) (s : State) : (latchRaw raw s).bound = s.bound := rfl
@[simp] theorem latchRaw_clientId (raw : Word) (s : State) : (latchRaw raw s).clientId = s.clientId := rfl
@[simp] theorem latchRaw_life (raw : Word) (s : State) : (latchRaw raw s).life = s.life := rfl
@[simp] theorem latchRaw_wstate (raw : Word) (s : State) : (latchRaw raw s).wstate = s.wstate := rfl
@[simp] theorem latchRaw_wphase (raw : Word) (s : State) : (latchRaw raw s).wphase = s.wphase := rfl
@[simp] theorem latchRaw_rxHold (raw : Word) (s : State) : (latchRaw raw s).rxHold = s.rxHold := rfl
@[simp] theorem latchRaw_irqValid (raw : Word) (s : State) : (latchRaw raw s).irqValid = s.irqValid := rfl
@[simp] theorem latchRaw_regionValid (raw : Word) (s : State) : (latchRaw raw s).regionValid = s.regionValid := rfl
@[simp] theorem latchRaw_dmaStatus (raw : Word) (s : State) : (latchRaw raw s).dmaStatus = s.dmaStatus := rfl
@[simp] theorem latchRaw_irqPending (raw : Word) (s : State) : (latchRaw raw s).irqPending = s.irqPending := rfl
@[simp] theorem latchRaw_linkStatus (raw : Word) (s : State) : (latchRaw raw s).linkStatus = s.linkStatus := rfl
@[simp] theorem latchRaw_macConfig (raw : Word) (s : State) : (latchRaw raw s).macConfig = s.macConfig := rfl
@[simp] theorem latchRaw_result (raw : Word) (s : State) : (latchRaw raw s).result = s.result := rfl
@[simp] theorem latchRaw_mem (raw : Word) (s : State) : (latchRaw raw s).mem = s.mem := rfl
@[simp] theorem latchRaw_devTxCur (raw : Word) (s : State) : (latchRaw raw s).devTxCur = s.devTxCur := rfl
@[simp] theorem latchRaw_devRxCur (raw : Word) (s : State) : (latchRaw raw s).devRxCur = s.devRxCur := rfl
@[simp] theorem latchRaw_devQuiesced (raw : Word) (s : State) : (latchRaw raw s).devQuiesced = s.devQuiesced := rfl
@[simp] theorem latchRaw_out (raw : Word) (s : State) : (latchRaw raw s).out = s.out := rfl
@[simp] theorem latchRaw_wire (raw : Word) (s : State) : (latchRaw raw s).wire = s.wire := rfl
@[simp] theorem latchRaw_cfg (raw : Word) (s : State) : (latchRaw raw s).cfg = s.cfg := rfl
@[simp] theorem latchRaw_sched (raw : Word) (s : State) : (latchRaw raw s).sched = s.sched := rfl
@[simp] theorem latchRaw_bus (raw : Word) (s : State) : (latchRaw raw s).bus = s.bus := rfl
@[simp] theorem latchRaw_ret (raw : Word) (s : State) : (latchRaw raw s).ret = s.ret := rfl
@[simp] theorem latchRaw_reapReturned (raw : Word) (s : State) : (latchRaw raw s).reapReturned = s.reapReturned := rfl
@[simp] theorem latchRaw_inside (raw : Word) (s : State) : (latchRaw raw s).inside = s.inside := rfl
@[simp] theorem latchRaw_drawCtr (raw : Word) (s : State) : (latchRaw raw s).drawCtr = s.drawCtr := rfl

/-! ### linkEdge -/

@[simp] theorem linkEdge_txClaimCur (new : Bool) (s : State) : (linkEdge new s).txClaimCur = s.txClaimCur := by unfold linkEdge; split <;> [rfl; split] <;> simp [linkUpEdge, linkDownEdge]
@[simp] theorem linkEdge_txReclaimCur (new : Bool) (s : State) : (linkEdge new s).txReclaimCur = s.txReclaimCur := by unfold linkEdge; split <;> [rfl; split] <;> simp [linkUpEdge, linkDownEdge]
@[simp] theorem linkEdge_txInflight (new : Bool) (s : State) : (linkEdge new s).txInflight = s.txInflight := by unfold linkEdge; split <;> [rfl; split] <;> simp [linkUpEdge, linkDownEdge]
@[simp] theorem linkEdge_rxCur (new : Bool) (s : State) : (linkEdge new s).rxCur = s.rxCur := by unfold linkEdge; split <;> [rfl; split] <;> simp [linkUpEdge, linkDownEdge]
@[simp] theorem linkEdge_rxFaultCount (new : Bool) (s : State) : (linkEdge new s).rxFaultCount = s.rxFaultCount := by unfold linkEdge; split <;> [rfl; split] <;> simp [linkUpEdge, linkDownEdge]
@[simp] theorem linkEdge_errCount (new : Bool) (s : State) : (linkEdge new s).errCount = s.errCount := by unfold linkEdge; split <;> [rfl; split] <;> simp [linkUpEdge, linkDownEdge]
@[simp] theorem linkEdge_txReclaimedCount (new : Bool) (s : State) : (linkEdge new s).txReclaimedCount = s.txReclaimedCount := by unfold linkEdge; split <;> [rfl; split] <;> simp [linkUpEdge, linkDownEdge]
@[simp] theorem linkEdge_rxDropCount (new : Bool) (s : State) : (linkEdge new s).rxDropCount = s.rxDropCount := by unfold linkEdge; split <;> [rfl; split] <;> simp [linkUpEdge, linkDownEdge]
@[simp] theorem linkEdge_isrLatch (new : Bool) (s : State) : (linkEdge new s).isrLatch = s.isrLatch := by unfold linkEdge; split <;> [rfl; split] <;> simp [linkUpEdge, linkDownEdge]
@[simp] theorem linkEdge_linkRawLast (new : Bool) (s : State) : (linkEdge new s).linkRawLast = s.linkRawLast := by unfold linkEdge; split <;> [rfl; split] <;> simp [linkUpEdge, linkDownEdge]
@[simp] theorem linkEdge_bound (new : Bool) (s : State) : (linkEdge new s).bound = s.bound := by unfold linkEdge; split <;> [rfl; split] <;> simp [linkUpEdge, linkDownEdge]
@[simp] theorem linkEdge_clientId (new : Bool) (s : State) : (linkEdge new s).clientId = s.clientId := by unfold linkEdge; split <;> [rfl; split] <;> simp [linkUpEdge, linkDownEdge]
@[simp] theorem linkEdge_life (new : Bool) (s : State) : (linkEdge new s).life = s.life := by unfold linkEdge; split <;> [rfl; split] <;> simp [linkUpEdge, linkDownEdge]
@[simp] theorem linkEdge_wstate (new : Bool) (s : State) : (linkEdge new s).wstate = s.wstate := by unfold linkEdge; split <;> [rfl; split] <;> simp [linkUpEdge, linkDownEdge]
@[simp] theorem linkEdge_wphase (new : Bool) (s : State) : (linkEdge new s).wphase = s.wphase := by unfold linkEdge; split <;> [rfl; split] <;> simp [linkUpEdge, linkDownEdge]
@[simp] theorem linkEdge_rxHold (new : Bool) (s : State) : (linkEdge new s).rxHold = s.rxHold := by unfold linkEdge; split <;> [rfl; split] <;> simp [linkUpEdge, linkDownEdge]
@[simp] theorem linkEdge_irqValid (new : Bool) (s : State) : (linkEdge new s).irqValid = s.irqValid := by unfold linkEdge; split <;> [rfl; split] <;> simp [linkUpEdge, linkDownEdge]
@[simp] theorem linkEdge_regionValid (new : Bool) (s : State) : (linkEdge new s).regionValid = s.regionValid := by unfold linkEdge; split <;> [rfl; split] <;> simp [linkUpEdge, linkDownEdge]
@[simp] theorem linkEdge_dmaStatus (new : Bool) (s : State) : (linkEdge new s).dmaStatus = s.dmaStatus := by unfold linkEdge; split <;> [rfl; split] <;> simp [linkUpEdge, linkDownEdge]
@[simp] theorem linkEdge_irqPending (new : Bool) (s : State) : (linkEdge new s).irqPending = s.irqPending := by unfold linkEdge; split <;> [rfl; split] <;> simp [linkUpEdge, linkDownEdge]
@[simp] theorem linkEdge_linkStatus (new : Bool) (s : State) : (linkEdge new s).linkStatus = s.linkStatus := by unfold linkEdge; split <;> [rfl; split] <;> simp [linkUpEdge, linkDownEdge]
@[simp] theorem linkEdge_result (new : Bool) (s : State) : (linkEdge new s).result = s.result := by unfold linkEdge; split <;> [rfl; split] <;> simp [linkUpEdge, linkDownEdge]
@[simp] theorem linkEdge_mem (new : Bool) (s : State) : (linkEdge new s).mem = s.mem := by unfold linkEdge; split <;> [rfl; split] <;> simp [linkUpEdge, linkDownEdge]
@[simp] theorem linkEdge_devTxCur (new : Bool) (s : State) : (linkEdge new s).devTxCur = s.devTxCur := by unfold linkEdge; split <;> [rfl; split] <;> simp [linkUpEdge, linkDownEdge]
@[simp] theorem linkEdge_devRxCur (new : Bool) (s : State) : (linkEdge new s).devRxCur = s.devRxCur := by unfold linkEdge; split <;> [rfl; split] <;> simp [linkUpEdge, linkDownEdge]
@[simp] theorem linkEdge_devQuiesced (new : Bool) (s : State) : (linkEdge new s).devQuiesced = s.devQuiesced := by unfold linkEdge; split <;> [rfl; split] <;> simp [linkUpEdge, linkDownEdge]
@[simp] theorem linkEdge_wire (new : Bool) (s : State) : (linkEdge new s).wire = s.wire := by unfold linkEdge; split <;> [rfl; split] <;> simp [linkUpEdge, linkDownEdge]
@[simp] theorem linkEdge_cfg (new : Bool) (s : State) : (linkEdge new s).cfg = s.cfg := by unfold linkEdge; split <;> [rfl; split] <;> simp [linkUpEdge, linkDownEdge]
@[simp] theorem linkEdge_sched (new : Bool) (s : State) : (linkEdge new s).sched = s.sched := by unfold linkEdge; split <;> [rfl; split] <;> simp [linkUpEdge, linkDownEdge]
@[simp] theorem linkEdge_bus (new : Bool) (s : State) : (linkEdge new s).bus = s.bus := by unfold linkEdge; split <;> [rfl; split] <;> simp [linkUpEdge, linkDownEdge]
@[simp] theorem linkEdge_ret (new : Bool) (s : State) : (linkEdge new s).ret = s.ret := by unfold linkEdge; split <;> [rfl; split] <;> simp [linkUpEdge, linkDownEdge]
@[simp] theorem linkEdge_reapReturned (new : Bool) (s : State) : (linkEdge new s).reapReturned = s.reapReturned := by unfold linkEdge; split <;> [rfl; split] <;> simp [linkUpEdge, linkDownEdge]
@[simp] theorem linkEdge_inside (new : Bool) (s : State) : (linkEdge new s).inside = s.inside := by unfold linkEdge; split <;> [rfl; split] <;> simp [linkUpEdge, linkDownEdge]
@[simp] theorem linkEdge_drawCtr (new : Bool) (s : State) : (linkEdge new s).drawCtr = s.drawCtr := by unfold linkEdge; split <;> [rfl; split] <;> simp [linkUpEdge, linkDownEdge]

/-! ### linkUpdate -/

@[simp] theorem linkUpdate_txClaimCur (raw : Word) (s : State) : (linkUpdate raw s).txClaimCur = s.txClaimCur := by simp [linkUpdate]
@[simp] theorem linkUpdate_txReclaimCur (raw : Word) (s : State) : (linkUpdate raw s).txReclaimCur = s.txReclaimCur := by simp [linkUpdate]
@[simp] theorem linkUpdate_txInflight (raw : Word) (s : State) : (linkUpdate raw s).txInflight = s.txInflight := by simp [linkUpdate]
@[simp] theorem linkUpdate_rxCur (raw : Word) (s : State) : (linkUpdate raw s).rxCur = s.rxCur := by simp [linkUpdate]
@[simp] theorem linkUpdate_rxFaultCount (raw : Word) (s : State) : (linkUpdate raw s).rxFaultCount = s.rxFaultCount := by simp [linkUpdate]
@[simp] theorem linkUpdate_errCount (raw : Word) (s : State) : (linkUpdate raw s).errCount = s.errCount := by simp [linkUpdate]
@[simp] theorem linkUpdate_txReclaimedCount (raw : Word) (s : State) : (linkUpdate raw s).txReclaimedCount = s.txReclaimedCount := by simp [linkUpdate]
@[simp] theorem linkUpdate_rxDropCount (raw : Word) (s : State) : (linkUpdate raw s).rxDropCount = s.rxDropCount := by simp [linkUpdate]
@[simp] theorem linkUpdate_isrLatch (raw : Word) (s : State) : (linkUpdate raw s).isrLatch = s.isrLatch := by simp [linkUpdate]
@[simp] theorem linkUpdate_linkRawLast (raw : Word) (s : State) : (linkUpdate raw s).linkRawLast = raw := by simp [linkUpdate]
@[simp] theorem linkUpdate_bound (raw : Word) (s : State) : (linkUpdate raw s).bound = s.bound := by simp [linkUpdate]
@[simp] theorem linkUpdate_clientId (raw : Word) (s : State) : (linkUpdate raw s).clientId = s.clientId := by simp [linkUpdate]
@[simp] theorem linkUpdate_life (raw : Word) (s : State) : (linkUpdate raw s).life = s.life := by simp [linkUpdate]
@[simp] theorem linkUpdate_wstate (raw : Word) (s : State) : (linkUpdate raw s).wstate = s.wstate := by simp [linkUpdate]
@[simp] theorem linkUpdate_wphase (raw : Word) (s : State) : (linkUpdate raw s).wphase = s.wphase := by simp [linkUpdate]
@[simp] theorem linkUpdate_rxHold (raw : Word) (s : State) : (linkUpdate raw s).rxHold = s.rxHold := by simp [linkUpdate]
@[simp] theorem linkUpdate_irqValid (raw : Word) (s : State) : (linkUpdate raw s).irqValid = s.irqValid := by simp [linkUpdate]
@[simp] theorem linkUpdate_regionValid (raw : Word) (s : State) : (linkUpdate raw s).regionValid = s.regionValid := by simp [linkUpdate]
@[simp] theorem linkUpdate_dmaStatus (raw : Word) (s : State) : (linkUpdate raw s).dmaStatus = s.dmaStatus := by simp [linkUpdate]
@[simp] theorem linkUpdate_irqPending (raw : Word) (s : State) : (linkUpdate raw s).irqPending = s.irqPending := by simp [linkUpdate]
@[simp] theorem linkUpdate_linkStatus (raw : Word) (s : State) : (linkUpdate raw s).linkStatus = s.linkStatus := by simp [linkUpdate]
@[simp] theorem linkUpdate_result (raw : Word) (s : State) : (linkUpdate raw s).result = s.result := by simp [linkUpdate]
@[simp] theorem linkUpdate_mem (raw : Word) (s : State) : (linkUpdate raw s).mem = s.mem := by simp [linkUpdate]
@[simp] theorem linkUpdate_devTxCur (raw : Word) (s : State) : (linkUpdate raw s).devTxCur = s.devTxCur := by simp [linkUpdate]
@[simp] theorem linkUpdate_devRxCur (raw : Word) (s : State) : (linkUpdate raw s).devRxCur = s.devRxCur := by simp [linkUpdate]
@[simp] theorem linkUpdate_devQuiesced (raw : Word) (s : State) : (linkUpdate raw s).devQuiesced = s.devQuiesced := by simp [linkUpdate]
@[simp] theorem linkUpdate_wire (raw : Word) (s : State) : (linkUpdate raw s).wire = s.wire := by simp [linkUpdate]
@[simp] theorem linkUpdate_cfg (raw : Word) (s : State) : (linkUpdate raw s).cfg = s.cfg := by simp [linkUpdate]
@[simp] theorem linkUpdate_sched (raw : Word) (s : State) : (linkUpdate raw s).sched = s.sched := by simp [linkUpdate]
@[simp] theorem linkUpdate_bus (raw : Word) (s : State) : (linkUpdate raw s).bus = s.bus := by simp [linkUpdate]
@[simp] theorem linkUpdate_ret (raw : Word) (s : State) : (linkUpdate raw s).ret = s.ret := by simp [linkUpdate]
@[simp] theorem linkUpdate_reapReturned (raw : Word) (s : State) : (linkUpdate raw s).reapReturned = s.reapReturned := by simp [linkUpdate]
@[simp] theorem linkUpdate_inside (raw : Word) (s : State) : (linkUpdate raw s).inside = s.inside := by simp [linkUpdate]
@[simp] theorem linkUpdate_drawCtr (raw : Word) (s : State) : (linkUpdate raw s).drawCtr = s.drawCtr := by simp [linkUpdate]

/-! ### consume -/

@[simp] theorem consume_txClaimCur (t : RxTake) (s : State) : (consume t s).txClaimCur = s.txClaimCur := by cases t <;> simp only [consume] <;> (try split) <;> rfl
@[simp] theorem consume_txReclaimCur (t : RxTake) (s : State) : (consume t s).txReclaimCur = s.txReclaimCur := by cases t <;> simp only [consume] <;> (try split) <;> rfl
@[simp] theorem consume_txInflight (t : RxTake) (s : State) : (consume t s).txInflight = s.txInflight := by cases t <;> simp only [consume] <;> (try split) <;> rfl
@[simp] theorem consume_rxCur (t : RxTake) (s : State) : (consume t s).rxCur = s.rxCur := by cases t <;> simp only [consume] <;> (try split) <;> rfl
@[simp] theorem consume_rxFaultCount (t : RxTake) (s : State) : (consume t s).rxFaultCount = s.rxFaultCount := by cases t <;> simp only [consume] <;> (try split) <;> rfl
@[simp] theorem consume_errCount (t : RxTake) (s : State) : (consume t s).errCount = s.errCount := by cases t <;> simp only [consume] <;> (try split) <;> rfl
@[simp] theorem consume_txReclaimedCount (t : RxTake) (s : State) : (consume t s).txReclaimedCount = s.txReclaimedCount := by cases t <;> simp only [consume] <;> (try split) <;> rfl
@[simp] theorem consume_isrLatch (t : RxTake) (s : State) : (consume t s).isrLatch = s.isrLatch := by cases t <;> simp only [consume] <;> (try split) <;> rfl
@[simp] theorem consume_online (t : RxTake) (s : State) : (consume t s).online = s.online := by cases t <;> simp only [consume] <;> (try split) <;> rfl
@[simp] theorem consume_linkRawLast (t : RxTake) (s : State) : (consume t s).linkRawLast = s.linkRawLast := by cases t <;> simp only [consume] <;> (try split) <;> rfl
@[simp] theorem consume_bound (t : RxTake) (s : State) : (consume t s).bound = s.bound := by cases t <;> simp only [consume] <;> (try split) <;> rfl
@[simp] theorem consume_clientId (t : RxTake) (s : State) : (consume t s).clientId = s.clientId := by cases t <;> simp only [consume] <;> (try split) <;> rfl
@[simp] theorem consume_life (t : RxTake) (s : State) : (consume t s).life = s.life := by cases t <;> simp only [consume] <;> (try split) <;> rfl
@[simp] theorem consume_wstate (t : RxTake) (s : State) : (consume t s).wstate = s.wstate := by cases t <;> simp only [consume] <;> (try split) <;> rfl
@[simp] theorem consume_rxHold (t : RxTake) (s : State) : (consume t s).rxHold = s.rxHold := by cases t <;> simp only [consume] <;> (try split) <;> rfl
@[simp] theorem consume_irqValid (t : RxTake) (s : State) : (consume t s).irqValid = s.irqValid := by cases t <;> simp only [consume] <;> (try split) <;> rfl
@[simp] theorem consume_regionValid (t : RxTake) (s : State) : (consume t s).regionValid = s.regionValid := by cases t <;> simp only [consume] <;> (try split) <;> rfl
@[simp] theorem consume_dmaStatus (t : RxTake) (s : State) : (consume t s).dmaStatus = s.dmaStatus := by cases t <;> simp only [consume] <;> (try split) <;> rfl
@[simp] theorem consume_irqPending (t : RxTake) (s : State) : (consume t s).irqPending = s.irqPending := by cases t <;> simp only [consume] <;> (try split) <;> rfl
@[simp] theorem consume_linkStatus (t : RxTake) (s : State) : (consume t s).linkStatus = s.linkStatus := by cases t <;> simp only [consume] <;> (try split) <;> rfl
@[simp] theorem consume_macConfig (t : RxTake) (s : State) : (consume t s).macConfig = s.macConfig := by cases t <;> simp only [consume] <;> (try split) <;> rfl
@[simp] theorem consume_result (t : RxTake) (s : State) : (consume t s).result = s.result := by cases t <;> simp only [consume] <;> (try split) <;> rfl
@[simp] theorem consume_mem (t : RxTake) (s : State) : (consume t s).mem = s.mem := by cases t <;> simp only [consume] <;> (try split) <;> rfl
@[simp] theorem consume_devTxCur (t : RxTake) (s : State) : (consume t s).devTxCur = s.devTxCur := by cases t <;> simp only [consume] <;> (try split) <;> rfl
@[simp] theorem consume_devRxCur (t : RxTake) (s : State) : (consume t s).devRxCur = s.devRxCur := by cases t <;> simp only [consume] <;> (try split) <;> rfl
@[simp] theorem consume_devQuiesced (t : RxTake) (s : State) : (consume t s).devQuiesced = s.devQuiesced := by cases t <;> simp only [consume] <;> (try split) <;> rfl
@[simp] theorem consume_wire (t : RxTake) (s : State) : (consume t s).wire = s.wire := by cases t <;> simp only [consume] <;> (try split) <;> rfl
@[simp] theorem consume_cfg (t : RxTake) (s : State) : (consume t s).cfg = s.cfg := by cases t <;> simp only [consume] <;> (try split) <;> rfl
@[simp] theorem consume_sched (t : RxTake) (s : State) : (consume t s).sched = s.sched := by cases t <;> simp only [consume] <;> (try split) <;> rfl
@[simp] theorem consume_bus (t : RxTake) (s : State) : (consume t s).bus = s.bus := by cases t <;> simp only [consume] <;> (try split) <;> rfl
@[simp] theorem consume_ret (t : RxTake) (s : State) : (consume t s).ret = s.ret := by cases t <;> simp only [consume] <;> (try split) <;> rfl
@[simp] theorem consume_reapReturned (t : RxTake) (s : State) : (consume t s).reapReturned = s.reapReturned := by cases t <;> simp only [consume] <;> (try split) <;> rfl
@[simp] theorem consume_inside (t : RxTake) (s : State) : (consume t s).inside = s.inside := by cases t <;> simp only [consume] <;> (try split) <;> rfl
@[simp] theorem consume_drawCtr (t : RxTake) (s : State) : (consume t s).drawCtr = s.drawCtr := by cases t <;> simp only [consume] <;> (try split) <;> rfl

/-! ### answerCaller -/

@[simp] theorem answerCaller_txClaimCur (v : OpReturn) (s : State) : (answerCaller v s).txClaimCur = s.txClaimCur := rfl
@[simp] theorem answerCaller_txReclaimCur (v : OpReturn) (s : State) : (answerCaller v s).txReclaimCur = s.txReclaimCur := rfl
@[simp] theorem answerCaller_txInflight (v : OpReturn) (s : State) : (answerCaller v s).txInflight = s.txInflight := rfl
@[simp] theorem answerCaller_rxCur (v : OpReturn) (s : State) : (answerCaller v s).rxCur = s.rxCur := rfl
@[simp] theorem answerCaller_rxFaultCount (v : OpReturn) (s : State) : (answerCaller v s).rxFaultCount = s.rxFaultCount := rfl
@[simp] theorem answerCaller_errCount (v : OpReturn) (s : State) : (answerCaller v s).errCount = s.errCount := rfl
@[simp] theorem answerCaller_txReclaimedCount (v : OpReturn) (s : State) : (answerCaller v s).txReclaimedCount = s.txReclaimedCount := rfl
@[simp] theorem answerCaller_rxDropCount (v : OpReturn) (s : State) : (answerCaller v s).rxDropCount = s.rxDropCount := rfl
@[simp] theorem answerCaller_isrLatch (v : OpReturn) (s : State) : (answerCaller v s).isrLatch = s.isrLatch := rfl
@[simp] theorem answerCaller_online (v : OpReturn) (s : State) : (answerCaller v s).online = s.online := rfl
@[simp] theorem answerCaller_linkRawLast (v : OpReturn) (s : State) : (answerCaller v s).linkRawLast = s.linkRawLast := rfl
@[simp] theorem answerCaller_bound (v : OpReturn) (s : State) : (answerCaller v s).bound = s.bound := rfl
@[simp] theorem answerCaller_clientId (v : OpReturn) (s : State) : (answerCaller v s).clientId = s.clientId := rfl
@[simp] theorem answerCaller_life (v : OpReturn) (s : State) : (answerCaller v s).life = s.life := rfl
@[simp] theorem answerCaller_wstate (v : OpReturn) (s : State) : (answerCaller v s).wstate = s.wstate := rfl
@[simp] theorem answerCaller_wphase (v : OpReturn) (s : State) : (answerCaller v s).wphase = s.wphase := rfl
@[simp] theorem answerCaller_rxHold (v : OpReturn) (s : State) : (answerCaller v s).rxHold = s.rxHold := rfl
@[simp] theorem answerCaller_irqValid (v : OpReturn) (s : State) : (answerCaller v s).irqValid = s.irqValid := rfl
@[simp] theorem answerCaller_regionValid (v : OpReturn) (s : State) : (answerCaller v s).regionValid = s.regionValid := rfl
@[simp] theorem answerCaller_dmaStatus (v : OpReturn) (s : State) : (answerCaller v s).dmaStatus = s.dmaStatus := rfl
@[simp] theorem answerCaller_irqPending (v : OpReturn) (s : State) : (answerCaller v s).irqPending = s.irqPending := rfl
@[simp] theorem answerCaller_linkStatus (v : OpReturn) (s : State) : (answerCaller v s).linkStatus = s.linkStatus := rfl
@[simp] theorem answerCaller_macConfig (v : OpReturn) (s : State) : (answerCaller v s).macConfig = s.macConfig := rfl
@[simp] theorem answerCaller_result (v : OpReturn) (s : State) : (answerCaller v s).result = s.result := rfl
@[simp] theorem answerCaller_mem (v : OpReturn) (s : State) : (answerCaller v s).mem = s.mem := rfl
@[simp] theorem answerCaller_devTxCur (v : OpReturn) (s : State) : (answerCaller v s).devTxCur = s.devTxCur := rfl
@[simp] theorem answerCaller_devRxCur (v : OpReturn) (s : State) : (answerCaller v s).devRxCur = s.devRxCur := rfl
@[simp] theorem answerCaller_devQuiesced (v : OpReturn) (s : State) : (answerCaller v s).devQuiesced = s.devQuiesced := rfl
@[simp] theorem answerCaller_out (v : OpReturn) (s : State) : (answerCaller v s).out = s.out := rfl
@[simp] theorem answerCaller_wire (v : OpReturn) (s : State) : (answerCaller v s).wire = s.wire := rfl
@[simp] theorem answerCaller_cfg (v : OpReturn) (s : State) : (answerCaller v s).cfg = s.cfg := rfl
@[simp] theorem answerCaller_sched (v : OpReturn) (s : State) : (answerCaller v s).sched = s.sched := rfl
@[simp] theorem answerCaller_bus (v : OpReturn) (s : State) : (answerCaller v s).bus = s.bus := rfl
@[simp] theorem answerCaller_ret (v : OpReturn) (s : State) : (answerCaller v s).ret = v := rfl
@[simp] theorem answerCaller_inside (v : OpReturn) (s : State) : (answerCaller v s).inside = none := rfl
@[simp] theorem answerCaller_reapReturned (v : OpReturn) (s : State) : (answerCaller v s).reapReturned = s.reapReturned := rfl
@[simp] theorem answerCaller_drawCtr (v : OpReturn) (s : State) : (answerCaller v s).drawCtr = s.drawCtr := rfl

end Sys2Proof.Machine
end

