-- ==== Sys2Proof/Laws/Run.lean ====
section
/-! SUPPORT. What a `Run` can answer: sequencing, the outcome it becomes, and each access to shared memory once and for all. -/

namespace Sys2Proof.Machine

/-! ## Sequencing -/

theorem run_bind_ok {α β : Type} {r : Run α} {f : α → Run β} {b : β} :
    (r >>= f) = .ok b ↔ ∃ a, r = .ok a ∧ f a = .ok b := by
  cases r with
  | error e => simp [bind, Except.bind]
  | ok a => simp [bind, Except.bind]

theorem run_bind_error {α β : Type} {r : Run α} {f : α → Run β} {e : Stop} :
    (r >>= f) = .error e ↔ r = .error e ∨ ∃ a, r = .ok a ∧ f a = .error e := by
  cases r with
  | error e' => simp [bind, Except.bind]
  | ok a => simp [bind, Except.bind]

@[simp] theorem run_ok_bind {α β : Type} (a : α) (f : α → Run β) : ((.ok a : Run α) >>= f) = f a := rfl

@[simp] theorem run_pure {α : Type} (a : α) : (pure a : Run α) = .ok a := rfl

@[simp] theorem run_error_bind {α β : Type} (e : Stop) (f : α → Run β) : ((.error e : Run α) >>= f) = .error e := rfl

@[simp] theorem noMove_ne_ok {α : Type} (r : Refusal) (a : α) : (noMove r : Run α) ≠ .ok a := by simp [noMove]

/-! ## Outcomes -/

@[simp] theorem finish_ok (s : State) : finish (.ok s) = .next s := rfl

@[simp] theorem finish_noMove (r : Refusal) : finish (noMove r) = .refused r := rfl

@[simp] theorem finish_next {r : Run State} {t : State} : finish r = .next t ↔ r = .ok t := by
  rcases r with (f | r) | s <;> simp [finish]

@[simp] theorem finish_fault {r : Run State} {f : Fault} : finish r = .fault f ↔ r = .error (.fault f) := by
  rcases r with (f | r) | s <;> simp [finish]

@[simp] theorem finish_refused {r : Run State} {q : Refusal} : finish r = .refused q ↔ r = .error (.refused q) := by
  rcases r with (f | r) | s <;> simp [finish]

/-! ## Accesses -/

/-- Side `side` may reach shared memory (20_memory.md R92). -/
def mapped (side : Side) (s : State) : Prop := side = .controller → s.regionValid = true

@[simp] theorem mapped_device (s : State) : mapped .device s := by simp [mapped]

@[simp] theorem mapped_controller (s : State) : mapped .controller s ↔ s.regionValid = true := by simp [mapped]

theorem checkRegion_eq (side : Side) (s : State) :
    (mapped side s ∧ checkRegion side s = .ok ()) ∨ (¬mapped side s ∧ checkRegion side s = .error (.fault .regionNotMapped)) := by
  cases side <;> cases h : s.regionValid <;> simp [checkRegion, mapped, h]

theorem checkAligned_eq (a : Addr) :
    (a.toNat % 4 = 0 ∧ checkAligned a = .ok ()) ∨ (a.toNat % 4 ≠ 0 ∧ checkAligned a = .error (.fault .misaligned)) := by
  by_cases h : a.toNat % 4 = 0 <;> simp [checkAligned, h]

theorem memRead8_ok {side : Side} {a : Addr} {s : State} {b : Byte} :
    memRead8 side a s = .ok b ↔ mapped side s ∧ b = s.byteAt a := by
  rcases checkRegion_eq side s with ⟨h, e⟩ | ⟨h, e⟩ <;> simp [memRead8, e, h, eq_comm]

theorem memRead32_ok {side : Side} {a : Addr} {s : State} {w : Word} :
    memRead32 side a s = .ok w ↔ mapped side s ∧ a.toNat % 4 = 0 ∧ w = s.wordAt a := by
  rcases checkRegion_eq side s with ⟨h, e⟩ | ⟨h, e⟩ <;> rcases checkAligned_eq a with ⟨h', e'⟩ | ⟨h', e'⟩ <;>
    simp [memRead32, e, h, e', h', eq_comm]

theorem memWrite8_ok {side : Side} {a : Addr} {b : Byte} {s t : State} :
    memWrite8 side a b s = .ok t ↔ mapped side s ∧ t = { s with mem := s.mem.setByte a b } := by
  rcases checkRegion_eq side s with ⟨h, e⟩ | ⟨h, e⟩ <;> simp [memWrite8, e, h, eq_comm]

theorem memWrite32_ok {side : Side} {a : Addr} {w : Word} {s t : State} :
    memWrite32 side a w s = .ok t ↔ mapped side s ∧ a.toNat % 4 = 0 ∧ t = { s with mem := s.mem.setWord a w } := by
  rcases checkRegion_eq side s with ⟨h, e⟩ | ⟨h, e⟩ <;> rcases checkAligned_eq a with ⟨h', e'⟩ | ⟨h', e'⟩ <;>
    simp [memWrite32, e, h, e', h', eq_comm]

/-- The bytes from an address. -/
def bytesFrom (m : Memory) (a : Addr) : Nat → List Byte
  | 0 => []
  | n + 1 => m.byte a :: bytesFrom m (a + 1#32) n

theorem bytesFrom_eq (m : Memory) (a : Addr) (n : Nat) :
    bytesFrom m a n = (List.range n).map fun j => m.byte (a + BitVec.ofNat 32 j) := by
  induction n generalizing a with
  | zero => rfl
  | succ n ih =>
    rw [bytesFrom, ih, List.range_succ_eq_map, List.map_cons, List.map_map]
    congr 1
    · simp
    · apply List.map_congr_left
      intro j _
      simp only [Function.comp]
      congr 1
      apply BitVec.eq_of_toNat_eq
      simp only [BitVec.toNat_add, BitVec.toNat_ofNat]
      omega

theorem memReadBytes_of_mapped {side : Side} {s : State} (h : mapped side s) (a : Addr) (n : Nat) :
    memReadBytes side a s n = .ok (bytesFrom s.mem a n) := by
  induction n generalizing a with
  | zero => rfl
  | succ n ih =>
    have : memRead8 side a s = .ok (s.byteAt a) := memRead8_ok.2 ⟨h, rfl⟩
    simp [memReadBytes, this, ih, bytesFrom, State.byteAt]

theorem memReadBytes_ok {side : Side} {s : State} {a : Addr} {n : Nat} {l : List Byte}
    (h : memReadBytes side a s n = .ok l) : l = bytesFrom s.mem a n := by
  induction n generalizing a l with
  | zero => simpa [memReadBytes, bytesFrom, eq_comm] using h
  | succ n ih =>
    simp only [memReadBytes, run_bind_ok, memRead8_ok] at h
    obtain ⟨b, ⟨-, rfl⟩, bs, hbs, hl⟩ := h
    simp only [run_pure, Except.ok.injEq] at hl
    rw [← hl, ih hbs]
    rfl

/-- Memory after bytes are written at increasing addresses. -/
def Memory.setBytes (m : Memory) (a : Addr) : List Byte → Memory
  | [] => m
  | b :: bs => (m.setByte a b).setBytes (a + 1#32) bs

theorem Memory.setBytes_wf {m : Memory} (a : Addr) (bs : List Byte) (h : m.wf = true) : (m.setBytes a bs).wf = true := by
  induction bs generalizing m a with
  | nil => exact h
  | cons b bs ih => exact ih _ (Memory.setByte_wf _ _ h)

theorem memWriteBytes_of_mapped {side : Side} {s : State} (h : mapped side s) (a : Addr) (bs : List Byte) :
    memWriteBytes side a bs s = .ok { s with mem := s.mem.setBytes a bs } := by
  induction bs generalizing s a with
  | nil => rfl
  | cons b bs ih =>
    have e : memWrite8 side a b s = .ok { s with mem := s.mem.setByte a b } := memWrite8_ok.2 ⟨h, rfl⟩
    simp only [memWriteBytes, e, run_ok_bind]
    rw [ih (by cases side <;> simp_all [mapped])]
    rfl

theorem memWriteBytes_ok {side : Side} {s t : State} {a : Addr} {bs : List Byte}
    (h : memWriteBytes side a bs s = .ok t) : t = { s with mem := s.mem.setBytes a bs } := by
  induction bs generalizing s a with
  | nil => simpa [memWriteBytes, Memory.setBytes, eq_comm] using h
  | cons b bs ih =>
    simp only [memWriteBytes, run_bind_ok, memWrite8_ok] at h
    obtain ⟨s', ⟨-, rfl⟩, h⟩ := h
    exact ih h

/-- Byte `a + j` of `setBytes` (no byte twice: fewer than 2^32 bytes). -/
theorem Memory.byte_setBytes (m : Memory) (a : Addr) (bs : List Byte) (x : Addr) (hlen : bs.length ≤ 2 ^ 32) :
    (m.setBytes a bs).byte x = (bs[(x - a).toNat]?).getD (m.byte x) := by
  induction bs generalizing m a with
  | nil => simp [Memory.setBytes]
  | cons b bs ih =>
    simp only [List.length_cons] at hlen
    rw [Memory.setBytes, ih _ _ (by omega)]
    by_cases hx : x = a
    · subst hx
      have e : (x - (x + 1#32)).toNat = 2 ^ 32 - 1 := by
        have : x - (x + 1#32) = 0xFFFFFFFF#32 := by bv_omega
        rw [this]; rfl
      rw [List.getElem?_eq_none (by omega)]
      simp
    · have e : (x - a).toNat = (x - (a + 1#32)).toNat + 1 := by
        bv_omega
      rw [e, List.getElem?_cons_succ, Memory.byte_setByte_ne _ _ hx]

/-- What `setBytes` leaves alone, by natural addresses. -/
theorem Memory.byte_setBytes_outside (m : Memory) {a x : Addr} (bs : List Byte) (hlen : a.toNat + bs.length ≤ 2 ^ 32)
    (h : x.toNat < a.toNat ∨ a.toNat + bs.length ≤ x.toNat) : (m.setBytes a bs).byte x = m.byte x := by
  rw [Memory.byte_setBytes _ _ _ _ (by omega), List.getElem?_eq_none, Option.getD_none]
  have := x.isLt
  rw [BitVec.toNat_sub]
  omega

/-- An aligned word outside the bytes written stays. -/
theorem Memory.word_setBytes_outside (m : Memory) {a x : Addr} (bs : List Byte) (hlen : a.toNat + bs.length ≤ 2 ^ 32)
    (hx : x.toNat % 4 = 0) (h : x.toNat + 4 ≤ a.toNat ∨ a.toNat + bs.length ≤ x.toNat) :
    (m.setBytes a bs).word x = m.word x := by
  apply Memory.word_congr
  intro y hy
  have := (word_bytes_iff hx).1 hy
  exact Memory.byte_setBytes_outside m bs hlen (by omega)

end Sys2Proof.Machine
end

