-- ==== Sys2Proof/Laws/Descriptors.lean ====
section
/-! SUPPORT. Descriptors and buffer slots in memory: what a write of one descriptor word or of one slot's bytes leaves alone
(20_memory.md R72, R73, R78; 00_scope.md R8 (a)). -/

namespace Sys2Proof.Machine

/-- Descriptor `i` of ring `d` in a memory. -/
def Memory.desc (c : Config) (m : Memory) (d : Dir) (i : Nat) : Desc where
  status := m.word (statusAddr c d i)
  control := m.word (controlAddr c d i)
  bufferAddress := m.word (bufferAddressAddr c d i)
  next := m.word (nextAddr c d i)

theorem State.desc_eq (s : State) (d : Dir) (i : Nat) : s.desc d i = s.mem.desc s.cfg d i := rfl

theorem State.own_eq (s : State) (d : Dir) (i : Nat) : s.own d i = ownOf s.cfg (s.mem.desc s.cfg d i).status := rfl

/-- The four words of a descriptor by their offset. -/
def wordOffset (k : Nat) : Prop := k = 0 ∨ k = 4 ∨ k = 8 ∨ k = 12

theorem statusAddr_eq (c : Config) (d : Dir) (i : Nat) : statusAddr c d i = daddr c d i + BitVec.ofNat 32 0 := by
  simp [statusAddr]

/-- A word write to one descriptor word leaves every other one alone. -/
theorem Memory.descWord_ne {c : Config} (h : c.wf = true) (m : Memory) (w : Word) {d d' : Dir} {i i' k k' : Nat}
    (hi : i < ringLen c d) (hi' : i' < ringLen c d') (hk : wordOffset k) (hk' : wordOffset k')
    (hne : (d, i) ≠ (d', i') ∨ k ≠ k') :
    (m.setWord (daddr c d' i' + BitVec.ofNat 32 k') w).word (daddr c d i + BitVec.ofNat 32 k) =
      m.word (daddr c d i + BitVec.ofNat 32 k) := by
  have k4 : k % 4 = 0 ∧ k < 16 := by unfold wordOffset at hk; omega
  have k4' : k' % 4 = 0 ∧ k' < 16 := by unfold wordOffset at hk'; omega
  refine Memory.word_setWord_ne _ _ (descWord_aligned h _ _ k4'.1) (descWord_aligned h _ _ k4.1) ?_
  intro e
  have e := congrArg BitVec.toNat e
  rw [descByte_toNat h hi k4.2, descByte_toNat h hi' k4'.2] at e
  by_cases hd : (d, i) = (d', i')
  · obtain ⟨rfl, rfl⟩ := Prod.mk.inj hd
    have : k ≠ k' := by tauto
    omega
  · have := descs_apart h hi hi' hd
    omega

variable {c : Config} {d d' : Dir} {i i' : Nat}

theorem Memory.desc_setStatus_same (h : c.wf = true) (m : Memory) (w : Word) (hi : i < ringLen c d) :
    (m.setWord (statusAddr c d i) w).desc c d i = { m.desc c d i with status := w } := by
  have e := statusAddr_eq c d i
  have n1 := Memory.descWord_ne h m w hi hi (k := 4) (k' := 0) (by simp [wordOffset]) (by simp [wordOffset]) (by simp)
  have n2 := Memory.descWord_ne h m w hi hi (k := 8) (k' := 0) (by simp [wordOffset]) (by simp [wordOffset]) (by simp)
  have n3 := Memory.descWord_ne h m w hi hi (k := 12) (k' := 0) (by simp [wordOffset]) (by simp [wordOffset]) (by simp)
  rw [← e] at n1 n2 n3
  simp only [Memory.desc, Memory.word_setWord_same, controlAddr, bufferAddressAddr, nextAddr]
  rw [n1, n2, n3]

theorem Memory.desc_setWord_ne (h : c.wf = true) (m : Memory) (w : Word) (hi : i < ringLen c d) (hi' : i' < ringLen c d')
    {k' : Nat} (hk' : wordOffset k') (hne : (d, i) ≠ (d', i')) :
    (m.setWord (daddr c d' i' + BitVec.ofNat 32 k') w).desc c d i = m.desc c d i := by
  have n0 := Memory.descWord_ne h m w hi hi' (k := 0) (by simp [wordOffset]) hk' (.inl hne)
  have n1 := Memory.descWord_ne h m w hi hi' (k := 4) (by simp [wordOffset]) hk' (.inl hne)
  have n2 := Memory.descWord_ne h m w hi hi' (k := 8) (by simp [wordOffset]) hk' (.inl hne)
  have n3 := Memory.descWord_ne h m w hi hi' (k := 12) (by simp [wordOffset]) hk' (.inl hne)
  rw [← statusAddr_eq] at n0
  simp only [Memory.desc, controlAddr, bufferAddressAddr, nextAddr]
  rw [n0, n1, n2, n3]

theorem Memory.desc_setStatus_ne (h : c.wf = true) (m : Memory) (w : Word) (hi : i < ringLen c d) (hi' : i' < ringLen c d')
    (hne : (d, i) ≠ (d', i')) : (m.setWord (statusAddr c d' i') w).desc c d i = m.desc c d i := by
  rw [statusAddr_eq]
  exact Memory.desc_setWord_ne h m w hi hi' (by simp [wordOffset]) hne

theorem Memory.desc_setControl_same (h : c.wf = true) (m : Memory) (w : Word) (hi : i < ringLen c d) :
    (m.setWord (controlAddr c d i) w).desc c d i = { m.desc c d i with control := w } := by
  have n0 := Memory.descWord_ne h m w hi hi (k := 0) (k' := 4) (by simp [wordOffset]) (by simp [wordOffset]) (by simp)
  have n2 := Memory.descWord_ne h m w hi hi (k := 8) (k' := 4) (by simp [wordOffset]) (by simp [wordOffset]) (by simp)
  have n3 := Memory.descWord_ne h m w hi hi (k := 12) (k' := 4) (by simp [wordOffset]) (by simp [wordOffset]) (by simp)
  rw [← statusAddr_eq] at n0
  simp only [Memory.desc, Memory.word_setWord_same, controlAddr, bufferAddressAddr, nextAddr]
  rw [n0, n2, n3]

theorem Memory.desc_setControl_ne (h : c.wf = true) (m : Memory) (w : Word) (hi : i < ringLen c d) (hi' : i' < ringLen c d')
    (hne : (d, i) ≠ (d', i')) : (m.setWord (controlAddr c d' i') w).desc c d i = m.desc c d i :=
  Memory.desc_setWord_ne h m w hi hi' (k' := 4) (by simp [wordOffset]) hne

theorem Memory.desc_setBufferAddress_same (h : c.wf = true) (m : Memory) (w : Word) (hi : i < ringLen c d) :
    (m.setWord (bufferAddressAddr c d i) w).desc c d i = { m.desc c d i with bufferAddress := w } := by
  have n0 := Memory.descWord_ne h m w hi hi (k := 0) (k' := 8) (by simp [wordOffset]) (by simp [wordOffset]) (by simp)
  have n2 := Memory.descWord_ne h m w hi hi (k := 4) (k' := 8) (by simp [wordOffset]) (by simp [wordOffset]) (by simp)
  have n3 := Memory.descWord_ne h m w hi hi (k := 12) (k' := 8) (by simp [wordOffset]) (by simp [wordOffset]) (by simp)
  rw [← statusAddr_eq] at n0
  simp only [Memory.desc, Memory.word_setWord_same, controlAddr, bufferAddressAddr, nextAddr]
  rw [n0, n2, n3]

theorem Memory.desc_setNext_same (h : c.wf = true) (m : Memory) (w : Word) (hi : i < ringLen c d) :
    (m.setWord (nextAddr c d i) w).desc c d i = { m.desc c d i with next := w } := by
  have n0 := Memory.descWord_ne h m w hi hi (k := 0) (k' := 12) (by simp [wordOffset]) (by simp [wordOffset]) (by simp)
  have n2 := Memory.descWord_ne h m w hi hi (k := 4) (k' := 12) (by simp [wordOffset]) (by simp [wordOffset]) (by simp)
  have n3 := Memory.descWord_ne h m w hi hi (k := 8) (k' := 12) (by simp [wordOffset]) (by simp [wordOffset]) (by simp)
  rw [← statusAddr_eq] at n0
  simp only [Memory.desc, Memory.word_setWord_same, controlAddr, bufferAddressAddr, nextAddr]
  rw [n0, n2, n3]

/-- Bytes written into a buffer slot leave every descriptor alone. -/
theorem Memory.desc_setSlot (h : c.wf = true) (m : Memory) {bs : List Byte} (hi : i < ringLen c d) (hi' : i' < ringLen c d')
    (hb : bs.length ≤ c.slotSize) : (m.setBytes (baddr c d' i') bs).desc c d i = m.desc c d i := by
  have ha := desc_slot_apart h hi hi'
  have hs := (wf_slot h).1
  have hbt : (baddr c d' i').toNat = bufBase c d' + i' * c.slotSize := by
    simpa [slotByteAddr] using slotByte_toNat h hi' (j := 0) (by omega)
  have hend := wf_bufEnd h d'
  have hin := cell_inside (w := c.slotSize) hi'
  have key : ∀ k, k % 4 = 0 → k < 16 → (m.setBytes (baddr c d' i') bs).word (daddr c d i + BitVec.ofNat 32 k) =
      m.word (daddr c d i + BitVec.ofNat 32 k) := by
    intro k k4 k16
    refine Memory.word_setBytes_outside m bs (by omega) (descWord_aligned h d i k4) ?_
    rw [descByte_toNat h hi k16, hbt]
    omega
  have n0 := key 0 rfl (by omega)
  rw [← statusAddr_eq] at n0
  simp only [Memory.desc, controlAddr, bufferAddressAddr, nextAddr]
  rw [n0, key 4 rfl (by omega), key 8 rfl (by omega), key 12 rfl (by omega)]

/-! ## Bytes -/

theorem baddr_toNat (h : c.wf = true) (hi : i < ringLen c d) : (baddr c d i).toNat = bufBase c d + i * c.slotSize := by
  have hs := (wf_slot h).1
  simpa [slotByteAddr] using slotByte_toNat h hi (j := 0) (by omega)

theorem Memory.byte_setWord_notIn (m : Memory) {a x : Addr} (w : Word) (h : a.toNat % 4 = 0) (hx : ¬inWord a x) :
    (m.setWord a w).byte x = m.byte x :=
  Memory.byte_setWord_outside m w h (by unfold inWord at hx; omega)

theorem Memory.byte_setSlot_notIn (h : c.wf = true) (m : Memory) {bs : List Byte} (hi : i < ringLen c d)
    (hb : bs.length ≤ c.slotSize) {x : Addr} (hx : ¬inSlot c d i bs.length x) :
    (m.setBytes (baddr c d i) bs).byte x = m.byte x := by
  have hbt := baddr_toNat h hi
  have hend := wf_bufEnd h d
  have hin := cell_inside (w := c.slotSize) hi
  exact Memory.byte_setBytes_outside m bs (by omega) (by unfold inSlot at hx; omega)

/-- The bytes written into a slot are the bytes read from it. -/
theorem bytesFrom_setSlot (h : c.wf = true) (m : Memory) {bs : List Byte} (hi : i < ringLen c d)
    (hb : bs.length ≤ c.slotSize) : bytesFrom (m.setBytes (baddr c d i) bs) (baddr c d i) bs.length = bs := by
  have hend := wf_bufEnd h d
  have hin := cell_inside (w := c.slotSize) hi
  apply List.ext_getElem
  · simp [bytesFrom_eq]
  · intro j hj hj'
    simp only [bytesFrom_eq, List.getElem_map, List.getElem_range]
    have e : (baddr c d i + BitVec.ofNat 32 j - baddr c d i).toNat = j := by
      have : baddr c d i + BitVec.ofNat 32 j - baddr c d i = BitVec.ofNat 32 j := by bv_omega
      rw [this, BitVec.toNat_ofNat]
      omega
    rw [Memory.byte_setBytes _ _ _ _ (by omega), e, List.getElem?_eq_getElem hj']
    rfl

/-- Writing a descriptor word leaves the bytes of a slot alone. -/
theorem bytesFrom_setDescWord (h : c.wf = true) (m : Memory) (w : Word) (hi : i < ringLen c d) (hi' : i' < ringLen c d')
    {k n : Nat} (hk : wordOffset k) (hn : n ≤ c.slotSize) :
    bytesFrom (m.setWord (daddr c d' i' + BitVec.ofNat 32 k) w) (baddr c d i) n = bytesFrom m (baddr c d i) n := by
  have k4 : k % 4 = 0 ∧ k < 16 := by unfold wordOffset at hk; omega
  have ha := desc_slot_apart h hi' hi
  simp only [bytesFrom_eq]
  apply List.map_congr_left
  intro j hj
  have hj : j < n := List.mem_range.1 hj
  refine Memory.byte_setWord_outside _ _ (descWord_aligned h d' i' k4.1) ?_
  rw [descByte_toNat h hi' k4.2]
  have := slotByte_toNat h hi (j := j) (by omega)
  simp only [slotByteAddr] at this
  omega

end Sys2Proof.Machine
end

