-- ==== Sys2Proof/Laws/Primitives.lean ====
section
/-! SUPPORT. Once for each shared operation over memory: what it answers where memory can be reached, and what it did if it answers
(40_ring_primitives.md R151 to R162, 44_device_agent.md R253 to R255). -/

namespace Sys2Proof.Machine

/-! ## RING_INIT -/

/-- Memory after descriptor `i` is initialised (R151). -/
def initSlotMem (c : Config) (d : Dir) (i : Nat) (m : Memory) : Memory :=
  (((m.setWord (bufferAddressAddr c d i) (baddr c d i)).setWord (nextAddr c d i) (daddr c d ((i + 1) % ringLen c d))).setWord
    (controlAddr c d i) (initControl c d)).setWord (statusAddr c d i) (initStatus c d)

/-- Memory after the descriptors of the indices given are initialised (R151). -/
def initMem (c : Config) (d : Dir) (l : List Nat) (m : Memory) : Memory := l.foldl (fun m i => initSlotMem c d i m) m

theorem initMem_cons (c : Config) (d : Dir) (i : Nat) (rest : List Nat) (m : Memory) :
    initMem c d (i :: rest) m = initMem c d rest (initSlotMem c d i m) := rfl

theorem ringInitSlot_ok {d : Dir} {i : Nat} {s t : State} (h : ringInitSlot d i s = .ok t) :
    t = { s with mem := initSlotMem s.cfg d i s.mem } := by
  simp only [ringInitSlot, run_bind_ok, memWrite32_ok] at h
  obtain ⟨s1, ⟨-, -, rfl⟩, s2, ⟨-, -, rfl⟩, s3, ⟨-, -, rfl⟩, -, -, rfl⟩ := h
  rfl

theorem ringInitSlot_eq {s : State} (h : s.cfg.wf = true) (hr : s.regionValid = true) (d : Dir) (i : Nat) :
    ringInitSlot d i s = .ok { s with mem := initSlotMem s.cfg d i s.mem } := by
  simp only [ringInitSlot, run_bind_ok, memWrite32_ok, mapped_controller]
  exact ⟨_, ⟨hr, bufferAddressAddr_aligned h d i, rfl⟩, _, ⟨hr, nextAddr_aligned h d i, rfl⟩, _,
    ⟨hr, controlAddr_aligned h d i, rfl⟩, hr, statusAddr_aligned h d i, rfl⟩

theorem ringInitSlots_ok {d : Dir} {l : List Nat} {s t : State} (h : ringInitSlots d l s = .ok t) :
    t = { s with mem := initMem s.cfg d l s.mem } := by
  induction l generalizing s with
  | nil => simpa [ringInitSlots, initMem, eq_comm] using h
  | cons i rest ih =>
    simp only [ringInitSlots, run_bind_ok] at h
    obtain ⟨s', h1, h2⟩ := h
    obtain rfl := ringInitSlot_ok h1
    rw [ih h2, initMem_cons]

theorem ringInitSlots_eq {s : State} (h : s.cfg.wf = true) (hr : s.regionValid = true) (d : Dir) (l : List Nat) :
    ringInitSlots d l s = .ok { s with mem := initMem s.cfg d l s.mem } := by
  induction l generalizing s with
  | nil => rfl
  | cons i rest ih =>
    rw [ringInitSlots, ringInitSlot_eq h hr, run_ok_bind]
    rw [ih (s := { s with mem := initSlotMem s.cfg d i s.mem }) h hr, initMem_cons]

theorem ringInit_ok {d : Dir} {s t : State} (h : ringInit d s = .ok t) :
    t = resetCursors d { s with mem := initMem s.cfg d (List.range (ringLen s.cfg d)) s.mem } := by
  simp only [ringInit, run_bind_ok, run_pure, Except.ok.injEq] at h
  obtain ⟨s', h1, rfl⟩ := h
  rw [ringInitSlots_ok h1]

theorem ringInit_eq {s : State} (h : s.cfg.wf = true) (hr : s.regionValid = true) (d : Dir) :
    ringInit d s = .ok (resetCursors d { s with mem := initMem s.cfg d (List.range (ringLen s.cfg d)) s.mem }) := by
  rw [ringInit, ringInitSlots_eq h hr]; rfl

/-- The four words of descriptor `i` after RING_INIT (R151). -/
def initDesc (c : Config) (d : Dir) (i : Nat) : Desc :=
  ⟨initStatus c d, initControl c d, baddr c d i, daddr c d ((i + 1) % ringLen c d)⟩

theorem desc_initSlotMem_same {c : Config} (h : c.wf = true) {d : Dir} {i : Nat} (hi : i < ringLen c d) (m : Memory) :
    (initSlotMem c d i m).desc c d i = initDesc c d i := by
  rw [initSlotMem, Memory.desc_setStatus_same h _ _ hi, Memory.desc_setControl_same h _ _ hi, Memory.desc_setNext_same h _ _ hi,
    Memory.desc_setBufferAddress_same h _ _ hi]
  rfl

theorem desc_initSlotMem_ne {c : Config} (h : c.wf = true) {d d' : Dir} {i i' : Nat} (hi : i < ringLen c d)
    (hi' : i' < ringLen c d') (hne : (d, i) ≠ (d', i')) (m : Memory) :
    (initSlotMem c d' i' m).desc c d i = m.desc c d i := by
  rw [initSlotMem, Memory.desc_setStatus_ne h _ _ hi hi' hne, Memory.desc_setControl_ne h _ _ hi hi' hne]
  rw [show nextAddr c d' i' = daddr c d' i' + BitVec.ofNat 32 12 from rfl,
    Memory.desc_setWord_ne h _ _ hi hi' (by simp [wordOffset]) hne,
    show bufferAddressAddr c d' i' = daddr c d' i' + BitVec.ofNat 32 8 from rfl,
    Memory.desc_setWord_ne h _ _ hi hi' (by simp [wordOffset]) hne]

theorem desc_initMem {c : Config} (h : c.wf = true) {d' : Dir} (l : List Nat) (hl : ∀ j ∈ l, j < ringLen c d') {d : Dir} {i : Nat}
    (hi : i < ringLen c d) (m : Memory) :
    (initMem c d' l m).desc c d i = if d = d' ∧ i ∈ l then initDesc c d i else m.desc c d i := by
  induction l generalizing m with
  | nil => simp [initMem]
  | cons j rest ih =>
    have hj : j < ringLen c d' := hl j (by simp)
    have ih := ih (fun k hk => hl k (by simp [hk])) (initSlotMem c d' j m)
    rw [show initMem c d' (j :: rest) m = initMem c d' rest (initSlotMem c d' j m) from rfl, ih]
    by_cases hd : d = d'
    · subst hd
      by_cases hij : i = j
      · subst hij
        simp [desc_initSlotMem_same h hi]
      · rw [desc_initSlotMem_ne h hi hj (by simpa using hij)]
        simp [hij]
    · rw [desc_initSlotMem_ne h hi hj (by simp [hd])]
      simp [hd]

theorem byte_initSlotMem {c : Config} (h : c.wf = true) {d : Dir} {i : Nat} (hi : i < ringLen c d) (m : Memory) {x : Addr}
    (hx : ¬inDesc c d i x) : (initSlotMem c d i m).byte x = m.byte x := by
  have e0 := daddr_toNat h hi
  have e4 : (controlAddr c d i).toNat = _ := descByte_toNat h hi (k := 4) (by omega)
  have e8 : (bufferAddressAddr c d i).toNat = _ := descByte_toNat h hi (k := 8) (by omega)
  have e12 : (nextAddr c d i).toNat = _ := descByte_toNat h hi (k := 12) (by omega)
  unfold inDesc at hx
  rw [initSlotMem, Memory.byte_setWord_outside _ _ (statusAddr_aligned h d i) (by simp only [statusAddr]; omega),
    Memory.byte_setWord_outside _ _ (controlAddr_aligned h d i) (by omega),
    Memory.byte_setWord_outside _ _ (nextAddr_aligned h d i) (by omega),
    Memory.byte_setWord_outside _ _ (bufferAddressAddr_aligned h d i) (by omega)]

theorem byte_initMem {c : Config} (h : c.wf = true) {d : Dir} (l : List Nat) (hl : ∀ j ∈ l, j < ringLen c d) (m : Memory) {x : Addr}
    (hx : ∀ j ∈ l, ¬inDesc c d j x) : (initMem c d l m).byte x = m.byte x := by
  induction l generalizing m with
  | nil => rfl
  | cons j rest ih =>
    rw [show initMem c d (j :: rest) m = initMem c d rest (initSlotMem c d j m) from rfl,
      ih (fun k hk => hl k (by simp [hk])) _ (fun k hk => hx k (by simp [hk])),
      byte_initSlotMem h (hl j (by simp)) _ (hx j (by simp))]

theorem initMem_wf {c : Config} {d : Dir} (l : List Nat) {m : Memory} (h : m.wf = true) : (initMem c d l m).wf = true := by
  induction l generalizing m with
  | nil => exact h
  | cons j rest ih =>
    exact ih (Memory.setWord_wf _ _ (Memory.setWord_wf _ _ (Memory.setWord_wf _ _ (Memory.setWord_wf _ _ h))))

/-! ## TRY_CLAIM_NEXT_TX -/

/-- The answer of TRY_CLAIM_NEXT_TX (R153). -/
def claimAnswer (s : State) : Option Nat := if s.own .tx s.txClaimCur then none else some s.txClaimCur

theorem tryClaimNextTx_ok {s : State} {r : Option Nat} (h : tryClaimNextTx s = .ok r) :
    s.regionValid = true ∧ r = claimAnswer s := by
  simp only [tryClaimNextTx, run_bind_ok, memRead32_ok, mapped_controller, run_pure, Except.ok.injEq] at h
  obtain ⟨w, ⟨hr, -, rfl⟩, rfl⟩ := h
  exact ⟨hr, rfl⟩

theorem tryClaimNextTx_eq {s : State} (h : s.cfg.wf = true) (hr : s.regionValid = true) :
    tryClaimNextTx s = .ok (claimAnswer s) := by
  have : memRead32 .controller (statusAddr s.cfg .tx s.txClaimCur) s = .ok (s.wordAt (statusAddr s.cfg .tx s.txClaimCur)) :=
    memRead32_ok.2 ⟨by simpa using hr, statusAddr_aligned h _ _, rfl⟩
  simp only [tryClaimNextTx, this]
  rfl

/-! ## SUBMIT_TX -/

/-- Memory after SUBMIT_TX (R155). -/
def submitMem (c : Config) (slot : Nat) (payload : List Byte) (flags : Word) (m : Memory) : Memory :=
  ((m.setBytes (baddr c .tx slot) payload).setWord (controlAddr c .tx slot) (submitControl c flags payload.length)).setWord
    (statusAddr c .tx slot) (txSubmitStatus c)

theorem submitTx_ok {slot : Nat} {payload : List Byte} {flags : Word} {s t : State} (h : submitTx slot payload flags s = .ok t) :
    s.regionValid = true ∧ t = submitBookkeeping slot { s with mem := submitMem s.cfg slot payload flags s.mem } := by
  simp only [submitTx, run_bind_ok, memWrite32_ok, run_pure, Except.ok.injEq] at h
  obtain ⟨s1, h1, s2, ⟨hr, -, rfl⟩, s3, ⟨-, -, rfl⟩, rfl⟩ := h
  obtain rfl := memWriteBytes_ok h1
  exact ⟨by simpa using hr, rfl⟩

theorem submitTx_eq {s : State} (h : s.cfg.wf = true) (hr : s.regionValid = true) (slot : Nat) (payload : List Byte) (flags : Word) :
    submitTx slot payload flags s =
      .ok (submitBookkeeping slot { s with mem := submitMem s.cfg slot payload flags s.mem }) := by
  simp only [submitTx, run_bind_ok, memWrite32_ok, run_pure, Except.ok.injEq]
  exact ⟨_, memWriteBytes_of_mapped (by simpa using hr) _ _, _, ⟨by simpa using hr, controlAddr_aligned h _ _, rfl⟩, _,
    ⟨by simpa using hr, statusAddr_aligned h _ _, rfl⟩, rfl⟩

theorem desc_submitMem_same {c : Config} (h : c.wf = true) {slot : Nat} (hi : slot < c.nTx) {payload : List Byte}
    (hb : payload.length ≤ c.slotSize) (flags : Word) (m : Memory) :
    (submitMem c slot payload flags m).desc c .tx slot =
      { m.desc c .tx slot with status := txSubmitStatus c, control := submitControl c flags payload.length } := by
  have hi' : slot < ringLen c .tx := hi
  rw [submitMem, Memory.desc_setStatus_same h _ _ hi', Memory.desc_setControl_same h _ _ hi', Memory.desc_setSlot h _ hi' hi' hb]

theorem desc_submitMem_ne {c : Config} (h : c.wf = true) {slot : Nat} (hs : slot < c.nTx) {payload : List Byte}
    (hb : payload.length ≤ c.slotSize) (flags : Word) (m : Memory) {d : Dir} {i : Nat} (hi : i < ringLen c d)
    (hne : (d, i) ≠ (.tx, slot)) : (submitMem c slot payload flags m).desc c d i = m.desc c d i := by
  have hs' : slot < ringLen c .tx := hs
  rw [submitMem, Memory.desc_setStatus_ne h _ _ hi hs' hne, Memory.desc_setControl_ne h _ _ hi hs' hne,
    Memory.desc_setSlot h _ hi hs' hb]

theorem slot_submitMem {c : Config} (h : c.wf = true) {slot : Nat} (hs : slot < c.nTx) {payload : List Byte}
    (hb : payload.length ≤ c.slotSize) (flags : Word) (m : Memory) :
    bytesFrom (submitMem c slot payload flags m) (baddr c .tx slot) payload.length = payload := by
  have hs' : slot < ringLen c .tx := hs
  rw [submitMem, statusAddr_eq, bytesFrom_setDescWord h _ _ hs' hs' (by simp [wordOffset]) hb,
    show controlAddr c .tx slot = daddr c .tx slot + BitVec.ofNat 32 4 from rfl,
    bytesFrom_setDescWord h _ _ hs' hs' (by simp [wordOffset]) hb, bytesFrom_setSlot h _ hs' hb]

theorem byte_submitMem {c : Config} (h : c.wf = true) {slot : Nat} (hs : slot < c.nTx) {payload : List Byte}
    (hb : payload.length ≤ c.slotSize) (flags : Word) (m : Memory) {x : Addr} (h0 : ¬inWord (statusAddr c .tx slot) x)
    (h4 : ¬inWord (controlAddr c .tx slot) x) (hx : ¬inSlot c .tx slot payload.length x) :
    (submitMem c slot payload flags m).byte x = m.byte x := by
  rw [submitMem, Memory.byte_setWord_notIn _ _ (statusAddr_aligned h _ _) h0,
    Memory.byte_setWord_notIn _ _ (controlAddr_aligned h _ _) h4, Memory.byte_setSlot_notIn h _ hs hb hx]

theorem submitMem_wf {c : Config} {slot : Nat} {payload : List Byte} {flags : Word} {m : Memory} (h : m.wf = true) :
    (submitMem c slot payload flags m).wf = true :=
  Memory.setWord_wf _ _ (Memory.setWord_wf _ _ (Memory.setBytes_wf _ _ h))

/-! ## RECLAIM_TX_COMPLETED -/

/-- The reclaim cursor after `n` slots (R158). -/
def reclaimCursor (c : Config) (cur : Nat) : Nat → Nat
  | 0 => cur
  | n + 1 => reclaimCursor c (advance cur c.nTx) n

theorem reclaimCursor_eq {c : Config} {cur : Nat} (h : cur < c.nTx) (n : Nat) : reclaimCursor c cur n = (cur + n) % c.nTx := by
  induction n generalizing cur with
  | zero => simp [reclaimCursor, Nat.mod_eq_of_lt h]
  | succ n ih =>
    have hn : 0 < c.nTx := by omega
    rw [reclaimCursor, ih (cur := advance cur c.nTx) (Nat.mod_lt _ hn), advance, Nat.mod_add_mod]
    congr 1
    omega

/-- What the reclaim scan does (R158): it passes software-owned slots in ring order and stops at the first device-owned one, or when
the window is empty. -/
theorem reclaimLoop_ok {s t : State} {m n : Nat} (hm : s.txInflight = m) (h : reclaimLoop s m = .ok (t, n)) :
    n ≤ m ∧ t = { s with txReclaimCur := reclaimCursor s.cfg s.txReclaimCur n, txInflight := m - n } ∧
    (∀ j, j < n → s.own .tx (reclaimCursor s.cfg s.txReclaimCur j) = false) ∧
    (n < m → s.own .tx (reclaimCursor s.cfg s.txReclaimCur n) = true) := by
  induction m generalizing s t n with
  | zero =>
    simp only [reclaimLoop, run_pure, Except.ok.injEq, Prod.mk.injEq] at h
    obtain ⟨rfl, rfl⟩ := h
    refine ⟨Nat.le_refl _, ?_, by simp, by simp⟩
    simp [reclaimCursor, ← hm]
  | succ m ih =>
    simp only [reclaimLoop, run_bind_ok, memRead32_ok] at h
    obtain ⟨w, ⟨-, -, rfl⟩, h⟩ := h
    split at h
    · rename_i hown
      simp only [run_pure, Except.ok.injEq, Prod.mk.injEq] at h
      obtain ⟨rfl, rfl⟩ := h
      exact ⟨by omega, by simp [reclaimCursor, ← hm], by simp, fun _ => hown⟩
    · rename_i hown
      simp only [run_bind_ok, run_pure, Except.ok.injEq, Prod.mk.injEq] at h
      obtain ⟨⟨t', n'⟩, h1, rfl, rfl⟩ := h
      obtain ⟨hle, rfl, hpass, hstop⟩ := ih rfl h1
      refine ⟨by simp only; omega, ?_, ?_, ?_⟩
      · simp [reclaimCursor]
      · intro j hj
        cases j with
        | zero => simpa [reclaimCursor, State.own] using hown
        | succ j => exact hpass j (by simp only at hj; omega)
      · intro hlt
        exact hstop (by simp only at hlt; omega)

theorem reclaimLoop_total {s : State} (h : s.cfg.wf = true) (hr : s.regionValid = true) (m : Nat) :
    ∃ r, reclaimLoop s m = .ok r := by
  induction m generalizing s with
  | zero => exact ⟨_, rfl⟩
  | succ m ih =>
    have e : memRead32 .controller (statusAddr s.cfg .tx s.txReclaimCur) s = .ok (s.wordAt (statusAddr s.cfg .tx s.txReclaimCur)) :=
      memRead32_ok.2 ⟨by simpa using hr, statusAddr_aligned h _ _, rfl⟩
    simp only [reclaimLoop, e, run_ok_bind]
    split
    · exact ⟨_, rfl⟩
    · obtain ⟨r, hr'⟩ := ih (s := { s with txReclaimCur := advance s.txReclaimCur s.cfg.nTx, txInflight := m }) h hr
      exact ⟨_, by rw [hr']; rfl⟩

/-- The state after RECLAIM_TX_COMPLETED passed `n` slots (R158). -/
def reclaimed (n : Nat) (s : State) : State :=
  countReclaimed n { s with txReclaimCur := reclaimCursor s.cfg s.txReclaimCur n, txInflight := s.txInflight - n }

theorem reclaimTxCompleted_ok {s : State} {r : State × Nat} (h : reclaimTxCompleted s = .ok r) :
    r.1 = reclaimed r.2 s ∧ r.2 ≤ s.txInflight ∧
    (∀ j, j < r.2 → s.own .tx (reclaimCursor s.cfg s.txReclaimCur j) = false) ∧
    (r.2 < s.txInflight → s.own .tx (reclaimCursor s.cfg s.txReclaimCur r.2) = true) := by
  simp only [reclaimTxCompleted, run_bind_ok, run_pure, Except.ok.injEq] at h
  obtain ⟨⟨t, n⟩, h1, rfl⟩ := h
  obtain ⟨hle, rfl, hpass, hstop⟩ := reclaimLoop_ok rfl h1
  exact ⟨rfl, hle, hpass, hstop⟩

theorem reclaimTxCompleted_total {s : State} (h : s.cfg.wf = true) (hr : s.regionValid = true) :
    ∃ r, reclaimTxCompleted s = .ok r := by
  obtain ⟨r, hr'⟩ := reclaimLoop_total h hr s.txInflight
  exact ⟨_, by rw [reclaimTxCompleted, hr']; rfl⟩

/-! ## RX_TAKE and RX_RETURN -/

/-- The status word of the slot at the RX cursor. -/
def rxStatus (s : State) : Word := s.wordAt (statusAddr s.cfg .rx s.rxCur)

/-- The state and answer of RX_TAKE (R161). -/
def takeAnswer (s : State) : State × RxTake :=
  if s.own .rx s.rxCur then ({ s with reapReturned := 0 }, .empty)
  else if s.cfg.slotSize < frameLen s.cfg (rxStatus s) then (countRxFault { s with rxHold := true }, .oversize)
  else ({ s with rxHold := true }, .frame (bytesFrom s.mem (baddr s.cfg .rx s.rxCur) (frameLen s.cfg (rxStatus s))))

theorem rxTake_ok {s : State} {r : State × RxTake} (h : rxTake s = .ok r) : s.regionValid = true ∧ r = takeAnswer s := by
  simp only [rxTake, run_bind_ok, memRead32_ok, mapped_controller] at h
  obtain ⟨w, ⟨hr, -, rfl⟩, h⟩ := h
  refine ⟨hr, ?_⟩
  unfold takeAnswer
  split at h
  · rename_i ho
    rw [if_pos (by simpa [State.own] using ho)]
    simpa [eq_comm] using h
  · rename_i ho
    rw [if_neg (by simpa [State.own] using ho)]
    split at h
    · rename_i hl
      rw [if_pos (by simpa [rxStatus] using hl)]
      simpa [eq_comm] using h
    · rename_i hl
      rw [if_neg (by simpa [rxStatus] using hl)]
      simp only [run_bind_ok, run_pure, Except.ok.injEq] at h
      obtain ⟨l, hb, rfl⟩ := h
      rw [memReadBytes_ok hb]
      rfl

theorem rxTake_eq {s : State} (h : s.cfg.wf = true) (hr : s.regionValid = true) : rxTake s = .ok (takeAnswer s) := by
  have e : memRead32 .controller (statusAddr s.cfg .rx s.rxCur) s = .ok (rxStatus s) :=
    memRead32_ok.2 ⟨by simpa using hr, statusAddr_aligned h _ _, rfl⟩
  have eb : ∀ n, memReadBytes .controller (baddr s.cfg .rx s.rxCur) { s with rxHold := true } n =
      .ok (bytesFrom s.mem (baddr s.cfg .rx s.rxCur) n) := fun n => memReadBytes_of_mapped (by simpa using hr) _ _
  simp only [rxTake, e, run_ok_bind, takeAnswer, order_eq, run_pure, eb]
  have ho : ownOf s.cfg (rxStatus s) = s.own .rx s.rxCur := rfl
  rw [ho]
  split
  · rfl
  · split <;> rfl

/-- Memory after RX_RETURN (R162). -/
def returnMem (c : Config) (cur : Nat) (m : Memory) : Memory := m.setWord (statusAddr c .rx cur) (rxArmStatus c)

/-- The state after RX_RETURN (R162). -/
def returned (s : State) : State :=
  { s with mem := returnMem s.cfg s.rxCur s.mem, rxCur := advance s.rxCur s.cfg.nRx, rxHold := false,
           reapReturned := s.reapReturned + 1 }

theorem rxReturn_ok {s t : State} (h : rxReturn s = .ok t) : s.regionValid = true ∧ t = returned s := by
  simp only [rxReturn, run_bind_ok, memWrite32_ok, run_pure, Except.ok.injEq] at h
  obtain ⟨s', ⟨hr, -, rfl⟩, rfl⟩ := h
  exact ⟨by simpa using hr, rfl⟩

theorem rxReturn_eq {s : State} (h : s.cfg.wf = true) (hr : s.regionValid = true) : rxReturn s = .ok (returned s) := by
  have e : memWrite32 .controller (statusAddr s.cfg .rx s.rxCur) (rxArmStatus s.cfg) (order s) =
      .ok { s with mem := returnMem s.cfg s.rxCur s.mem } :=
    memWrite32_ok.2 ⟨by simpa using hr, statusAddr_aligned h _ _, rfl⟩
  simp only [rxReturn, e]
  rfl

/-! ## Device moves -/

theorem devReadDesc_ok {d : Dir} {i : Nat} {s : State} {v : Desc} (h : devReadDesc d i s = .ok v) : v = s.desc d i := by
  simp only [devReadDesc, run_bind_ok, memRead32_ok, run_pure, Except.ok.injEq] at h
  obtain ⟨w0, ⟨-, -, rfl⟩, w1, ⟨-, -, rfl⟩, w2, ⟨-, -, rfl⟩, w3, ⟨-, -, rfl⟩, rfl⟩ := h
  rfl

/-- The Device reads the four words of any descriptor (20_memory.md R90). -/
theorem devReadDesc_eq {s : State} (h : s.cfg.wf = true) (d : Dir) (i : Nat) : devReadDesc d i s = .ok (s.desc d i) := by
  simp only [devReadDesc, run_bind_ok, memRead32_ok, run_pure, Except.ok.injEq]
  exact ⟨_, ⟨by simp, statusAddr_aligned h d i, rfl⟩, _, ⟨by simp, controlAddr_aligned h d i, rfl⟩, _,
    ⟨by simp, bufferAddressAddr_aligned h d i, rfl⟩, _, ⟨by simp, nextAddr_aligned h d i, rfl⟩, rfl⟩

/-- The state after DEV_TX_COMPLETE (44_device_agent.md R253). -/
def txCompleted (flags : Word) (s : State) : State :=
  { s with
    wire := s.wire ++ [bytesFrom s.mem (s.wordAt (bufferAddressAddr s.cfg .tx s.devTxCur))
      (sizeOf s.cfg (s.wordAt (controlAddr s.cfg .tx s.devTxCur)))]
    mem := s.mem.setWord (statusAddr s.cfg .tx s.devTxCur) (txDoneStatus s.cfg flags)
    devTxCur := advance s.devTxCur s.cfg.nTx }

theorem devTxComplete_ok {flags : Word} {s t : State} (h : devTxComplete flags s = .ok t) :
    deviceActive s = true ∧ s.own .tx s.devTxCur = true ∧ t = txCompleted flags s := by
  unfold devTxComplete at h
  split at h
  · rename_i hen
    simp only [Bool.and_eq_true] at hen
    simp only [run_bind_ok, memWrite32_ok, run_pure, Except.ok.injEq] at h
    obtain ⟨desc, hd, frame, hf, s1, ⟨-, -, rfl⟩, rfl⟩ := h
    obtain rfl := devReadDesc_ok hd
    rw [memReadBytes_ok hf]
    exact ⟨hen.1, hen.2, rfl⟩
  · simp at h

theorem devTxComplete_eq {s : State} (h : s.cfg.wf = true) (ha : deviceActive s = true) (ho : s.own .tx s.devTxCur = true)
    (flags : Word) : devTxComplete flags s = .ok (txCompleted flags s) := by
  unfold devTxComplete
  rw [if_pos (by simp [ha, ho])]
  simp only [run_bind_ok, memWrite32_ok, run_pure, Except.ok.injEq]
  exact ⟨_, devReadDesc_eq h _ _, _, memReadBytes_of_mapped (by simp) _ _, _,
    ⟨by simp, statusAddr_aligned h _ _, rfl⟩, rfl⟩

/-- The state after DEV_RX_FILL (44_device_agent.md R255). -/
def rxFilled (data : List Byte) (len : Nat) (flags : Word) (s : State) : State :=
  { s with
    mem := (s.mem.setBytes (s.wordAt (bufferAddressAddr s.cfg .rx s.devRxCur)) data).setWord
      (statusAddr s.cfg .rx s.devRxCur) (rxFillStatus s.cfg flags len)
    devRxCur := advance s.devRxCur s.cfg.nRx }

theorem devRxFill_ok {data : List Byte} {len : Nat} {flags : Word} {s t : State} (h : devRxFill data len flags s = .ok t) :
    deviceActive s = true ∧ s.own .rx s.devRxCur = true ∧ fillAllowed s.cfg data len = true ∧ t = rxFilled data len flags s := by
  unfold devRxFill at h
  split at h
  · rename_i hen
    simp only [Bool.and_eq_true] at hen
    split at h
    · rename_i hf
      simp only [run_bind_ok, memWrite32_ok, run_pure, Except.ok.injEq] at h
      obtain ⟨desc, hd, s1, h1, s2, ⟨-, -, rfl⟩, rfl⟩ := h
      obtain rfl := devReadDesc_ok hd
      obtain rfl := memWriteBytes_ok h1
      exact ⟨hen.1, hen.2, hf, rfl⟩
    · simp at h
  · simp at h

theorem devRxFill_eq {s : State} (h : s.cfg.wf = true) (ha : deviceActive s = true) (ho : s.own .rx s.devRxCur = true)
    {data : List Byte} {len : Nat} (hf : fillAllowed s.cfg data len = true) (flags : Word) :
    devRxFill data len flags s = .ok (rxFilled data len flags s) := by
  unfold devRxFill
  rw [if_pos (by simp [ha, ho]), if_pos hf]
  simp only [run_bind_ok, memWrite32_ok, run_pure, Except.ok.injEq]
  exact ⟨_, devReadDesc_eq h _ _, _, memWriteBytes_of_mapped (by simp) _ _, _,
    ⟨by simp, statusAddr_aligned h _ _, rfl⟩, rfl⟩

end Sys2Proof.Machine
end

