-- ==== Sys2Proof/Laws/Exec.lean ====
section
/-! SUPPORT. Once for each operation: what it did if it answered a next state, and the step taken apart the same way. -/

namespace Sys2Proof.Machine

/-- The bookkeeping of SUBMIT_TX, field by field (40_ring_primitives.md R156). -/
theorem submitBookkeeping_eq (slot : Nat) (s : State) : submitBookkeeping slot s = { s with
    txClaimCur := (slot + 1) % s.cfg.nTx
    txReclaimCur := if s.txInflight = s.cfg.nTx then (s.txReclaimCur + 1) % s.cfg.nTx else s.txReclaimCur
    txInflight := if s.txInflight = s.cfg.nTx then s.txInflight else s.txInflight + 1
    txReclaimedCount :=
      if s.txInflight = s.cfg.nTx then (s.txReclaimedCount + 1) % 2 ^ s.cfg.cntW else s.txReclaimedCount } := by
  unfold submitBookkeeping growWindow
  by_cases h : s.txInflight = s.cfg.nTx
  · simp only [if_pos h]; rfl
  · simp only [if_neg h]; rfl

theorem slotBytes_eq (s : State) (d : Dir) (i n : Nat) : s.slotBytes d i n = bytesFrom s.mem (baddr s.cfg d i) n := by
  rw [bytesFrom_eq]; rfl

/-! The three answers of RX_TAKE (40_ring_primitives.md R161). -/

theorem takeAnswer_empty {s : State} (h : s.own .rx s.rxCur = true) : takeAnswer s = ({ s with reapReturned := 0 }, .empty) := by
  rw [takeAnswer, if_pos h]

theorem takeAnswer_oversize {s : State} (h : s.own .rx s.rxCur = false) (hl : s.cfg.slotSize < frameLen s.cfg (rxStatus s)) :
    takeAnswer s = (countRxFault { s with rxHold := true }, .oversize) := by
  rw [takeAnswer, if_neg (by simp [h]), if_pos hl]

theorem takeAnswer_frame {s : State} (h : s.own .rx s.rxCur = false) (hl : frameLen s.cfg (rxStatus s) ≤ s.cfg.slotSize) :
    takeAnswer s = ({ s with rxHold := true }, .frame (s.slotBytes .rx s.rxCur (frameLen s.cfg (rxStatus s)))) := by
  rw [takeAnswer, if_neg (by simp [h]), if_neg (Nat.not_lt.2 hl), slotBytes_eq]

/-- What RX_TAKE can answer. -/
theorem takeAnswer_cases (s : State) :
    (takeAnswer s = ({ s with reapReturned := 0 }, .empty) ∧ s.own .rx s.rxCur = true) ∨
    (takeAnswer s = (countRxFault { s with rxHold := true }, .oversize) ∧ s.own .rx s.rxCur = false) ∨
    (∃ bs, takeAnswer s = ({ s with rxHold := true }, .frame bs) ∧ s.own .rx s.rxCur = false) := by
  unfold takeAnswer
  split
  · exact .inl ⟨rfl, by assumption⟩
  · rename_i ho
    simp only [Bool.not_eq_true] at ho
    split
    · exact .inr (.inl ⟨rfl, ho⟩)
    · exact .inr (.inr ⟨_, rfl, ho⟩)

/-- The state after RECLAIM_TX_COMPLETED, field by field (40_ring_primitives.md R158). -/
theorem reclaimed_eq {s : State} (hc : s.txReclaimCur < s.cfg.nTx) (n : Nat) : reclaimed n s = { s with
    txReclaimCur := (s.txReclaimCur + n) % s.cfg.nTx, txInflight := s.txInflight - n,
    txReclaimedCount := (s.txReclaimedCount + n) % 2 ^ s.cfg.cntW } := by
  unfold reclaimed
  rw [reclaimCursor_eq hc]
  rfl

/-- RX_RETURN arms the descriptor (40_ring_primitives.md R162). -/
theorem desc_returned {s : State} (hw : s.cfg.wf = true) (hc : s.rxCur < s.cfg.nRx) :
    (returned s).desc .rx s.rxCur = { s.desc .rx s.rxCur with status := rxArmStatus s.cfg } :=
  Memory.desc_setStatus_same hw (d := .rx) s.mem (rxArmStatus s.cfg) hc

theorem byte_returned {s : State} (hw : s.cfg.wf = true) {x : Addr} (hx : ¬inWord (statusAddr s.cfg .rx s.rxCur) x) :
    (returned s).byteAt x = s.byteAt x :=
  Memory.byte_setWord_notIn _ _ (statusAddr_aligned hw _ _) hx

/-! The three cases of LINK_UPDATE (42_link_monitor.md R211). -/

theorem linkUpdate_same {s : State} {raw : Word} (h : raw.getLsbD s.cfg.linkUpBit = s.online) :
    linkUpdate raw s = { s with linkRawLast := raw } := by
  unfold linkUpdate linkEdge latchRaw linkUpOf
  rw [if_pos h]

theorem linkUpdate_up {s : State} {raw : Word} (h : raw.getLsbD s.cfg.linkUpBit = true) (h2 : s.online = false) :
    linkUpdate raw s = { s with
      linkRawLast := raw, online := true, macConfig := s.macConfig ||| macEnMask s.cfg,
      out := s.out ++ [.macEnSet true true] ++ if s.bound then [.linkNotify s.clientId true] else [] } := by
  unfold linkUpdate linkEdge latchRaw linkUpOf
  rw [if_neg (by simp [h, h2]), if_pos h]
  unfold linkUpEdge notifyLink
  cases s.bound <;> simp [emit, macSetBits, regWrite]

theorem linkUpdate_down {s : State} {raw : Word} (h : raw.getLsbD s.cfg.linkUpBit = false) (h2 : s.online = true) :
    linkUpdate raw s = { s with
      linkRawLast := raw, online := false, out := s.out ++ if s.bound then [.linkNotify s.clientId false] else [] } := by
  unfold linkUpdate linkEdge latchRaw linkUpOf
  rw [if_neg (by simp [h, h2]), if_neg (by simp [h])]
  unfold linkDownEdge notifyLink
  cases s.bound <;> simp [emit]

/-- LINK_UPDATE changes the link state, the MAC register and the output history only (42_link_monitor.md R211). -/
theorem linkUpdate_frame (raw : Word) (s : State) : linkUpdate raw s = { s with
    online := (linkUpdate raw s).online, linkRawLast := raw, macConfig := (linkUpdate raw s).macConfig,
    out := (linkUpdate raw s).out } := by
  cases h : raw.getLsbD s.cfg.linkUpBit <;> cases h2 : s.online
  · rw [linkUpdate_same (by rw [h, h2])]
  · rw [linkUpdate_down h h2]
  · rw [linkUpdate_up h h2]
  · rw [linkUpdate_same (by rw [h, h2])]

/-! ## Client commands -/

/-- The state INIT leaves when it succeeds (43_engine_facade.md R221). -/
def initialised (s : State) : State :=
  result .ok (startEngine (pointDevice (resetCursors .rx { resetCursors .tx { s with regionValid := true } with
    mem := initMem s.cfg .rx (List.range s.cfg.nRx) (initMem s.cfg .tx (List.range s.cfg.nTx) s.mem) })))

theorem execInit_ok {s t : State} (h : execInit s = .next t) :
    (s.life ≠ .uninit ∧ t = result .badState s) ∨ (s.life = .uninit ∧ s.bus.allocOk = false ∧ t = result .noMemory s) ∨
    (s.life = .uninit ∧ s.bus.allocOk = true ∧ t = initialised s) := by
  simp only [execInit, finish_next] at h
  split at h
  · rename_i hl
    left
    exact ⟨hl, by simpa [eq_comm] using h⟩
  · rename_i hl
    simp only [ne_eq, Decidable.not_not] at hl
    split at h
    · rename_i ha
      right; left
      exact ⟨hl, ha, by simpa [eq_comm] using h⟩
    · rename_i ha
      right; right
      simp only [run_bind_ok, run_pure, Except.ok.injEq] at h
      obtain ⟨s1, h1, s2, h2, rfl⟩ := h
      obtain rfl := ringInit_ok h1
      obtain rfl := ringInit_ok h2
      exact ⟨hl, by simpa using ha, rfl⟩

theorem execInit_eq {s : State} (h : s.cfg.wf = true) (hl : s.life = .uninit) (ha : s.bus.allocOk = true) :
    execInit s = .next (initialised s) := by
  unfold execInit
  rw [if_neg (not_not.2 hl), if_neg (by simp [ha]), ringInit_eq (s := { s with regionValid := true }) h rfl, run_ok_bind,
    ringInit_eq (by exact h) (by rfl)]
  rfl

theorem execStart_ok {id : Arg} {s t : State} (h : execStart id s = .next t) :
    (s.life ≠ .running ∧ t = result .badState s) ∨ (s.life = .running ∧ s.bound = true ∧ t = result .alreadyBound s) ∨
    (s.life = .running ∧ s.bound = false ∧
      t = result .ok (emit (.linkNotify id s.online) { s with bound := true, clientId := id })) := by
  simp only [execStart, finish_next, run_pure, Except.ok.injEq] at h
  subst h
  split
  · rename_i hl; exact .inl ⟨hl, rfl⟩
  · rename_i hl
    simp only [ne_eq, Decidable.not_not] at hl
    split
    · rename_i hb; exact .inr (.inl ⟨hl, hb, rfl⟩)
    · rename_i hb; exact .inr (.inr ⟨hl, by simpa using hb, rfl⟩)

theorem execStop_ok {s t : State} (h : execStop s = .next t) :
    (s.life ≠ .running ∧ t = result .ok s) ∨ (s.life = .running ∧ t = stopBegin s) := by
  simp only [execStop, finish_next, run_pure, Except.ok.injEq] at h
  subst h
  split
  · rename_i hl; exact .inl ⟨hl, rfl⟩
  · rename_i hl; exact .inr ⟨by simpa using hl, rfl⟩

/-- The state the second half of STOP leaves (43_engine_facade.md R228). -/
def stopped (s : State) : State := result .ok { releaseRegion (quiesceDevice s) with life := .stopped }

/-- The second half of STOP, field by field (43_engine_facade.md R228). -/
theorem stopped_eq (s : State) : stopped s = { s with
    macConfig := s.macConfig &&& ~~~macEnMask s.cfg, devQuiesced := true, regionValid := false, life := .stopped,
    result := ⟨.ok, .zero⟩, out := s.out ++ [.macEnSet false false, .regionRelease, .result .ok .zero] } := by
  simp [stopped, result, resultWith, emit, releaseRegion, quiesceDevice, macClearBits, regWrite]

/-- The reset event, field by field (70_reset_and_hazards.md R320, R321). -/
theorem applyRst_eq (s : State) : applyRst s = { s with
    txClaimCur := 0, txReclaimCur := 0, txInflight := 0, rxCur := 0, rxFaultCount := 0, errCount := 0, txReclaimedCount := 0,
    rxDropCount := 0, isrLatch := 0#32, online := false, linkRawLast := 0#32, bound := false, clientId := 0#24,
    life := .uninit, wstate := .idle, wphase := .rdclr, rxHold := false, irqValid := false, regionValid := false,
    irqPending := false, macConfig := s.macConfig &&& ~~~macEnMask s.cfg, result := ⟨.ok, .zero⟩, devQuiesced := true,
    out := [], wire := [], ret := .nothing, inside := none,
    reapReturned := 0 } := rfl

theorem stopFinish_ok {s t : State} (h : stopFinish s = .next t) :
    s.life = .stopping ∧ s.wstate = .terminated ∧ t = stopped s := by
  simp only [stopFinish, finish_next] at h
  split at h
  · rename_i he
    simp only [stopFinishEnabled, Bool.and_eq_true, decide_eq_true_eq] at he
    exact ⟨he.1, he.2, by simpa [eq_comm, stopped] using h⟩
  · simp at h

/-- The state QUEUE_TX leaves on a claimed slot after SUBMIT_TX, before the Device moves at its split point. -/
def queued (payload : List Byte) (s : State) : State :=
  submitBookkeeping s.txClaimCur { nextDraw s with mem := submitMem s.cfg s.txClaimCur payload (txf s.cfg) s.mem }

theorem queued_eq (payload : List Byte) (s : State) : queued payload s = { s with
    drawCtr := s.drawCtr + 1
    mem := submitMem s.cfg s.txClaimCur payload (txf s.cfg) s.mem
    txClaimCur := (s.txClaimCur + 1) % s.cfg.nTx
    txReclaimCur := if s.txInflight = s.cfg.nTx then (s.txReclaimCur + 1) % s.cfg.nTx else s.txReclaimCur
    txInflight := if s.txInflight = s.cfg.nTx then s.txInflight else s.txInflight + 1
    txReclaimedCount :=
      if s.txInflight = s.cfg.nTx then (s.txReclaimedCount + 1) % 2 ^ s.cfg.cntW else s.txReclaimedCount } := by
  unfold queued
  rw [submitBookkeeping_eq]
  rfl

/-- The state INIT leaves, field by field. -/
theorem initialised_eq (s : State) : initialised s = { s with
    regionValid := true, txClaimCur := 0, txReclaimCur := 0, txInflight := 0, rxCur := 0, devTxCur := 0, devRxCur := 0,
    devQuiesced := false, irqValid := true, life := .running, wstate := .waiting, result := ⟨.ok, .zero⟩,
    out := s.out ++ [.result .ok .zero]
    mem := initMem s.cfg .rx (List.range s.cfg.nRx) (initMem s.cfg .tx (List.range s.cfg.nTx) s.mem) } := by
  simp [initialised, result, resultWith, emit, startEngine, pointDevice, resetCursors]

theorem execQueueTx_ok {len : Arg} {s t : State} (h : execQueueTx len s = .next t) :
    (s.life ≠ .running ∧ t = result .unavailable s) ∨
    (s.life = .running ∧ s.online = false ∧ t = result .unavailable s) ∨
    (s.life = .running ∧ s.online = true ∧ s.cfg.slotSize < len.toNat ∧ t = result .invalidArgs s) ∨
    (s.life = .running ∧ s.online = true ∧ len.toNat ≤ s.cfg.slotSize ∧ s.regionValid = true ∧ s.own .tx s.txClaimCur = true ∧
      t = result .unavailable s) ∨
    (s.life = .running ∧ s.online = true ∧ len.toNat ≤ s.cfg.slotSize ∧ s.regionValid = true ∧ s.own .tx s.txClaimCur = false ∧
      ∃ u, runDevMoves s.bus.split (queued (payloadIn s len.toNat) s) = .ok u ∧ t = result .ok (emit .txDoorbell u)) := by
  simp only [execQueueTx, finish_next] at h
  split at h
  · rename_i hl
    exact .inl ⟨hl, by simpa [eq_comm] using h⟩
  rename_i hl
  simp only [ne_eq, Decidable.not_not] at hl
  split at h
  · rename_i ho
    exact .inr (.inl ⟨hl, ho, by simpa [eq_comm] using h⟩)
  rename_i ho
  simp only [Bool.not_eq_false] at ho
  split at h
  · rename_i hs
    exact .inr (.inr (.inl ⟨hl, ho, hs, by simpa [eq_comm] using h⟩))
  rename_i hs
  have hs := Nat.le_of_not_lt hs
  simp only [run_bind_ok] at h
  obtain ⟨c, hc, h⟩ := h
  obtain ⟨hr, rfl⟩ := tryClaimNextTx_ok hc
  unfold claimAnswer at h
  split at h
  · rename_i hq
    split at hq
    · rename_i hown
      exact .inr (.inr (.inr (.inl ⟨hl, ho, hs, hr, hown, by simpa [eq_comm] using h⟩)))
    · simp at hq
  · rename_i slot hq
    split at hq
    · simp at hq
    · rename_i hown
      simp only [Option.some.injEq] at hq
      subst hq
      simp only [queueOnSlot, run_bind_ok, run_pure, Except.ok.injEq] at h
      obtain ⟨s1, h1, s2, h2, rfl⟩ := h
      obtain ⟨-, rfl⟩ := submitTx_ok h1
      exact .inr (.inr (.inr (.inr ⟨hl, ho, hs, hr, by simpa using hown, s2, h2, rfl⟩)))

theorem execQueueTx_eq {len : Arg} {s u : State} (h : s.cfg.wf = true) (hl : s.life = .running) (ho : s.online = true)
    (hs : len.toNat ≤ s.cfg.slotSize) (hr : s.regionValid = true) (hown : s.own .tx s.txClaimCur = false)
    (hu : runDevMoves s.bus.split (queued (payloadIn s len.toNat) s) = .ok u) :
    execQueueTx len s = .next (result .ok (emit .txDoorbell u)) := by
  simp only [execQueueTx, finish_next, hl, ho, ne_eq, not_true_eq_false, if_false, Bool.true_eq_false, Nat.not_lt.2 hs]
  rw [tryClaimNextTx_eq h hr]
  simp only [claimAnswer, hown, Bool.false_eq_true, if_false, run_ok_bind, queueOnSlot]
  rw [submitTx_eq (s := nextDraw s) h hr]
  simp only [run_ok_bind]
  change (runDevMoves s.bus.split (queued (payloadIn s len.toNat) s) >>= _) = _
  rw [hu]
  rfl

/-! ## Device moves at the split point -/

theorem runDevMove_ok {m : DevMove} {s t : State} (h : runDevMove m s = .ok t) :
    (∃ flags, m = .txComplete flags ∧ deviceActive s = true ∧ s.own .tx s.devTxCur = true ∧ t = txCompleted flags s) ∨
    (∃ data len flags, m = .rxFill data len flags ∧ deviceActive s = true ∧ s.own .rx s.devRxCur = true ∧
      fillAllowed s.cfg data len = true ∧ t = rxFilled data len flags s) ∨
    (∃ bits, m = .setStatus bits ∧ t = devSetStatus bits s) ∨ (∃ raw, m = .linkSet raw ∧ t = devLinkSet raw s) := by
  cases m with
  | txComplete flags => exact .inl ⟨flags, rfl, devTxComplete_ok h⟩
  | rxFill data len flags => exact .inr (.inl ⟨data, len, flags, rfl, devRxFill_ok h⟩)
  | setStatus bits => exact .inr (.inr (.inl ⟨bits, rfl, by simpa [runDevMove, eq_comm] using h⟩))
  | linkSet raw => exact .inr (.inr (.inr ⟨raw, rfl, by simpa [runDevMove, eq_comm] using h⟩))

/-- What is kept by every Device move is kept by all of them. -/
theorem runDevMoves_induct {P : State → Prop} {s : State} (h0 : P s)
    (hm : ∀ m u v, P u → runDevMove m u = .ok v → P v) : ∀ {ms t}, runDevMoves ms s = .ok t → P t := by
  intro ms
  induction ms generalizing s with
  | nil => intro t h; simp only [runDevMoves, run_pure, Except.ok.injEq] at h; exact h ▸ h0
  | cons m rest ih =>
    intro t h
    simp only [runDevMoves, run_bind_ok] at h
    obtain ⟨u, h1, h2⟩ := h
    exact ih (hm m s u h0 h1) h2

/-- Device moves touch shared memory, the Device's own registers and its hidden state only (44_device_agent.md R250). -/
theorem runDevMoves_frame {ms : List DevMove} {s t : State} (h : runDevMoves ms s = .ok t) :
    t = { s with
      mem := t.mem, dmaStatus := t.dmaStatus, irqPending := t.irqPending, linkStatus := t.linkStatus, devTxCur := t.devTxCur,
      devRxCur := t.devRxCur, wire := t.wire } := by
  refine runDevMoves_induct (P := fun t => t = { s with
      mem := t.mem, dmaStatus := t.dmaStatus, irqPending := t.irqPending, linkStatus := t.linkStatus, devTxCur := t.devTxCur,
      devRxCur := t.devRxCur, wire := t.wire }) rfl ?_ h
  intro m u v hu h
  rcases runDevMove_ok h with ⟨_, -, -, -, rfl⟩ | ⟨_, _, _, -, -, -, -, rfl⟩ | ⟨_, -, rfl⟩ | ⟨_, -, rfl⟩ <;> rw [hu] <;> rfl

/-! ## Embedded codes -/

theorem standsInside_iff {k : Caller} {s : State} : standsInside k s = true ↔ s.inside = some k ∧ callerReady k s = true := by
  simp [standsInside]

/-- An embedded code has a next state only inside its caller (42_link_monitor.md R210). -/
theorem whenInside_ok {k : Caller} {s t : State} {r : Run State} :
    whenInside k s r = .ok t ↔ standsInside k s = true ∧ r = .ok t := by
  unfold whenInside
  split <;> simp_all

theorem whenInside_eq {k : Caller} {s : State} (h : standsInside k s = true) (r : Run State) : whenInside k s r = r := if_pos h

theorem whenInside_refused {k : Caller} {s : State} (h : standsInside k s = false) (r : Run State) :
    finish (whenInside k s r) = .refused .notEnabled := by
  simp [whenInside, h, noMove, finish]

theorem callerReady_init {s : State} : callerReady .init s = true ↔ s.life = .uninit ∧ s.regionValid = true := by
  simp [callerReady]

theorem callerReady_queueTx {s : State} :
    callerReady .queueTx s = true ↔ s.life = .running ∧ s.online = true ∧ s.regionValid = true := by
  simp [callerReady, and_assoc]

theorem callerReady_linkPhase {s : State} :
    callerReady .linkPhase s = true ↔ (s.wstate = .processing ∧ s.wphase = .link) ∧ linkChangeOf s.cfg s.isrLatch = true := by
  simp [callerReady, inPhase]

theorem callerReady_rxDrain {s : State} :
    callerReady .rxDrain s = true ↔
      (s.wstate = .processing ∧ s.wphase = .rx) ∧ (s.rxHold = true ∨ rxCompleteOf s.cfg s.isrLatch = true) ∧
      s.regionValid = true := by
  simp [callerReady, inPhase, and_assoc]

theorem callerReady_txReclaimPass {s : State} :
    callerReady .txReclaimPass s = true ↔
      (s.wstate = .processing ∧ s.wphase = .txr) ∧ txCompleteOf s.cfg s.isrLatch = true ∧ s.regionValid = true := by
  simp [callerReady, inPhase, and_assoc]

/-- Every caller but LINK_PHASE stands on a mapped region. -/
theorem standsInside_region {k : Caller} {s : State} (h : standsInside k s = true) (hk : k ≠ .linkPhase) : s.regionValid = true := by
  obtain ⟨-, h⟩ := standsInside_iff.1 h
  cases k with
  | init => exact (callerReady_init.1 h).2
  | queueTx => exact (callerReady_queueTx.1 h).2.2
  | linkPhase => exact absurd rfl hk
  | rxDrain => exact (callerReady_rxDrain.1 h).2.2
  | txReclaimPass => exact (callerReady_txReclaimPass.1 h).2.2

theorem execRingInit_ok {d : Dir} {s t : State} (h : execRingInit d s = .next t) :
    standsInside .init s = true ∧
    t = answerCaller .nothing (resetCursors d { s with mem := initMem s.cfg d (List.range (ringLen s.cfg d)) s.mem }) := by
  simp only [execRingInit, finish_next, whenInside_ok, run_bind_ok, run_pure, Except.ok.injEq] at h
  obtain ⟨hr, s1, h1, rfl⟩ := h
  exact ⟨hr, by rw [ringInit_ok h1]⟩

theorem execTryClaimNextTx_ok {s t : State} (h : execTryClaimNextTx s = .next t) :
    standsInside .queueTx s = true ∧ t = answerCaller (.claim (claimAnswer s)) s := by
  simp only [execTryClaimNextTx, finish_next, whenInside_ok, run_bind_ok, run_pure, Except.ok.injEq] at h
  obtain ⟨hr, r, h1, rfl⟩ := h
  exact ⟨hr, by rw [(tryClaimNextTx_ok h1).2]⟩

/-- What SUBMIT_TX's operands are, as propositions. -/
theorem submitAllowed_iff {s : State} : submitAllowed s = true ↔
    s.bus.slot = s.txClaimCur ∧ s.own .tx s.bus.slot = false ∧ s.bus.payload.length ≤ s.cfg.slotSize ∧
    flagsOnly s.cfg s.bus.flags = true := by
  simp [submitAllowed, and_assoc]

theorem execSubmitTx_ok {s t : State} (h : execSubmitTx s = .next t) :
    standsInside .queueTx s = true ∧ s.bus.slot = s.txClaimCur ∧ s.own .tx s.txClaimCur = false ∧
    s.bus.payload.length ≤ s.cfg.slotSize ∧ flagsOnly s.cfg s.bus.flags = true ∧
    t = answerCaller .nothing (submitBookkeeping s.txClaimCur
      { s with mem := submitMem s.cfg s.txClaimCur s.bus.payload s.bus.flags s.mem }) := by
  simp only [execSubmitTx, finish_next, whenInside_ok] at h
  obtain ⟨hr, h⟩ := h
  split at h
  · rename_i ha
    obtain ⟨h1, h2, h3, h4⟩ := submitAllowed_iff.1 ha
    rw [h1] at h h2
    simp only [run_bind_ok, run_pure, Except.ok.injEq] at h
    obtain ⟨s1, hs1, rfl⟩ := h
    exact ⟨hr, h1, h2, h3, h4, by rw [(submitTx_ok hs1).2]⟩
  · simp at h

theorem execReclaimTxCompleted_ok {s t : State} (h : execReclaimTxCompleted s = .next t) :
    standsInside .txReclaimPass s = true ∧ ∃ n, n ≤ s.txInflight ∧ t = answerCaller (.count n) (reclaimed n s) ∧
    (∀ j, j < n → s.own .tx (reclaimCursor s.cfg s.txReclaimCur j) = false) ∧
    (n < s.txInflight → s.own .tx (reclaimCursor s.cfg s.txReclaimCur n) = true) := by
  simp only [execReclaimTxCompleted, finish_next, whenInside_ok, run_bind_ok, run_pure, Except.ok.injEq] at h
  obtain ⟨hr, r, h1, rfl⟩ := h
  obtain ⟨h2, h3, h4, h5⟩ := reclaimTxCompleted_ok h1
  exact ⟨hr, r.2, h3, by rw [h2], h4, h5⟩

theorem execReapRx_ok {s t : State} (h : execReapRx s = .next t) :
    standsInside .rxDrain s = true ∧
    ((s.rxHold = true ∧ t = answerCaller .nothing (returned s)) ∨
     (s.rxHold = false ∧ t = answerCaller (takeReturn s.reapReturned (takeAnswer s).2) (takeAnswer s).1)) := by
  simp only [execReapRx, finish_next, whenInside_ok] at h
  obtain ⟨hr, h⟩ := h
  refine ⟨hr, ?_⟩
  split at h
  · rename_i hh
    simp only [run_bind_ok, run_pure, Except.ok.injEq] at h
    obtain ⟨s1, h1, rfl⟩ := h
    exact .inl ⟨hh, by rw [(rxReturn_ok h1).2]⟩
  · rename_i hh
    simp only [run_bind_ok, run_pure, Except.ok.injEq] at h
    obtain ⟨r, h1, rfl⟩ := h
    exact .inr ⟨by simpa using hh, by rw [(rxTake_ok h1).2]⟩

theorem execLinkUpdate_ok {s t : State} (h : execLinkUpdate s = .next t) :
    standsInside .linkPhase s = true ∧ s.bus.raw = s.linkStatus ∧ t = answerCaller .nothing (linkUpdate s.bus.raw s) := by
  simp only [execLinkUpdate, finish_next, whenInside_ok] at h
  obtain ⟨hr, h⟩ := h
  split at h
  · rename_i hraw
    exact ⟨hr, hraw, by simpa [eq_comm] using h⟩
  · simp at h

/-! ## Worker steps -/

theorem whenInPhase_ok {p : WPhase} {s t : State} {r : Run State} :
    whenInPhase p s r = .ok t ↔ (s.wstate = .processing ∧ s.wphase = p) ∧ r = .ok t := by
  unfold whenInPhase inPhase
  split <;> simp_all

theorem execIrqWait_ok {s t : State} (h : execIrqWait s = .next t) :
    s.wstate = .waiting ∧
    ((s.irqValid = false ∧ t = { s with wstate := .terminated }) ∨
     (s.irqValid = true ∧ s.irqPending = true ∧ t = enterPass s) ∨
     (s.irqValid = true ∧ s.irqPending = false ∧ t = s)) := by
  simp only [execIrqWait, finish_next] at h
  split at h
  · rename_i hw
    refine ⟨hw, ?_⟩
    split at h
    · rename_i hv; exact .inl ⟨hv, by simpa [eq_comm] using h⟩
    · rename_i hv
      simp only [Bool.not_eq_false] at hv
      split at h
      · rename_i hp; exact .inr (.inl ⟨hv, hp, by simpa [eq_comm] using h⟩)
      · rename_i hp; exact .inr (.inr ⟨hv, by simpa using hp, by simpa [eq_comm] using h⟩)
  · simp at h

theorem execStatusRdclr_ok {s t : State} (h : execStatusRdclr s = .next t) :
    (s.wstate = .processing ∧ s.wphase = .rdclr) ∧ t = toPhase .link (statusReadClear s) := by
  simp only [execStatusRdclr, finish_next, whenInPhase_ok, run_pure, Except.ok.injEq] at h
  exact ⟨h.1, h.2.symm⟩

theorem execLinkPhase_ok {s t : State} (h : execLinkPhase s = .next t) :
    (s.wstate = .processing ∧ s.wphase = .link) ∧
    t = toPhase .rx (if linkChangeOf s.cfg s.isrLatch then linkUpdate s.linkStatus s else s) := by
  simp only [execLinkPhase, finish_next, whenInPhase_ok, run_pure, Except.ok.injEq] at h
  exact ⟨h.1, h.2.symm⟩

theorem execRxDrain_ok {s t : State} (h : execRxDrain s = .next t) :
    (s.wstate = .processing ∧ s.wphase = .rx) ∧
    ((s.rxHold = true ∧ s.regionValid = true ∧ t = emit .rxRearm (returned s)) ∨
     (s.rxHold = false ∧ rxCompleteOf s.cfg s.isrLatch = false ∧ t = toPhase .abn s) ∨
     (s.rxHold = false ∧ rxCompleteOf s.cfg s.isrLatch = true ∧ s.regionValid = true ∧
       t = consume (takeAnswer s).2 (takeAnswer s).1)) := by
  simp only [execRxDrain, finish_next, whenInPhase_ok] at h
  obtain ⟨hp, h⟩ := h
  refine ⟨hp, ?_⟩
  split at h
  · rename_i hh
    simp only [drainReturn, run_bind_ok, run_pure, Except.ok.injEq] at h
    obtain ⟨s1, h1, rfl⟩ := h
    obtain ⟨hr, rfl⟩ := rxReturn_ok h1
    exact .inl ⟨hh, hr, rfl⟩
  · rename_i hh
    simp only [Bool.not_eq_true] at hh
    unfold drainTake at h
    split at h
    · rename_i hc
      simp only [run_bind_ok, run_pure, Except.ok.injEq] at h
      obtain ⟨r, h1, rfl⟩ := h
      obtain ⟨hr, rfl⟩ := rxTake_ok h1
      exact .inr (.inr ⟨hh, hc, hr, rfl⟩)
    · rename_i hc
      exact .inr (.inl ⟨hh, by simpa using hc, by simpa [eq_comm] using h⟩)

/-- RX_DRAIN by its effect: a return, the end of the drain, or a take whose frame is oversize, dropped or delivered. -/
theorem execRxDrain_cases {s t : State} (h : execRxDrain s = .next t) :
    (s.wstate = .processing ∧ s.wphase = .rx) ∧
    ((s.rxHold = true ∧ s.regionValid = true ∧ t = emit .rxRearm (returned s)) ∨
     (s.rxHold = false ∧ ∃ k, t = { s with wphase := .abn, reapReturned := k }) ∨
     (s.rxHold = false ∧ s.regionValid = true ∧ s.own .rx s.rxCur = false ∧
       (t = countRxFault { s with rxHold := true } ∨ t = countRxDrop { s with rxHold := true } ∨
        ∃ bs, s.bound = true ∧ t = emit (.rxDeliver s.clientId bs) { s with rxHold := true }))) := by
  obtain ⟨h1, h2⟩ := execRxDrain_ok h
  refine ⟨h1, ?_⟩
  rcases h2 with h2 | ⟨h2, -, rfl⟩ | ⟨h2, -, h3, rfl⟩
  · exact .inl h2
  · exact .inr (.inl ⟨h2, _, rfl⟩)
  · rcases takeAnswer_cases s with ⟨e, -⟩ | ⟨e, ho⟩ | ⟨bs, e, ho⟩ <;> rw [e]
    · exact .inr (.inl ⟨h2, _, rfl⟩)
    · exact .inr (.inr ⟨h2, h3, ho, .inl rfl⟩)
    · refine .inr (.inr ⟨h2, h3, ho, .inr ?_⟩)
      unfold consume
      simp only
      split
      · rename_i hb
        simp only [Bool.and_eq_true] at hb
        exact .inr ⟨bs, hb.1, rfl⟩
      · exact .inl rfl

theorem execAbnormalCount_ok {s t : State} (h : execAbnormalCount s = .next t) :
    (s.wstate = .processing ∧ s.wphase = .abn) ∧
    t = toPhase .txr (if abnormalOf s.cfg s.isrLatch then countErr s else s) := by
  simp only [execAbnormalCount, finish_next, whenInPhase_ok, run_pure, Except.ok.injEq] at h
  exact ⟨h.1, h.2.symm⟩

theorem execTxReclaimPass_ok {s t : State} (h : execTxReclaimPass s = .next t) :
    (s.wstate = .processing ∧ s.wphase = .txr) ∧
    ((txCompleteOf s.cfg s.isrLatch = false ∧ t = returnFromPass s) ∨
     (txCompleteOf s.cfg s.isrLatch = true ∧ ∃ n, n ≤ s.txInflight ∧ t = returnFromPass (reclaimed n s) ∧
       (∀ j, j < n → s.own .tx (reclaimCursor s.cfg s.txReclaimCur j) = false) ∧
       (n < s.txInflight → s.own .tx (reclaimCursor s.cfg s.txReclaimCur n) = true))) := by
  simp only [execTxReclaimPass, finish_next, whenInPhase_ok] at h
  obtain ⟨hp, h⟩ := h
  refine ⟨hp, ?_⟩
  split at h
  · rename_i hc
    simp only [run_bind_ok, run_pure, Except.ok.injEq] at h
    obtain ⟨r, h1, s1, rfl, rfl⟩ := h
    obtain ⟨h2, h3, h4, h5⟩ := reclaimTxCompleted_ok h1
    exact .inr ⟨hc, r.2, h3, by rw [h2], h4, h5⟩
  · rename_i hc
    simp only [run_pure, run_ok_bind, Except.ok.injEq] at h
    exact .inl ⟨by simpa using hc, h.symm⟩

/-! ## Device moves -/

theorem execDevTxComplete_ok {s t : State} (h : execDevTxComplete s = .next t) :
    deviceActive s = true ∧ s.own .tx s.devTxCur = true ∧ t = txCompleted s.bus.devFlags s :=
  devTxComplete_ok (finish_next.1 h)

theorem execDevRxFill_ok {s t : State} (h : execDevRxFill s = .next t) :
    deviceActive s = true ∧ s.own .rx s.devRxCur = true ∧ fillAllowed s.cfg s.bus.data s.bus.len = true ∧
    t = rxFilled s.bus.data s.bus.len s.bus.devFlags s :=
  devRxFill_ok (finish_next.1 h)

theorem execDevSetStatus_ok {s t : State} (h : execDevSetStatus s = .next t) : t = devSetStatus s.bus.bits s := by
  simpa [execDevSetStatus, eq_comm] using h

theorem execDevLinkSet_ok {s t : State} (h : execDevLinkSet s = .next t) : t = devLinkSet s.bus.raw s := by
  simpa [execDevLinkSet, eq_comm] using h

theorem deviceActive_iff {s : State} :
    deviceActive s = true ↔ (s.life = .running ∨ s.life = .stopping) ∧ s.devQuiesced = false := by
  simp [deviceActive]

/-! ## The step -/

/-- Taking an entry off the schedule changes the schedule and the bus only. -/
theorem afterFetch_eq (s : State) :
    afterFetch s = { s with sched := (afterFetch s).sched, bus := (afterFetch s).bus } := by
  unfold afterFetch
  split
  · rfl
  · rfl
  · rfl
  · split <;> rfl
  · rfl
  · rfl
  · rfl

/-- With nothing scheduled a step is the enabled Worker step (41_interrupt_dispatcher.md R181). -/
theorem step_worker {s : State} {i : Instr} (hw : s.cfg.wf = true) (hs : s.sched = []) (hi : workerOp s = some i) :
    step s = exec i s := by
  have hm : nextMove s = .run i := by simp only [nextMove, hs, autonomousMove, hi]
  have ha : afterFetch s = s := by simp only [afterFetch, hs]
  rw [step, if_pos hw, hm, ha]

theorem runSteps_succ {s t : State} (n : Nat) (h : step s = .next t) : runSteps (n + 1) s = runSteps n t := by
  rw [runSteps, h]
  rfl

theorem queueAll_cons {len : Arg} {rest : List Arg} {s t : State} (h : exec (.queueTx len) s = .next t) :
    queueAll (len :: rest) s = queueAll rest t := by
  rw [queueAll, h]
  rfl

/-- The five ways a step reaches a next state. -/
theorem step_ok {s t : State} (h : step s = .next t) :
    s.cfg.wf = true ∧
    ((∃ i, nextMove s = .run i ∧ exec i (afterFetch s) = .next t) ∨
     (nextMove s = .notSupported ∧ t = cmdNotSupported (afterFetch s)) ∨
     (nextMove s = .stopFinish ∧ stopFinish (afterFetch s) = .next t) ∨
     (nextMove s = .rst ∧ t = applyRst (afterFetch s)) ∨
     (nextMove s = .idle ∧ t = afterFetch s)) := by
  unfold step at h
  split at h
  · rename_i hw
    refine ⟨hw, ?_⟩
    split at h
    · rename_i i hm; exact .inl ⟨i, hm, h⟩
    · rename_i hm; exact .inr (.inl ⟨hm, by simpa [eq_comm] using h⟩)
    · rename_i hm; exact .inr (.inr (.inl ⟨hm, h⟩))
    · rename_i hm; exact .inr (.inr (.inr (.inl ⟨hm, by simpa [eq_comm] using h⟩)))
    · rename_i hm; exact .inr (.inr (.inr (.inr ⟨hm, by simpa [eq_comm] using h⟩)))
    · simp at h
  · simp at h

/-- What every move keeps is kept by every step: the schedule and the bus aside, a step is one of four moves. -/
theorem step_keeps {P : State → Prop} (hinput : ∀ s sched bus, P s → P { s with sched := sched, bus := bus })
    (hexec : ∀ i s t, s.cfg.wf = true → P s → exec i s = .next t → P t) (hcmd : ∀ s, P s → P (cmdNotSupported s))
    (hfinish : ∀ s, s.life = .stopping → s.wstate = .terminated → P s → P (stopped s)) (hrst : ∀ s, P s → P (applyRst s))
    {s t : State} (h : step s = .next t) (hs : P s) : P t := by
  obtain ⟨hw, h⟩ := step_ok h
  have ha : P (afterFetch s) := by rw [afterFetch_eq]; exact hinput _ _ _ hs
  have hwa : (afterFetch s).cfg.wf = true := by rw [afterFetch_eq]; exact hw
  rcases h with ⟨i, -, h⟩ | ⟨-, rfl⟩ | ⟨-, h⟩ | ⟨-, rfl⟩ | ⟨-, rfl⟩
  · exact hexec i _ _ hwa ha h
  · exact hcmd _ ha
  · obtain ⟨h1, h2, rfl⟩ := stopFinish_ok h
    exact hfinish _ h1 h2 ha
  · exact hrst _ ha
  · exact ha

end Sys2Proof.Machine
end

