-- ==== Sys2Proof/Laws/Flags.lean ====
section
/-! SUPPORT. What the words of Machine/Flags.lean hold bit by bit in a well-formed configuration (30_encoding.md R118 to R123). -/

namespace Sys2Proof.Machine

/-- A word with one bit set. -/
theorem oneBit_getLsbD {b : Nat} (h : b < 32) (k : Nat) : (1#32 <<< b).getLsbD k = decide (k = b) := by
  simp only [BitVec.getLsbD_shiftLeft, BitVec.getLsbD_one]
  by_cases hk : k = b
  · subst hk; simp [h]
  · simp [hk]; omega

theorem bit_getLsbD {b : Nat} (h : b < 32) (k : Nat) : (bit b).getLsbD k = decide (k = b) := oneBit_getLsbD h k

/-! ## MAC_EN -/

theorem macEnMask_getLsbD {c : Config} (h : c.wf = true) (k : Nat) :
    (macEnMask c).getLsbD k = (decide (k = c.macTxBit) || decide (k = c.macRxBit)) := by
  obtain ⟨h1, h2, -⟩ := wf_macBits h
  rw [macEnMask, BitVec.getLsbD_or, oneBit_getLsbD h1, oneBit_getLsbD h2]

/-- Clearing the two enables leaves every other bit of the register (43_engine_facade.md R228). -/
theorem macClear_getLsbD {c : Config} (h : c.wf = true) (w : Word) :
    (w &&& ~~~macEnMask c).getLsbD c.macTxBit = false ∧ (w &&& ~~~macEnMask c).getLsbD c.macRxBit = false ∧
    ∀ k, k ≠ c.macTxBit → k ≠ c.macRxBit → (w &&& ~~~macEnMask c).getLsbD k = w.getLsbD k := by
  have e : ∀ k, (w &&& ~~~macEnMask c).getLsbD k =
      (w.getLsbD k && !(decide (k = c.macTxBit) || decide (k = c.macRxBit))) := by
    intro k
    rw [BitVec.getLsbD_and, BitVec.getLsbD_not, macEnMask_getLsbD h]
    by_cases hk : k < 32
    · simp [hk]
    · simp [BitVec.getLsbD_of_ge w k (by omega)]
  exact ⟨by rw [e]; simp, by rw [e]; simp, fun k h1 h2 => by rw [e]; simp [h1, h2]⟩

/-- Setting the two enables leaves every other bit of the register (42_link_monitor.md R213). -/
theorem macSet_getLsbD {c : Config} (h : c.wf = true) (w : Word) :
    (w ||| macEnMask c).getLsbD c.macTxBit = true ∧ (w ||| macEnMask c).getLsbD c.macRxBit = true ∧
    ∀ k, k ≠ c.macTxBit → k ≠ c.macRxBit → (w ||| macEnMask c).getLsbD k = w.getLsbD k := by
  have e : ∀ k, (w ||| macEnMask c).getLsbD k =
      (w.getLsbD k || (decide (k = c.macTxBit) || decide (k = c.macRxBit))) := by
    intro k
    rw [BitVec.getLsbD_or, macEnMask_getLsbD h]
  exact ⟨by rw [e]; simp, by rw [e]; simp, fun k h1 h2 => by rw [e]; simp [h1, h2]⟩

/-! ## Status words -/

@[simp] theorem ownOf_zero (c : Config) : ownOf c 0#32 = false := by simp [ownOf]

theorem ownOf_rxArm {c : Config} (h : c.wf = true) : ownOf c (rxArmStatus c) = true := by
  have hb := (wf_ownBit h).1
  rw [ownOf, rxArmStatus, bit_getLsbD (by omega)]
  simp

theorem ownOf_txSubmit {c : Config} (h : c.wf = true) : ownOf c (txSubmitStatus c) = true := ownOf_rxArm h

/-- The status word DEV_TX_COMPLETE writes (44_device_agent.md R253). -/
theorem txDone_getLsbD {c : Config} (h : c.wf = true) (flags : Word) :
    ownOf c (txDoneStatus c flags) = false ∧
    ∀ k, k < 32 → k ≠ c.ownBit → (txDoneStatus c flags).getLsbD k = flags.getLsbD k := by
  have hb := (wf_ownBit h).1
  have e : ∀ k, (txDoneStatus c flags).getLsbD k = (flags.getLsbD k && (decide (k < 32) && !decide (k = c.ownBit))) := by
    intro k
    rw [txDoneStatus, BitVec.getLsbD_and, BitVec.getLsbD_not, bit_getLsbD (by omega)]
  exact ⟨by rw [ownOf, e]; simp, fun k h1 h2 => by rw [e]; simp [h1, h2]⟩

/-! ## Fields -/

/-- Bits `lo .. lo + w - 1` of a word, as a number. -/
def fieldOf (lo w : Nat) (x : Word) : Nat := x.toNat / 2 ^ lo % 2 ^ w

theorem fieldOf_testBit (lo w : Nat) (x : Word) (i : Nat) :
    (fieldOf lo w x).testBit i = (decide (i < w) && x.getLsbD (lo + i)) := by
  rw [fieldOf, Nat.testBit_mod_two_pow, Nat.testBit_div_two_pow, BitVec.getLsbD, Nat.add_comm]

/-- A number put at bit `lo` of a word that has room for it. -/
theorem placed_getLsbD {n lo w : Nat} (hn : n < 2 ^ w) (h : lo + w ≤ 32) (k : Nat) :
    (BitVec.ofNat 32 (n * 2 ^ lo)).getLsbD k = (decide (lo ≤ k) && n.testBit (k - lo)) := by
  rw [BitVec.getLsbD_ofNat, Nat.testBit_mul_two_pow]
  by_cases hk : k < 32
  · simp [hk]
  · by_cases hl : lo ≤ k
    · have : n.testBit (k - lo) = false := Nat.testBit_lt_two_pow (Nat.lt_of_lt_of_le hn (Nat.pow_le_pow_right (by omega) (by omega)))
      simp [this]
    · simp [hl]

theorem fieldMask_getLsbD {lo w : Nat} (h : lo + w ≤ 32) (k : Nat) :
    (fieldMask lo w).getLsbD k = (decide (lo ≤ k) && decide (k < lo + w)) := by
  have hp : 0 < 2 ^ w := Nat.two_pow_pos w
  rw [fieldMask, placed_getLsbD (w := w) (by omega) h, Nat.testBit_two_pow_sub_one]
  by_cases hl : lo ≤ k
  · simp only [hl, decide_true, Bool.true_and, decide_eq_decide]; omega
  · simp [hl]

/-- The number a field holds where a number was put and every other part of the word is clear. -/
theorem fieldOf_placed {n lo w : Nat} (hn : n < 2 ^ w) (h : lo + w ≤ 32) (x : Word)
    (hx : ∀ i, i < w → x.getLsbD (lo + i) = false) : fieldOf lo w (x ||| BitVec.ofNat 32 (n * 2 ^ lo)) = n := by
  apply Nat.eq_of_testBit_eq
  intro i
  rw [fieldOf_testBit, BitVec.getLsbD_or, placed_getLsbD hn h]
  by_cases hi : i < w
  · simp [hi, hx i hi]
  · have : n.testBit i = false := Nat.testBit_lt_two_pow (Nat.lt_of_lt_of_le hn (Nat.pow_le_pow_right (by omega) (by omega)))
    simp [hi, this]

/-- The status word DEV_RX_FILL writes (44_device_agent.md R255). -/
theorem rxFill_fields {c : Config} (h : c.wf = true) (flags : Word) {len : Nat} (hl : len < 2 ^ c.rxLenW) :
    ownOf c (rxFillStatus c flags len) = false ∧ frameLen c (rxFillStatus c flags len) = len ∧
    ∀ k, k < 32 → k ≠ c.ownBit → k < c.rxLenLo ∨ c.rxLenLo + c.rxLenW ≤ k →
      (rxFillStatus c flags len).getLsbD k = flags.getLsbD k := by
  obtain ⟨hb, hf, ha⟩ := wf_ownBit h
  have hout : ∀ k, k < c.rxLenLo ∨ c.rxLenLo + c.rxLenW ≤ k → (BitVec.ofNat 32 (len * 2 ^ c.rxLenLo)).getLsbD k = false := by
    intro k hk
    rw [placed_getLsbD hl hf]
    rcases hk with hk | hk
    · simp [show ¬c.rxLenLo ≤ k by omega]
    · rw [Nat.testBit_lt_two_pow (Nat.lt_of_lt_of_le hl (Nat.pow_le_pow_right (by omega) (by omega)))]
      simp
  have hin : ∀ k, (flags &&& ~~~(bit c.ownBit ||| fieldMask c.rxLenLo c.rxLenW)).getLsbD k =
      (flags.getLsbD k && (decide (k < 32) &&
        !(decide (k = c.ownBit) || (decide (c.rxLenLo ≤ k) && decide (k < c.rxLenLo + c.rxLenW))))) := by
    intro k
    rw [BitVec.getLsbD_and, BitVec.getLsbD_not, BitVec.getLsbD_or, bit_getLsbD hb, fieldMask_getLsbD hf]
  refine ⟨?_, ?_, ?_⟩
  · rw [ownOf, rxFillStatus, BitVec.getLsbD_or, hin, hout _ ha]; simp
  · exact fieldOf_placed hl hf _ fun i hi => by rw [hin]; simp [hi]
  · intro k h1 h2 h3
    rw [rxFillStatus, BitVec.getLsbD_or, hin, hout _ h3]
    have : ¬(c.rxLenLo ≤ k ∧ k < c.rxLenLo + c.rxLenW) := by omega
    simp only [not_and, Nat.not_lt] at this
    by_cases hlk : c.rxLenLo ≤ k
    · simp [h1, h2, hlk, this hlk]
    · simp [h1, h2, hlk]

/-! ## Control words -/

theorem and_mask_of_lt {n w : Nat} (h : n < 2 ^ w) : n &&& (2 ^ w - 1) = n := by
  rw [Nat.and_two_pow_sub_one_eq_mod, Nat.mod_eq_of_lt h]

theorem sizeField_toNat {c : Config} (h : c.wf = true) (n : Nat) :
    (sizeField c n).toNat = (n &&& (2 ^ c.sizeW - 1)) * 2 ^ c.sizeLo := by
  have hf := (wf_controlFields h).1
  rw [sizeField, BitVec.toNat_ofNat, Nat.mod_eq_of_lt]
  rw [Nat.and_two_pow_sub_one_eq_mod]
  calc n % 2 ^ c.sizeW * 2 ^ c.sizeLo < 2 ^ c.sizeW * 2 ^ c.sizeLo :=
        Nat.mul_lt_mul_of_pos_right (Nat.mod_lt _ (Nat.two_pow_pos _)) (Nat.two_pow_pos _)
    _ = 2 ^ (c.sizeW + c.sizeLo) := (Nat.pow_add _ _ _).symm
    _ ≤ 2 ^ 32 := Nat.pow_le_pow_right (by omega) (by omega)

theorem wf_controlBits {c : Config} (h : c.wf = true) :
    c.txIntBit < 32 ∧ c.txLastBit < 32 ∧ c.txFirstBit < 32 ∧ c.chainBit < 32 := by
  have := (wf_checks h).2.2.2.2.2.2.2.1
  simp [Config.controlFieldsOk] at this
  omega

theorem txf_getLsbD {c : Config} (h : c.wf = true) (k : Nat) : (txf c).getLsbD k =
    (decide (k = c.txIntBit) || decide (k = c.txLastBit) || decide (k = c.txFirstBit) || decide (k = c.chainBit)) := by
  obtain ⟨h1, h2, h3, h4⟩ := wf_controlBits h
  rw [txf, BitVec.getLsbD_or, BitVec.getLsbD_or, BitVec.getLsbD_or, bit_getLsbD h1, bit_getLsbD h2, bit_getLsbD h3, bit_getLsbD h4]

theorem flagsOnly_iff {c : Config} {flags : Word} : flagsOnly c flags = true ↔
    ∀ k, flags.getLsbD k = true → (txf c).getLsbD k = true := by
  rw [flagsOnly, decide_eq_true_eq]
  constructor
  · intro h k hk
    have hb := congrArg (fun w : Word => w.getLsbD k) h
    simpa [BitVec.getLsbD_and, BitVec.getLsbD_not, hk, BitVec.lt_of_getLsbD hk] using hb
  · intro h
    refine BitVec.eq_of_getLsbD_eq fun k hk => ?_
    have := h k
    cases hf : flags.getLsbD k <;> simp_all

/-- TXF is a mask of control flag bits (10_state.md R34). -/
theorem flagsOnly_txf (c : Config) : flagsOnly c (txf c) = true := flagsOnly_iff.2 fun _ h => h

theorem flagsOnly_chain {c : Config} (h : c.wf = true) : flagsOnly c (bit c.chainBit) = true := by
  refine flagsOnly_iff.2 fun k hk => ?_
  rw [bit_getLsbD (wf_controlBits h).2.2.2, decide_eq_true_eq] at hk
  rw [txf_getLsbD h]
  simp [hk]

/-- A control word made of flag bits and a length that fits holds exactly that length and no reserved bit (30_encoding.md R114,
R118, R130). -/
theorem control_holds {c : Config} (h : c.wf = true) {flags : Word} (hf : flagsOnly c flags = true) {n : Nat}
    (hn : n ≤ c.slotSize) :
    sizeOf c (flags ||| sizeField c n) = n ∧ (flags ||| sizeField c n) &&& controlReserved c = 0#32 := by
  obtain ⟨hw, h1, h2, h3, h4⟩ := wf_controlFields h
  have hlt : n < 2 ^ c.sizeW := Nat.lt_of_le_of_lt hn (wf_slot h).2
  have hfl := flagsOnly_iff.1 hf
  rw [sizeField, and_mask_of_lt hlt]
  constructor
  · refine fieldOf_placed hlt hw _ fun i hi => ?_
    have hc : (txf c).getLsbD (c.sizeLo + i) = false := by
      rw [txf_getLsbD h]
      simp only [Bool.or_eq_false_iff, decide_eq_false_iff_not]
      omega
    cases hb : flags.getLsbD (c.sizeLo + i)
    · rfl
    · rw [hfl _ hb] at hc; cases hc
  · refine BitVec.eq_of_getLsbD_eq fun k hk => ?_
    rw [controlReserved, BitVec.getLsbD_and, BitVec.getLsbD_or, BitVec.getLsbD_not, BitVec.getLsbD_or, fieldMask_getLsbD hw,
      placed_getLsbD hlt hw]
    have hp := hfl k
    have ht : n.testBit (k - c.sizeLo) = true → k - c.sizeLo < c.sizeW := fun hb => by
      by_contra hge
      rw [Nat.testBit_lt_two_pow (Nat.lt_of_lt_of_le hlt (Nat.pow_le_pow_right (by omega) (by omega)))] at hb
      cases hb
    cases hb : flags.getLsbD k
    · cases hn' : n.testBit (k - c.sizeLo)
      · simp
      · have := ht hn'
        by_cases hl : c.sizeLo ≤ k
        · simp [hl, show k < c.sizeLo + c.sizeW by omega]
        · simp [hl]
    · simp [hp hb]

/-- The control word of a frame that fits holds exactly its length (30_encoding.md R118). -/
theorem sizeOf_submitControl {c : Config} (h : c.wf = true) {n : Nat} (hn : n ≤ c.slotSize) :
    sizeOf c (txf c ||| sizeField c n) = n := (control_holds h (flagsOnly_txf c) hn).1

end Sys2Proof.Machine
end

