-- ==== Sys2Proof/Laws/Words.lean ====
section
/-! SUPPORT. The two fields of a format C word (30_encoding.md R124) against its parts. -/

namespace Sys2Proof

@[simp] theorem wordOp_append (arg : Arg) (op : BitVec 8) : wordOp (arg ++ op) = op := by
  apply BitVec.eq_of_getLsbD_eq
  intro i hi
  have e : (arg ++ op).getLsbD i = op.getLsbD i := by rw [BitVec.getLsbD_append, if_pos hi]
  rw [wordOp, BitVec.getLsbD_extractLsb']
  simp only [hi, decide_true, Bool.true_and, Nat.zero_add]
  exact e

@[simp] theorem wordArg_append (arg : Arg) (op : BitVec 8) : wordArg (arg ++ op) = arg := by
  apply BitVec.eq_of_getLsbD_eq
  intro i hi
  have e : (arg ++ op).getLsbD (8 + i) = arg.getLsbD i := by
    rw [BitVec.getLsbD_append, if_neg (by omega), Nat.add_sub_cancel_left]
  rw [wordArg, BitVec.getLsbD_extractLsb']
  simp only [hi, decide_true, Bool.true_and]
  exact e

/-- A word is its operand and its operation code. -/
theorem word_eta (w : Word) : (wordArg w ++ wordOp w : Word) = w := by
  apply BitVec.eq_of_getLsbD_eq
  intro i hi
  have e : (wordArg w ++ wordOp w).getLsbD i = if i < 8 then (wordOp w).getLsbD i else (wordArg w).getLsbD (i - 8) :=
    BitVec.getLsbD_append
  refine e.trans ?_
  simp only [wordOp, wordArg, BitVec.getLsbD_extractLsb']
  split
  · rename_i h; simp [h]
  · rename_i h
    have h1 : i - 8 < 24 := by omega
    have h2 : 8 + (i - 8) = i := by omega
    simp [h1, h2]

@[simp] theorem wordOp_encode (i : Instr) : wordOp (encode i) = opcode i := wordOp_append _ _

@[simp] theorem wordArg_encode (i : Instr) : wordArg (encode i) = encodeArg i := wordArg_append _ _

/-- A word that decodes to an operation has its code. -/
theorem wordOp_of_decode {w : Word} {i : Instr} (h : decode w = .ok i) : wordOp w = opcode i := by
  have key : ∀ n : BitVec 8, (wordOp w).toNat = n.toNat → wordOp w = n := fun n h => BitVec.eq_of_toNat_eq h
  unfold decode at h
  split at h <;> first | (cases h; exact key _ (by assumption)) | cases h

end Sys2Proof
end

