-- ==== Sys2Proof/Laws/PerInstr.lean ====
section
/-! SUPPORT. The family `OpField`, one lemma for each operation: which operation code its word carries, and which agent the code
belongs to (30_encoding.md R125 to R127, R129). -/

namespace Sys2Proof.Laws.OpField

/-- The word of `i` carries its operation code; the five client commands are the codes 0x01 to 0x05, the four Device moves the
codes from 0x30. -/
def Statement (i : Instr) : Prop :=
  wordOp (encode i) = opcode i ∧
  (i.external = true ↔ 1 ≤ (opcode i).toNat ∧ (opcode i).toNat ≤ 5) ∧
  (i.deviceMove = true ↔ 0x30 ≤ (opcode i).toNat)

theorem init : Statement .init := ⟨wordOp_encode _, by decide, by decide⟩

theorem start (clientId : Arg) : Statement (.start clientId) := ⟨wordOp_encode _, by simp [Instr.external, opcode], by simp [Instr.deviceMove, opcode]⟩

theorem stop : Statement .stop := ⟨wordOp_encode _, by decide, by decide⟩

theorem queueTx (len : Arg) : Statement (.queueTx len) := ⟨wordOp_encode _, by simp [Instr.external, opcode], by simp [Instr.deviceMove, opcode]⟩

theorem query : Statement .query := ⟨wordOp_encode _, by decide, by decide⟩

theorem ringInit (dir : Dir) : Statement (.ringInit dir) := ⟨wordOp_encode _, by simp [Instr.external, opcode], by simp [Instr.deviceMove, opcode]⟩

theorem tryClaimNextTx : Statement .tryClaimNextTx := ⟨wordOp_encode _, by decide, by decide⟩

theorem submitTx : Statement .submitTx := ⟨wordOp_encode _, by decide, by decide⟩

theorem reclaimTxCompleted : Statement .reclaimTxCompleted := ⟨wordOp_encode _, by decide, by decide⟩

theorem reapRx : Statement .reapRx := ⟨wordOp_encode _, by decide, by decide⟩

theorem irqWait : Statement .irqWait := ⟨wordOp_encode _, by decide, by decide⟩

theorem statusRdclr : Statement .statusRdclr := ⟨wordOp_encode _, by decide, by decide⟩

theorem linkPhase : Statement .linkPhase := ⟨wordOp_encode _, by decide, by decide⟩

theorem rxDrain : Statement .rxDrain := ⟨wordOp_encode _, by decide, by decide⟩

theorem abnormalCount : Statement .abnormalCount := ⟨wordOp_encode _, by decide, by decide⟩

theorem txReclaimPass : Statement .txReclaimPass := ⟨wordOp_encode _, by decide, by decide⟩

theorem linkUpdate : Statement .linkUpdate := ⟨wordOp_encode _, by decide, by decide⟩

theorem devTxComplete : Statement .devTxComplete := ⟨wordOp_encode _, by decide, by decide⟩

theorem devRxFill : Statement .devRxFill := ⟨wordOp_encode _, by decide, by decide⟩

theorem devSetStatus : Statement .devSetStatus := ⟨wordOp_encode _, by decide, by decide⟩

theorem devLinkSet : Statement .devLinkSet := ⟨wordOp_encode _, by decide, by decide⟩

end Sys2Proof.Laws.OpField
end

