-- ==== Sys2Proof/Tests/Slice0.lean ====
section
/-! SUPPORT. Tests. Expected results are those of 95_test_vectors.md, whose vector is named at each test, or are computed by hand from
the rule named; `meets` theorems show states that meet the hypotheses of a statement, one for each clause. -/

set_option Elab.async false

namespace Sys2Proof.Tests

open Sys2Proof Sys2Proof.Machine

/-! ## States -/

/-- The next state of an outcome (after reset where there is none: every use shows that there is one). -/
def after (o : Out) : State := (nextState? o).getD State.reset

/-- The move has a next state. -/
def goesOn (o : Out) : Bool := (nextState? o).isSome

theorem after_eq {o : Out} (h : goesOn o = true) : o = .next (after o) := by
  cases o <;> first | rfl | cases h

/-- The reason of a refusal. -/
def refusal? : Out → Option Refusal
  | .refused r => some r
  | .next _ => none
  | .fault _ => none

/-- After a successful INIT in REF (vector V1). -/
def up : State := after (exec .init State.reset)

/-- The same, the link up and client 7 bound. -/
def on : State := { up with online := true, bound := true, clientId := 7#24 }

/-- `s` in phase `p` of a pass whose latch is `l`. -/
def inPass (p : WPhase) (l : Word) (s : State) : State := { s with wstate := .processing, wphase := p, isrLatch := l }

/-- `s` with a status word written by hand. -/
def withStatus (d : Dir) (i : Nat) (w : Word) (s : State) : State :=
  { s with mem := s.mem.setWord (statusAddr s.cfg d i) w }

/-- `s` with the TX payload input driven. -/
def presenting (payload : List Byte) (s : State) : State := { s with bus := { Bus.idle with payload := payload } }

/-- `s` with one entry on its schedule. -/
def scheduled (e : Entry) (s : State) : State := { s with sched := [e] }

/-- Sixteen bytes 0x00 to 0x0F (vector V25). -/
def bytes16 : List Byte := (List.range 16).map (BitVec.ofNat 8)

/-- QUEUE_TX at its call of SUBMIT_TX, with these operands. -/
def submitting (payload : List Byte) (flags : Word) (s : State) : State :=
  standInside .queueTx { s with bus := { Bus.idle with payload := payload, flags := flags } }

/-- One queued frame "A" (vectors V23, V80). -/
def queuedA : State := after (exec (.queueTx 1#24) (presenting [0x41#8] on))

/-- The Device has stored "A" in RX slot 0 (vector V93). -/
def filledA : State := after (exec .devRxFill { on with bus := { Bus.idle with data := [0x41#8], len := 1 } })

/-- Half-way through STOP, the Worker terminated. -/
def stopDone : State := { after (exec .stop on) with wstate := .terminated }

/-! ## Well-formed configurations: one refused term for each check -/

theorem test_wf_ref : Config.ref.wf = true := by decide
theorem test_wf_rings : { Config.ref with nTx := 0 }.wf = false ∧ { Config.ref with nRx := 0 }.ringsOk = false := by decide
theorem test_wf_slot : { Config.ref with slotSize := 0 }.wf = false ∧
    { Config.ref with slotSize := 2048 }.slotOk = false := by decide
theorem test_wf_stride : { Config.ref with descStride := 48 }.strideOk = false ∧
    { Config.ref with descStride := 8 }.wf = false := by decide
theorem test_wf_bases : { Config.ref with txDescBase := 0x00010020 }.wf = false ∧
    { Config.ref with rxBufBase := 0x00020041 }.basesOk = false := by decide
theorem test_wf_areas : { Config.ref with rxDescBase := 0x000100C0 }.wf = false ∧
    { Config.ref with rxBufBase := 0x00020000 }.areasApart = false := by decide
theorem test_wf_space : { Config.ref with rxBufBase := 0xFFFFFFC0 }.wf = true ∧
    { Config.ref with rxBufBase := 0x100000000 }.wf = false := by decide
theorem test_wf_status_fields : { Config.ref with ownBit := 32 }.wf = false ∧ { Config.ref with ownBit := 29 }.wf = false ∧
    { Config.ref with rxLenW := 0 }.wf = false ∧ { Config.ref with rxLenW := 17 }.statusFieldsOk = false := by decide
theorem test_wf_control_fields : { Config.ref with chainBit := 10 }.wf = false ∧ { Config.ref with chainBit := 31 }.wf = false ∧
    { Config.ref with txIntBit := 32 }.wf = false ∧ { Config.ref with sizeLo := 22 }.controlFieldsOk = false := by decide
theorem test_wf_dma_bits : { Config.ref with stAbnormal := 32 }.wf = false ∧
    { Config.ref with stAbnormal := 0 }.wf = false := by decide
theorem test_wf_link_and_counters : { Config.ref with linkUpBit := 32 }.wf = false ∧
    { Config.ref with cntW := 0 }.wf = false := by decide
theorem test_wf_mac_bits : { Config.ref with macTxBit := 2 }.wf = false ∧ { Config.ref with macRxBit := 32 }.wf = false := by
  decide

/-! ## Decoding: a word of every operation, written out from 30_encoding.md R124, R126, R127 -/

/-- Vectors V1a to V1d. -/
theorem test_decode_commands :
    decode 0xABCDEF01#32 = .ok .init ∧ decode 0x00000702#32 = .ok (.start 7#24) ∧
    decode 0xFFFFFF02#32 = .ok (.start 0xFFFFFF#24) ∧ decode 0x00000003#32 = .ok .stop ∧
    decode 0x00001104#32 = .ok (.queueTx 17#24) ∧ decode 0x00000005#32 = .ok .query := by decide

theorem test_decode_ring_primitives :
    decode 0x00000010#32 = .ok (.ringInit .tx) ∧ decode 0x00000110#32 = .ok (.ringInit .rx) ∧
    decode 0xFFFFFE10#32 = .ok (.ringInit .tx) ∧ decode 0x00000011#32 = .ok .tryClaimNextTx ∧
    decode 0x00000012#32 = .ok .submitTx ∧ decode 0x00000013#32 = .ok .reclaimTxCompleted ∧
    decode 0x00000014#32 = .ok .reapRx := by decide

theorem test_decode_worker_steps :
    decode 0x00000020#32 = .ok .irqWait ∧ decode 0x00000021#32 = .ok .statusRdclr ∧ decode 0x00000022#32 = .ok .linkPhase ∧
    decode 0x00000023#32 = .ok .rxDrain ∧ decode 0x00000024#32 = .ok .abnormalCount ∧
    decode 0x00000025#32 = .ok .txReclaimPass ∧ decode 0x00000026#32 = .ok .linkUpdate := by decide

theorem test_decode_device_moves :
    decode 0x00000030#32 = .ok .devTxComplete ∧ decode 0x00000031#32 = .ok .devRxFill ∧
    decode 0x00000032#32 = .ok .devSetStatus ∧ decode 0x12345633#32 = .ok .devLinkSet := by decide

/-- 30_encoding.md R129: both ends of every reserved range. -/
theorem test_decode_reserved :
    ([0x00, 0x06, 0x0F, 0x15, 0x1F, 0x27, 0x2F, 0x34, 0xFF].all fun op =>
      decide (decode (BitVec.ofNat 32 op) = .error (.reservedOp (BitVec.ofNat 8 op)))) = true := by decide

theorem test_table_word : decodeTableWord 8 0x14 = some .reapRx ∧ decodeTableWord 32 0x2A02 = some (.start 0x2A#24) ∧
    decodeTableWord 32 0x06 = none := by decide

/-! ## Bit fields and constant words (vectors V2 to V4) -/

theorem test_size_field : sizeField .ref 16 = 0x10#32 ∧ sizeField .ref 2047 = 0x7FF#32 ∧ sizeField .ref 2048 = 0#32 ∧
    submitControl .ref (txf .ref) 3 = 0xE1000003#32 := by decide

theorem test_frame_len : frameLen .ref 0x00110000#32 = 17 ∧ frameLen .ref 0x3FFF0000#32 = 16383 ∧
    frameLen .ref 0x4003FFFF#32 = 3 := by decide

theorem test_result_codes : ([ResultCode.ok, .unavailable, .invalidArgs, .alreadyBound, .badState, .noMemory, .timedOut,
    .notSupported].map fun r => (resultCodeBits r).toNat) = [0, 1, 2, 3, 4, 5, 6, 7] := by decide

theorem test_state_codes : [Life.uninit, .running, .stopping, .stopped].map lifeCode = [0#2, 1#2, 2#2, 3#2] ∧
    [WState.idle, .waiting, .processing, .terminated].map wstateCode = [0#2, 1#2, 2#2, 3#2] ∧
    [WPhase.rdclr, .link, .rx, .abn, .txr].map wphaseCode = [0#3, 1#3, 2#3, 3#3, 4#3] := by decide

/-! ## Addresses and memory (vector V5) -/

theorem test_addresses : daddr .ref .tx 3 = 0x000100C0#32 ∧ daddr .ref .rx 1 = 0x00010140#32 ∧
    baddr .ref .tx 2 = 0x00020020#32 ∧ baddr .ref .rx 3 = 0x00020070#32 := by decide

theorem test_word_is_little_endian :
    let m := Memory.empty.setWord 0x00010004#32 0xE1000003#32
    m.cells = [(0x10004, 0x03#8), (0x10005, 0x00#8), (0x10006, 0x00#8), (0x10007, 0xE1#8)] ∧
    m.word 0x00010004#32 = 0xE1000003#32 ∧ m.wf = true := by decide

theorem test_reset_memory_is_canonical : State.reset.mem.wf = true := by decide

/-! ## Client commands -/

/-- Vector V1: the first TX and the last RX descriptor. -/
theorem test_init_descriptors :
    up.desc .tx 0 = ⟨0x00000000#32, 0x01000000#32, 0x00020000#32, 0x00010040#32⟩ ∧
    up.desc .rx 3 = ⟨0x80000000#32, 0x01000010#32, 0x00020070#32, 0x00010100#32⟩ := by decide +kernel

/-- Vectors V1, V10, V11. -/
theorem test_init_results :
    up.out = [.result .ok .zero] ∧ up.life = .running ∧
    (after (exec .init { State.reset with bus := { Bus.idle with allocOk := false } })).result.code = .noMemory ∧
    (after (exec .init up)).result.code = .badState := by decide +kernel

/-- Vectors V70, V71. -/
theorem test_start :
    (after (exec (.start 7#24) up)).out = [.result .ok .zero, .linkNotify 7#24 false, .result .ok .zero] ∧
    (after (exec (.start 9#24) on)).result.code = .alreadyBound ∧ (after (exec (.start 9#24) on)).clientId = 7#24 := by
  decide +kernel

/-- Vector V73; program P4, lines 4 and 9. -/
theorem test_stop :
    (after (exec .stop State.reset)).out = [.result .ok .zero] ∧
    (after (exec .stop on)).out = [.result .ok .zero, .irqInvalidate] ∧ (after (exec .stop on)).bound = false := by
  decide +kernel

/-- Program P4, line 9. -/
theorem test_stop_finish :
    (after (stopFinish stopDone)).out =
      [.result .ok .zero, .irqInvalidate, .macEnSet false false, .regionRelease, .result .ok .zero] ∧
    (after (stopFinish stopDone)).life = .stopped ∧ (after (stopFinish stopDone)).devQuiesced = true := by decide +kernel

/-- Vectors V80, V23. -/
theorem test_queue_tx :
    queuedA.desc .tx 0 = ⟨0x80000000#32, 0xE1000001#32, 0x00020000#32, 0x00010040#32⟩ ∧ queuedA.slotBytes .tx 0 1 = [0x41#8] ∧
    queuedA.out = [.result .ok .zero, .txDoorbell, .result .ok .zero] ∧ queuedA.txClaimCur = 1 := by decide +kernel

/-- Vectors V76, V77, V79. -/
theorem test_queue_tx_refusals :
    (after (exec (.queueTx 17#24) up)).result.code = .unavailable ∧
    (after (exec (.queueTx 17#24) on)).result.code = .invalidArgs ∧
    (after (exec (.queueTx 1#24) (withStatus .tx 0 0x80000000#32 on))).result.code = .unavailable := by decide +kernel

/-- Vector V82. -/
theorem test_query : (after (exec .query State.reset)).result = ⟨.ok, ⟨1500#32, 0x020000000001#48, 0#32⟩⟩ := by decide

/-! ## Embedded codes, inside their callers -/

/-- R151: cursors; and the refusal outside UNINIT (R152). -/
theorem test_ring_init :
    (after (exec (.ringInit .rx) (standInside .init { State.reset with rxCur := 3 }))).rxCur = 0 ∧
    refusal? (exec (.ringInit .rx) { on with inside := some .init }) = some .notEnabled := by decide +kernel

/-- 42_link_monitor.md R210, 60_exceptions.md R300 (1): outside its caller an embedded code makes no move, in any life. -/
theorem test_embedded_codes_are_no_steps :
    ([State.reset, on, stopDone, inPass .link 0x04000041#32 on, inPass .rx 0x04000041#32 on, inPass .txr 0x04000041#32 on].all fun s =>
      [Instr.ringInit .tx, .tryClaimNextTx, .submitTx, .reclaimTxCompleted, .reapRx, .linkUpdate].all fun i =>
        decide (refusal? (exec i s) = some .notEnabled)) = true := by decide +kernel

/-- Vectors V21, V22. -/
theorem test_try_claim :
    (after (exec .tryClaimNextTx (standInside .queueTx (withStatus .tx 2 0x80000000#32 { up with txClaimCur := 2 })))).ret = .claim none ∧
    (after (exec .tryClaimNextTx (standInside .queueTx (withStatus .tx 2 0x7FFFFFFF#32 { up with txClaimCur := 2 })))).ret = .claim (some 2) := by
  decide +kernel

/-- Vector V25. -/
theorem test_submit_tx :
    let t := after (exec .submitTx (submitting bytes16 0xE1000000#32 up))
    t.slotBytes .tx 0 16 = bytes16 ∧ (t.desc .tx 0).control = 0xE1000010#32 ∧ t.txInflight = 1 := by decide +kernel

/-- 40_ring_primitives.md R155: `flags` holds control flag bits only, so no SIZE bit and no reserved bit (R114, R130). -/
theorem test_submit_tx_flags :
    ([0x7FF#32, 0xE1000800#32, 0x02000000#32].all fun flags =>
      decide (refusal? (exec .submitTx (submitting [] flags up)) = some .notEnabled)) = true ∧
    goesOn (exec .submitTx (submitting [] 0x01000000#32 up)) = true := by decide +kernel

/-- Vector V27: the implicit reclaim. -/
theorem test_submit_tx_full_window :
    let t := after (exec .submitTx (submitting [] 0#32 { up with txInflight := 4, txReclaimedCount := 5 }))
    t.txReclaimCur = 1 ∧ t.txReclaimedCount = 6 ∧ t.txInflight = 4 ∧ t.txClaimCur = 1 := by decide +kernel

/-- Vectors V31, V32. -/
theorem test_reclaim :
    (let t := after (exec .reclaimTxCompleted (standInside .txReclaimPass (withStatus .tx 2 0x80000000#32 { up with txInflight := 3 })))
     t.ret = .count 2 ∧ t.txReclaimCur = 2 ∧ t.txInflight = 1) ∧
    (let t := after (exec .reclaimTxCompleted (standInside .txReclaimPass
       (withStatus .tx 3 0x00000001#32 (withStatus .tx 0 0x7FFFFFFF#32 { up with txReclaimCur := 3, txInflight := 3 }))))
     t.ret = .count 3 ∧ t.txReclaimCur = 2) := by decide +kernel

/-- Vectors V36, V39, V41. -/
theorem test_reap_rx_take :
    (after (exec .reapRx (standInside .rxDrain up))).ret = .reaped 0 ∧
    (after (exec .reapRx (standInside .rxDrain (withStatus .rx 0 0x00110000#32 up)))).ret = .take .oversize ∧
    (after (exec .reapRx (standInside .rxDrain (withStatus .rx 0 0x00000000#32 up)))).ret = .take (.frame []) := by decide +kernel

/-- Vector V43. -/
theorem test_reap_rx_return :
    let t := after (exec .reapRx (standInside .rxDrain (withStatus .rx 3 0#32 { up with rxHold := true, rxCur := 3 })))
    t.wordAt 0x000101C0#32 = 0x80000000#32 ∧ t.rxCur = 0 ∧ t.rxHold = false := by decide +kernel

/-! ## Worker steps -/

/-- Vectors V47, V48. -/
theorem test_irq_wait :
    (after (exec .irqWait { up with irqPending := true })).wstate = .processing ∧
    (after (exec .irqWait { up with irqPending := true })).irqPending = false ∧
    (after (exec .irqWait { up with irqValid := false, irqPending := true })).wstate = .terminated ∧
    (after (exec .irqWait { up with irqValid := false, irqPending := true })).irqPending = true := by decide +kernel

/-- Vector V49. -/
theorem test_status_rdclr :
    let t := after (exec .statusRdclr (inPass .rdclr 0#32 { up with dmaStatus := 0x04008041#32 }))
    t.isrLatch = 0x04008041#32 ∧ t.dmaStatus = 0#32 ∧ t.wphase = .link := by decide +kernel

/-- Vectors V50, V54 by way of the phase. -/
theorem test_link_phase :
    let t := after (exec .linkPhase (inPass .link 0x04000000#32 { on with online := false, linkStatus := 8#32, out := [] }))
    t.out = [.macEnSet true true, .linkNotify 7#24 true] ∧ t.macConfig = 0xC#32 ∧ t.wphase = .rx := by decide +kernel

/-- Vectors V57, V58. -/
theorem test_rx_drain_take :
    (after (exec .rxDrain (inPass .rx 0x40#32 filledA))).out = [.result .ok .zero, .rxDeliver 7#24 [0x41#8]] ∧
    (after (exec .rxDrain (inPass .rx 0x40#32 { filledA with bound := false }))).rxDropCount = 1 := by decide +kernel

/-- Vectors V60, V45. -/
theorem test_rx_drain_return :
    (let t := after (exec .rxDrain (inPass .rx 0x40#32 { filledA with rxHold := true }))
     t.wordAt 0x00010100#32 = 0x80000000#32 ∧ t.rxCur = 1 ∧ t.out = [.result .ok .zero, .rxRearm]) ∧
    (after (exec .rxDrain (inPass .rx 0x40#32
      (withStatus .rx 0 0x00110000#32 { up with rxFaultCount := 0xFFFFFFFF })))).rxFaultCount = 0 := by decide +kernel

/-- Vectors V61, V63. -/
theorem test_abnormal_count :
    (after (exec .abnormalCount (inPass .abn 0x8000#32 { up with errCount := 4 }))).errCount = 5 ∧
    (after (exec .abnormalCount (inPass .abn 0x8000#32 { up with errCount := 0xFFFFFFFF }))).errCount = 0 := by decide +kernel

/-- Vectors V64, V65. -/
theorem test_tx_reclaim_pass :
    (let t := after (exec .txReclaimPass (inPass .txr 0x1#32 { up with txInflight := 2 }))
     t.txReclaimCur = 2 ∧ t.txReclaimedCount = 2 ∧ t.wstate = .waiting) ∧
    (after (exec .txReclaimPass (inPass .txr 0x40#32 { up with txInflight := 2 }))).txInflight = 2 := by decide +kernel

/-- Vectors V52, V54. -/
theorem test_link_update :
    (let t := after (exec .linkUpdate (standInside .linkPhase { on with macConfig := 0xC#32, out := [], linkStatus := 0xFFFFFFF7#32 }))
     t.out = [.linkNotify 7#24 false] ∧ t.macConfig = 0xC#32 ∧ t.linkRawLast = 0xFFFFFFF7#32) ∧
    (let t := after (exec .linkUpdate (standInside .linkPhase { up with linkStatus := 8#32, out := [] }))
     t.out = [.macEnSet true true] ∧ t.online = true) := by decide +kernel

/-! ## Device moves -/

/-- Vector V91. -/
theorem test_dev_tx_complete :
    let t := after (exec .devTxComplete { queuedA with bus := { Bus.idle with devFlags := 0x80000002#32 } })
    t.wire = [[0x41#8]] ∧ t.wordAt 0x00010000#32 = 0x2#32 ∧ t.devTxCur = 1 := by decide +kernel

/-- Vectors V93, V95. -/
theorem test_dev_rx_fill :
    filledA.wordAt 0x00010100#32 = 0x00010000#32 ∧ filledA.byteAt 0x00020040#32 = 0x41#8 ∧ filledA.devRxCur = 1 ∧
    (after (exec .devRxFill { up with bus := { Bus.idle with len := 17 } })).wordAt 0x00010100#32 = 0x00110000#32 := by
  decide +kernel

/-- Vectors V97, V98. -/
theorem test_dev_set_status :
    (let t := after (exec .devSetStatus { up with dmaStatus := 0x40#32, bus := { Bus.idle with bits := 0x40#32 } })
     t.dmaStatus = 0x40#32 ∧ t.irqPending = true) ∧
    (after (exec .devSetStatus { up with bus := { Bus.idle with bits := 0x8001#32 } })).dmaStatus = 0x8001#32 := by
  decide +kernel

/-- Vector V99. -/
theorem test_dev_link_set :
    let t := after (exec .devLinkSet { up with bus := { Bus.idle with raw := 8#32 } })
    t.linkStatus = 8#32 ∧ t.irqPending = false := by decide +kernel

/-! ## The step -/

/-- Vector V1e: an internal code on CMD. -/
theorem test_step_cmd_internal_code :
    (after (step (scheduled (.op ⟨.client, 0x00000012#32, Bus.idle⟩) on))).result.code = .notSupported := by decide +kernel

/-- Vector V46: `W` with nothing pending. -/
theorem test_step_worker_blocked : refusal? (step (scheduled .worker up)) = some .noWorkerStep := by decide +kernel

/-- The first step after reset runs the word placed. -/
theorem test_step_runs_placed_word :
    (after (step (State.reset.withFetchWord 32 0x00000001))).life = .running ∧
    (after (step (State.reset.withFetchWord 8 0x21))).wphase = .link ∧
    (after (step (State.reset.withFetchWord 8 0x26))).linkRawLast = State.reset.linkStatus ∧
    ([0x10, 0x11, 0x12, 0x13, 0x14, 0x26].all fun w =>
      let s := State.reset.withFetchWord 32 w
      decide (s.inside ≠ none) && goesOn (step s) && decide ((after (step s)).inside = none)) = true := by decide +kernel

/-- 30_encoding.md R135: the entries of two lines of a trace. -/
theorem test_trace_entries :
    traceSchedule .ref [.start 7#24, .devLink 8#32 true] =
      [.op ⟨.client, 0x00000702#32, Bus.idle⟩, .op ⟨.device, 0x00000033#32, { Bus.idle with raw := 8#32 }⟩,
        .op ⟨.device, 0x00000032#32, { Bus.idle with bits := 0x04000000#32 }⟩] := by decide

/-- 10_state.md R58: the tags after the Device completed one of two frames and the block has not reclaimed it. -/
theorem test_slot_tags :
    let s := withStatus .tx 1 0x80000000#32 { up with txClaimCur := 2, txInflight := 2 }
    (List.range 4).map s.txTag = [.readyForSoftware, .submittedToDevice, .free, .free] ∧
    ({ filledA with rxHold := true }).rxTag 0 = .free ∧ filledA.rxTag 0 = .readyForSoftware := by decide +kernel

/-! ## States that meet the hypotheses of the statements -/

/-- A command of the Client on the schedule of `s`. -/
def commanding (w : Word) (s : State) : State := scheduled (.op ⟨.client, w, Bus.idle⟩) s

/-- After STOP's first half, the Worker still waiting. -/
def stopping : State := after (exec .stop on)

theorem meets_DecodeOfEncodeIsTheOperation :
    decode 0xFFFFFF02#32 = .ok (.start 0xFFFFFF#24) ∧ decode 0xFFFFFF04#32 = .ok (.queueTx 0xFFFFFF#24) ∧
    decode 0xFFFFFF10#32 = .ok (.ringInit .rx) := by decide

/-- The boundary codes 0, 6 and 255, and the three commands named. -/
theorem meets_CmdAnswersNotSupported :
    ([0x00, 0x06, 0xFF, 0x01, 0x03, 0x05].all fun op =>
      (commanding (BitVec.ofNat 32 op) on).cfg.wf && decide ((commanding (BitVec.ofNat 32 op) on).sched =
        .op ⟨.client, BitVec.ofNat 32 op, Bus.idle⟩ :: [])) = true := by decide +kernel

theorem meets_StepRunsTheDecodedOperation :
    on.cfg.wf = true ∧ decode 0x00000005#32 = .ok .query ∧ Instr.query.external = true ∧
    decode 0x00000021#32 = .ok .statusRdclr ∧ Instr.statusRdclr.external = false ∧ Instr.statusRdclr.deviceMove = false ∧
    decode 0x00000033#32 = .ok .devLinkSet ∧ Instr.devLinkSet.deviceMove = true := by decide +kernel

theorem meets_StepRefusesAForeignWord :
    on.cfg.wf = true ∧
    (scheduled (.op ⟨.sequencer, 0x00000005#32, Bus.idle⟩) on).sched = .op ⟨.sequencer, 0x00000005#32, Bus.idle⟩ :: [] ∧
    decode 0x00000005#32 = .ok .query ∧ Instr.query.external = true ∧
    decode 0x00000033#32 = .ok .devLinkSet ∧ Instr.devLinkSet.deviceMove = true ∧
    decode 0x00000020#32 = .ok .irqWait ∧ Instr.irqWait.deviceMove = false ∧
    decode 0x000000FF#32 = .error (.reservedOp 0xFF#8) := by decide +kernel

theorem meets_StepRefusesAnIllFormedConfiguration : { State.reset with cfg := { Config.ref with nTx := 0 } }.cfg.wf = false := by
  decide

/-- A state for each clause: the schedule of each is empty and its configuration is well-formed. -/
theorem meets_WorkerTakesTheOneEnabledStep :
    ([{ up with irqValid := false }, { up with irqPending := true }, up, inPass .rdclr 0#32 up, inPass .link 0#32 up,
      inPass .rx 0#32 up, inPass .abn 0#32 up, inPass .txr 0#32 up, State.reset, { stopDone with life := .stopped },
      stopDone].all fun s => s.cfg.wf && decide (s.sched = [])) = true ∧
    up.wstate = .waiting ∧ up.irqValid = true ∧ up.irqPending = false ∧ State.reset.wstate = .idle ∧
    stopDone.wstate = .terminated ∧ stopDone.life = .stopping := by decide +kernel

theorem meets_ResetInputRestoresTheRegisters :
    (scheduled .rst queuedA).cfg.wf = true ∧ (scheduled .rst queuedA).sched = .rst :: [] := by decide +kernel

theorem meets_StepKeepsMemoryCanonical :
    queuedA.mem.wf = true ∧ step queuedA = .next (after (step queuedA)) :=
  ⟨by decide +kernel, after_eq (by decide +kernel)⟩

theorem meets_StepKeepsTheConfiguration : step queuedA = .next (after (step queuedA)) := after_eq (by decide +kernel)

/-- INIT, STOP, STOP_FINISH and reset, each a step that changes `life`. -/
theorem meets_StepMovesLifeAlongItsTransitions :
    ([commanding 1#32 State.reset, commanding 3#32 on, stopDone, scheduled .rst on].all fun s =>
      goesOn (step s) && decide (s.life ≠ (after (step s)).life)) = true := by decide +kernel

theorem lifeOk_of_uninit {s : State} (h : s.life = .uninit)
    (h' : s.irqValid = false ∧ s.regionValid = false ∧ s.wstate = .idle ∧ s.bound = false ∧ s.rxHold = false) : LifeOk s := by
  simpa only [LifeOk, h] using h'

theorem lifeOk_of_running {s : State} (h : s.life = .running)
    (h' : s.irqValid = true ∧ s.regionValid = true ∧ (s.wstate = .waiting ∨ s.wstate = .processing) ∧ s.devQuiesced = false) :
    LifeOk s := by
  simpa only [LifeOk, h] using h'

theorem lifeOk_of_stopping {s : State} (h : s.life = .stopping)
    (h' : s.irqValid = false ∧ s.regionValid = true ∧ s.wstate ≠ .idle ∧ s.bound = false ∧ s.devQuiesced = false) : LifeOk s := by
  simpa only [LifeOk, h] using h'

/-- Each of the five transitions of `wstate`. -/
theorem meets_StepMovesTheWorkerAlongItsTable :
    LifeOk (commanding 1#32 State.reset) ∧ LifeOk stopping ∧ LifeOk { on with irqPending := true } ∧
    LifeOk (inPass .txr 0#32 on) ∧ LifeOk (scheduled .rst on) ∧
    ([commanding 1#32 State.reset, stopping, { on with irqPending := true }, inPass .txr 0#32 on,
      scheduled .rst on].all fun s => goesOn (step s) && decide (s.wstate ≠ (after (step s)).wstate)) = true :=
  ⟨lifeOk_of_uninit rfl (by decide), lifeOk_of_stopping (by decide +kernel) (by decide +kernel),
    lifeOk_of_running (by decide +kernel) (by decide +kernel), lifeOk_of_running (by decide +kernel) (by decide +kernel),
    lifeOk_of_running (by decide +kernel) (by decide +kernel), by decide +kernel⟩

theorem meets_StepKeepsTheLifecycleConsistent : LifeOk stopping ∧ step stopping = .next (after (step stopping)) :=
  ⟨lifeOk_of_stopping (by decide +kernel) (by decide +kernel), after_eq (by decide +kernel)⟩

/-- A full window, reclaimed by one step. -/
theorem meets_StepKeepsTheCursorInvariant :
    let s := inPass .txr 1#32 { on with txInflight := 4 }
    CursorsOk s ∧ step s = .next (after (step s)) ∧ Active s :=
  ⟨fun _ => by decide +kernel, after_eq (by decide +kernel), .inl (by decide +kernel)⟩

/-- A counter at its last value. -/
theorem meets_StepKeepsTheCountersInRange :
    let s := inPass .abn 0x8000#32 { on with errCount := 0xFFFFFFFF }
    CountersOk s ∧ step s = .next (after (step s)) :=
  ⟨by unfold CountersOk; decide +kernel, after_eq (by decide +kernel)⟩

theorem on_owns : (∀ i, i < 4 → on.own .tx i = false) ∧ (∀ i, i < 4 → on.own .rx i = true) ∧ on.cfg = Config.ref := by
  decide +kernel

/-- `on` with any inputs and the Worker anywhere in a pass. -/
def onWith (b : Bus) (sched : List Entry) (p : WPhase) (latch : Word) : State :=
  { inPass p latch on with bus := b, sched := sched }

theorem inv_onWith (b : Bus) (sched : List Entry) (p : WPhase) (latch : Word) : Inv (onWith b sched p latch) where
  cfgOk := show on.cfg.wf = true by decide +kernel
  memOk := show on.mem.wf = true by decide +kernel
  lifeOk := lifeOk_of_running (show on.life = .running by decide +kernel)
    ⟨show on.irqValid = true by decide +kernel, show on.regionValid = true by decide +kernel, .inr rfl,
      show on.devQuiesced = false by decide +kernel⟩
  cursorsOk := fun _ =>
    show on.txClaimCur < on.cfg.nTx ∧ on.txReclaimCur < on.cfg.nTx ∧ on.txInflight ≤ on.cfg.nTx ∧ on.rxCur < on.cfg.nRx ∧
      (on.txReclaimCur + on.txInflight) % on.cfg.nTx = on.txClaimCur by decide +kernel
  countersOk :=
    show on.rxFaultCount < 2 ^ on.cfg.cntW ∧ on.errCount < 2 ^ on.cfg.cntW ∧ on.txReclaimedCount < 2 ^ on.cfg.cntW ∧
      on.rxDropCount < 2 ^ on.cfg.cntW by decide +kernel
  txWindow := fun _ => ⟨0, Nat.zero_le _, show on.devTxCur = back on.txClaimCur 0 on.cfg.nTx by decide +kernel, fun i hi =>
    ⟨fun h => by
        have hi' : i < 4 := by rw [show (onWith b sched p latch).cfg = Config.ref from on_owns.2.2] at hi; exact hi
        rw [show (onWith b sched p latch).own .tx i = on.own .tx i from rfl, on_owns.1 i hi'] at h
        exact absurd h (by decide),
      fun ⟨j, h1, h2, _⟩ => absurd h1 (by omega)⟩⟩
  rxWindow := fun _ => ⟨0, Nat.zero_le _, show on.devRxCur = (on.rxCur + 0) % on.cfg.nRx by decide +kernel, fun i hi =>
    ⟨fun h => by
        have hi' : i < 4 := by rw [show (onWith b sched p latch).cfg = Config.ref from on_owns.2.2] at hi; exact hi
        rw [show (onWith b sched p latch).own .rx i = on.own .rx i from rfl, on_owns.2.1 i hi'] at h
        exact absurd h (by decide),
      fun ⟨j, h, _⟩ => absurd h (by omega)⟩,
    fun h => absurd (show on.rxHold = true from h) (by decide +kernel)⟩
  staticWords := fun _ d => by
    show ∀ i, i < ringLen on.cfg d →
      (on.desc d i).bufferAddress = baddr on.cfg d i ∧ (on.desc d i).next = daddr on.cfg d ((i + 1) % ringLen on.cfg d) ∧
      (d = .rx → (on.desc d i).control = rxInitControl on.cfg)
    cases d <;> decide +kernel
  txControls := fun _ =>
    show ∀ i, i < on.cfg.nTx →
      Machine.sizeOf on.cfg (on.desc .tx i).control ≤ on.cfg.slotSize ∧
        (on.desc .tx i).control &&& controlReserved on.cfg = 0#32 by decide +kernel
  between := show on.inside = none by decide +kernel

theorem meets_StepKeepsTheInvariant :
    let s := onWith Bus.idle [] .rx 0x40#32
    Inv s ∧ step s = .next (after (step s)) :=
  ⟨inv_onWith _ _ _ _, after_eq (by decide +kernel)⟩

theorem meets_StepNeverFaultsFromTheInvariant : Inv (onWith Bus.idle [] .rx 0x40#32) := inv_onWith _ _ _ _

theorem meets_InitBringsUpTheEngineOrNothing :
    State.reset.cfg.wf = true ∧ on.cfg.wf = true ∧ on.life ≠ .uninit ∧ State.reset.life = .uninit ∧
    { State.reset with bus := { Bus.idle with allocOk := false } }.bus.allocOk = false ∧ State.reset.bus.allocOk = true := by
  decide +kernel

theorem meets_StartBindsOneClientAndPublishes :
    State.reset.life ≠ .running ∧ on.life = .running ∧ on.bound = true ∧ up.life = .running ∧ up.bound = false := by
  decide +kernel

theorem meets_StopBeginsTeardownOrAnswersOk : State.reset.life ≠ .running ∧ on.life = .running := by decide +kernel

theorem meets_StopFinishQuiescesThenReleases :
    stopDone.cfg.wf = true ∧ stopDone.life = .stopping ∧ stopDone.wstate = .terminated ∧ stopping.wstate ≠ .terminated ∧
    on.cfg.wf = true ∧ on.life ≠ .stopping := by decide +kernel

/-- Lengths at the boundary: 17 is oversize, 16 is not. -/
theorem meets_QueueTxReportsTheFirstFailingCheck :
    State.reset.cfg.wf = true ∧ State.reset.life ≠ .running ∧ up.cfg.wf = true ∧ up.life = .running ∧ up.online = false ∧
    on.cfg.wf = true ∧ on.life = .running ∧ on.online = true ∧ on.cfg.slotSize < (17#24).toNat ∧
    (16#24).toNat ≤ on.cfg.slotSize ∧
    (withStatus .tx 0 0x80000000#32 on).regionValid = true ∧ (withStatus .tx 0 0x80000000#32 on).own .tx 0 = true ∧
    (withStatus .tx 0 0x80000000#32 on).txClaimCur = 0 := by decide +kernel

/-- The last slot, a frame that fills it; and the window that is already the whole ring. -/
theorem meets_QueueTxHandsTheFrameToTheDevice :
    ([{ on with txClaimCur := 3 }, { on with txInflight := 4 }].all fun s =>
      s.cfg.wf && decide (s.life = .running) && s.online && s.regionValid && decide ((16#24).toNat ≤ s.cfg.slotSize) &&
      decide (s.txClaimCur < s.cfg.nTx) && !(s.own .tx s.txClaimCur) && decide (s.bus.split = [])) = true := by decide +kernel

/-- One command that succeeds and one that does not, with Device moves at the split point. -/
theorem meets_QueueTxSplitPointCommutes :
    let s := { on with bus := { Bus.idle with split := [.txComplete 0#32, .setStatus 1#32] } }
    s.cfg.wf = true ∧ exec (.queueTx 0#24) s = .next (after (exec (.queueTx 0#24) s)) ∧
    (after (exec (.queueTx 0#24) s)).result.code = .ok ∧ exec (.queueTx 17#24) s = .next (after (exec (.queueTx 17#24) s)) ∧
    (after (exec (.queueTx 17#24) s)).result.code ≠ .ok :=
  ⟨by decide +kernel, after_eq (by decide +kernel), by decide +kernel, after_eq (by decide +kernel), by decide +kernel⟩

theorem meets_RingInitWritesEveryDescriptor :
    (standInside .init State.reset).cfg.wf = true ∧ standsInside .init (standInside .init State.reset) = true := by decide

theorem meets_TryClaimAnswersByTheOwnBit :
    let s := standInside .queueTx on
    let s' := standInside .queueTx (withStatus .tx 0 0x80000000#32 on)
    s.cfg.wf = true ∧ standsInside .queueTx s = true ∧ s.own .tx s.txClaimCur = false ∧
    s'.cfg.wf = true ∧ standsInside .queueTx s' = true ∧ s'.own .tx s'.txClaimCur = true := by decide +kernel

/-- A payload that fills the last slot under all four flags, and the window that is already the whole ring. -/
theorem meets_SubmitTxFillsAndHandsOverTheSlot :
    ([standInside .queueTx
        { on with txClaimCur := 3, bus := { Bus.idle with slot := 3, payload := bytes16, flags := 0xE1000000#32 } },
      submitting [] 0#32 { on with txInflight := 4 }].all fun s =>
      s.cfg.wf && standsInside .queueTx s && decide (s.txClaimCur < s.cfg.nTx) && decide (s.bus.slot = s.txClaimCur) &&
      !(s.own .tx s.txClaimCur) && decide (s.bus.payload.length ≤ s.cfg.slotSize) &&
      decide (s.bus.flags &&& ~~~(1#32 <<< s.cfg.txIntBit ||| 1#32 <<< s.cfg.txLastBit ||| 1#32 <<< s.cfg.txFirstBit |||
        1#32 <<< s.cfg.chainBit) = 0#32)) = true := by decide +kernel

theorem meets_ReclaimPassesFinishedSlotsInOrder :
    let s := standInside .txReclaimPass { on with txReclaimCur := 3, txInflight := 3 }
    s.cfg.wf = true ∧ standsInside .txReclaimPass s = true ∧ s.txReclaimCur < s.cfg.nTx := by decide +kernel

/-- Lengths 16 and 17, the empty ring, and a taken frame in the last slot. -/
theorem meets_ReapRxTakesThenReturns :
    let s := standInside .rxDrain up
    let full := fun len => standInside .rxDrain (withStatus .rx 0 (BitVec.ofNat 32 (len * 65536)) up)
    let held := standInside .rxDrain { up with rxHold := true, rxCur := 3 }
    s.cfg.wf = true ∧ standsInside .rxDrain s = true ∧ s.rxHold = false ∧ s.own .rx s.rxCur = true ∧
    ([16, 17].all fun len => standsInside .rxDrain (full len) && !((full len).rxHold) && !((full len).own .rx (full len).rxCur) &&
      decide (frameLen .ref ((full len).wordAt (statusAddr .ref .rx (full len).rxCur)) = len)) = true ∧
    standsInside .rxDrain held = true ∧ held.rxHold = true ∧ held.rxCur < held.cfg.nRx := by decide +kernel

theorem meets_IrqWaitReturnsOrTerminates :
    up.wstate = .waiting ∧ up.irqValid = true ∧ up.irqPending = false ∧ stopping.wstate = .waiting ∧
    stopping.irqValid = false ∧ { up with irqPending := true }.irqPending = true := by decide +kernel

theorem meets_StatusRdclrLatchesAndClears : (inPass .rdclr 0#32 up).wstate = .processing ∧ (inPass .rdclr 0#32 up).wphase = .rdclr := by
  decide +kernel

/-- No cause; a cause without an edge; the two edges. -/
theorem meets_LinkPhaseReadsTheLinkWord :
    (inPass .link 0x04000000#32 on).wstate = .processing ∧ (inPass .link 0x04000000#32 on).wphase = .link ∧
    (0x0#32).getLsbD on.cfg.stLinkChange = false ∧ (0x04000000#32).getLsbD on.cfg.stLinkChange = true ∧
    on.linkStatus.getLsbD on.cfg.linkUpBit = false ∧ on.online = true ∧ up.online = false ∧
    ({ up with linkStatus := 8#32 }).linkStatus.getLsbD up.cfg.linkUpBit = true := by decide +kernel

/-- No edge, the up edge, the down edge. -/
theorem meets_LinkUpdateActsOnEdgesOnly :
    ([{ up with linkStatus := 0xFFFFFFF7#32 }, { up with linkStatus := 8#32 }, { on with linkStatus := 0#32 }].all fun s0 =>
      let s := standInside .linkPhase s0
      s.cfg.wf && standsInside .linkPhase s && decide (s.bus.raw = s.linkStatus)) = true ∧
    (0xFFFFFFF7#32).getLsbD up.cfg.linkUpBit = up.online ∧ up.online = false ∧ (8#32).getLsbD up.cfg.linkUpBit = true ∧
    on.online = true ∧ (0#32).getLsbD on.cfg.linkUpBit = false := by decide +kernel

theorem meets_SameLinkWordNotifiesOnce :
    (0xFFFFFFFF#32).getLsbD on.cfg.linkUpBit = (8#32).getLsbD on.cfg.linkUpBit := by decide +kernel

/-- Each take: no cause; an empty ring; 17 bytes; 16 bytes delivered; 16 bytes with no client; the return in the last slot. -/
theorem meets_RxDrainDeliversOrDrops :
    let s16 := inPass .rx 0x40#32 (withStatus .rx 0 0x00100000#32 on)
    let s17 := inPass .rx 0x40#32 (withStatus .rx 0 0x00110000#32 on)
    s16.cfg.wf = true ∧ s16.regionValid = true ∧ s16.wstate = .processing ∧ s16.wphase = .rx ∧ s16.rxHold = false ∧
    s16.isrLatch.getLsbD s16.cfg.stRxComplete = true ∧ s16.own .rx s16.rxCur = false ∧
    frameLen s16.cfg (s16.wordAt (statusAddr s16.cfg .rx s16.rxCur)) = s16.cfg.slotSize ∧ s16.bound = true ∧ s16.online = true ∧
    s17.own .rx s17.rxCur = false ∧ frameLen s17.cfg (s17.wordAt (statusAddr s17.cfg .rx s17.rxCur)) = s17.cfg.slotSize + 1 ∧
    { s16 with bound := false }.bound = false ∧ (inPass .rx 0x40#32 on).own .rx on.rxCur = true ∧
    (inPass .rx 0#32 on).isrLatch.getLsbD on.cfg.stRxComplete = false ∧
    { s16 with rxHold := true, rxCur := 3 }.rxCur < s16.cfg.nRx := by decide +kernel

theorem meets_AbnormalIsCountedOncePerPass :
    (inPass .abn 0x8000#32 up).wstate = .processing ∧ (inPass .abn 0x8000#32 up).wphase = .abn ∧
    (inPass .abn 0x8000#32 up).isrLatch.getLsbD up.cfg.stAbnormal = true ∧
    (inPass .abn 0x40#32 up).isrLatch.getLsbD up.cfg.stAbnormal = false := by decide +kernel

theorem meets_TxReclaimPassEndsThePass :
    let s := inPass .txr 1#32 { up with txReclaimCur := 3, txInflight := 4 }
    s.cfg.wf = true ∧ s.wstate = .processing ∧ s.wphase = .txr ∧ s.isrLatch.getLsbD s.cfg.stTxComplete = true ∧
    s.regionValid = true ∧ s.txReclaimCur < s.cfg.nTx ∧
    (inPass .txr 0x40#32 up).isrLatch.getLsbD up.cfg.stTxComplete = false := by decide +kernel

theorem meets_DevTxCompleteSendsTheFrame :
    ([queuedA, { withStatus .tx 3 0x80000000#32 up with devTxCur := 3, life := .stopping }].all fun s =>
      s.cfg.wf && decide (s.life = .running ∨ s.life = .stopping) && !s.devQuiesced && decide (s.devTxCur < s.cfg.nTx) &&
      s.own .tx s.devTxCur) = true := by decide +kernel

/-- 16 bytes with the greatest length the field holds; 17 bytes; a length one too great. -/
theorem meets_DevRxFillStoresTheFrame :
    let s := onWith { Bus.idle with data := bytes16, len := 16383 } [] .rx 0#32
    (s.cfg.wf = true ∧ s.life = .running ∧ s.devQuiesced = false ∧ s.devRxCur < s.cfg.nRx ∧ s.own .rx s.devRxCur = true) ∧
    StaticWords s ∧
    (s.bus.data.length = s.cfg.slotSize ∧ s.bus.len + 1 = 2 ^ s.cfg.rxLenW ∧ s.cfg.slotSize < (bytes16 ++ [0#8]).length ∧
      2 ^ s.cfg.rxLenW ≤ 16384) :=
  ⟨by decide +kernel, (inv_onWith _ _ _ _).staticWords, by decide +kernel⟩

theorem meets_DevSetStatusRaisesTheInterrupt :
    { up with bus := { Bus.idle with bits := 1#32 } }.bus.bits ≠ 0#32 ∧ up.bus.bits = 0#32 := by decide +kernel

/-- A state for each clause. -/
theorem meets_DisabledOperationsMakeNoMove :
    State.reset.wstate ≠ .waiting ∧ ¬(State.reset.wstate = .processing ∧ State.reset.wphase = .rdclr) ∧
    ¬(up.wstate = .processing ∧ up.wphase = .link) ∧ ¬(up.wstate = .processing ∧ up.wphase = .rx) ∧
    ¬(up.wstate = .processing ∧ up.wphase = .abn) ∧ ¬((inPass .rx 0#32 up).wstate = .processing ∧ WPhase.rx = .txr) ∧
    ([Caller.init, .queueTx, .linkPhase, .rxDrain, .txReclaimPass].all fun k =>
      !standsInside k on && !standsInside k { stopDone with inside := some k }) = true ∧
    { standInside .linkPhase on with linkStatus := 1#32 }.bus.raw ≠ 1#32 ∧ { up with txClaimCur := 1 }.bus.slot ≠ 1 ∧
    (submitting [] 0x7FF#32 up).bus.flags &&& ~~~(txf up.cfg) ≠ 0#32 ∧
    (withStatus .tx 0 0x80000000#32 up).own .tx 0 = true ∧ up.cfg.slotSize < (bytes16 ++ [0#8]).length ∧
    ¬(State.reset.life = .running ∨ State.reset.life = .stopping) ∧ { up with devQuiesced := true }.devQuiesced = true ∧
    up.own .tx up.devTxCur = false ∧ (withStatus .rx 0 0#32 up).own .rx 0 = false := by decide +kernel

/-- The state that meets the invariant, every kind of operation in it: a command, the enabled Worker step, a Device move, the blocked
IRQ_WAIT. -/
theorem meets_OnlyCommandsWorkerStepsAndDeviceMovesRun :
    Inv (onWith Bus.idle [] .rx 0x40#32) ∧
    (let s := onWith Bus.idle [] .rx 0x40#32
     goesOn (exec .query s) = true ∧ goesOn (exec .rxDrain s) = true ∧ workerOp s = some .rxDrain ∧
     goesOn (exec .devLinkSet s) = true ∧ goesOn (exec .irqWait on) = true) :=
  ⟨inv_onWith _ _ _ _, by decide +kernel⟩

/-- Every operation named answers a next state somewhere. -/
theorem meets_AgentsWriteOnlyTheirOwnState :
    ([exec .init State.reset, exec (.start 7#24) up, exec .stop on, exec (.queueTx 0#24) on, exec .query on, exec .irqWait up,
      exec .statusRdclr (inPass .rdclr 0#32 up), exec .linkPhase (inPass .link 0x04000000#32 on),
      exec .rxDrain (inPass .rx 0x40#32 on), exec .abnormalCount (inPass .abn 0#32 up),
      exec .txReclaimPass (inPass .txr 1#32 up), exec .devTxComplete queuedA, exec .devRxFill up, exec .devSetStatus up,
      exec .devLinkSet up, exec (.ringInit .tx) (standInside .init State.reset), exec .tryClaimNextTx (standInside .queueTx on),
      exec .submitTx (submitting bytes16 0#32 on), exec .reclaimTxCompleted (standInside .txReclaimPass on),
      exec .reapRx (standInside .rxDrain on), exec .linkUpdate (standInside .linkPhase on)].all goesOn) = true ∧ on.bus.split = [] := by decide +kernel

theorem meets_NoControllerWriteWhileUnmapped :
    State.reset.regionValid = false ∧ Instr.query ≠ .init ∧ Instr.query.deviceMove = false ∧
    exec .query State.reset = .next (after (exec .query State.reset)) :=
  ⟨by decide, by decide, by decide, after_eq (by decide)⟩

/-- A delivery under the handle bound before, and the publication of START. -/
theorem meets_ClientEventsCarryTheBoundHandle :
    exec .rxDrain (inPass .rx 0x40#32 filledA) = .next (after (exec .rxDrain (inPass .rx 0x40#32 filledA))) ∧
    (after (exec .rxDrain (inPass .rx 0x40#32 filledA))).out = filledA.out ++ [.rxDeliver 7#24 [0x41#8]] ∧
    exec (.start 7#24) up = .next (after (exec (.start 7#24) up)) ∧
    (after (exec (.start 7#24) up)).out = up.out ++ [.linkNotify 7#24 false, .result .ok .zero] :=
  ⟨after_eq (by decide +kernel), by decide +kernel, after_eq (by decide +kernel), by decide +kernel⟩

/-- A controller step and a Device move that change the ownership byte of a slot. -/
theorem meets_OwnersAloneWriteTheirSlots :
    let s := onWith Bus.idle [] .rx 0#32
    Inv s ∧ s.bus.split = [] ∧
    (exec (.queueTx 0#24) s = .next (after (exec (.queueTx 0#24) s)) ∧
      (after (exec (.queueTx 0#24) s)).byteAt 0x00010003#32 ≠ s.byteAt 0x00010003#32) ∧
    (exec .devRxFill s = .next (after (exec .devRxFill s)) ∧
      (after (exec .devRxFill s)).byteAt 0x00010103#32 ≠ s.byteAt 0x00010103#32) :=
  ⟨inv_onWith _ _ _ _, rfl, ⟨after_eq (by decide +kernel), by decide +kernel⟩, ⟨after_eq (by decide +kernel), by decide +kernel⟩⟩

/-- Four frames that fill their slots, on the idle ring of four. -/
theorem meets_RingIsFullAfterExactlyNFrames :
    let s := onWith Bus.idle [] .rx 0#32
    Inv s ∧
    (s.life = .running ∧ s.online = true ∧ s.bus.split = [] ∧ (∀ i, i < s.cfg.nTx → s.own .tx i = false) ∧
      (List.replicate 4 16#24).length = s.cfg.nTx) ∧
    (∀ len ∈ List.replicate 4 16#24, len.toNat ≤ s.cfg.slotSize) :=
  ⟨inv_onWith _ _ _ _, by decide +kernel, fun len h => by rw [List.eq_of_mem_replicate h]; decide +kernel⟩

/-- The schedule of an echo of `payload`. -/
def echoSchedule (b : Bus) : List Entry :=
  [.op ⟨.client, BitVec.ofNat 24 b.payload.length ++ 0x04#8, b⟩, .op ⟨.device, 0x00000030#32, Bus.idle⟩, .echoFill, .worker]

/-- A payload that fills its slot, and the empty one. -/
theorem meets_EchoedPayloadIsDelivered :
    (∀ b : Bus, Inv (onWith Bus.idle (echoSchedule b) .rx 0x40#32)) ∧
    ([{ Bus.idle with payload := bytes16 }, Bus.idle].all fun b =>
      let s := onWith Bus.idle (echoSchedule b) .rx 0x40#32
      decide (s.life = .running) && s.online && s.bound && decide (s.wstate = .processing) && decide (s.wphase = .rx) &&
      !s.rxHold && s.isrLatch.getLsbD s.cfg.stRxComplete && decide (∀ i, i < s.cfg.nTx → s.own .tx i = false) &&
      decide (∀ i, i < s.cfg.nRx → s.own .rx i = true) && decide (b.payload.length ≤ s.cfg.slotSize) &&
      decide (b.payload.length < 2 ^ s.cfg.rxLenW) && decide (b.payload.length < 2 ^ 24) && decide (b.split = []) &&
      decide (s.sched = echoSchedule b)) = true :=
  ⟨fun _ => inv_onWith _ _ _ _, by decide +kernel⟩

/-- Program P2, lines 1, 5 and 8, for one payload. -/
theorem test_echo :
    let b := { Bus.idle with payload := [0x43#8, 0x43#8, 0x43#8] }
    let t := after (runSteps 4 (onWith Bus.idle (echoSchedule b) .rx 0x40#32))
    t.wire = [b.payload] ∧ t.out = [.result .ok .zero, .txDoorbell, .result .ok .zero, .rxDeliver 7#24 b.payload] ∧
    t.sched = [] := by decide +kernel

theorem meets_ReclamationChangesNoResult :
    on.cfg.wf = true ∧ (Instr.queueTx 0#24).external = true ∧
    exec (.queueTx 0#24) on = .next (after (exec (.queueTx 0#24) on)) :=
  ⟨by decide +kernel, by decide, after_eq (by decide +kernel)⟩

/-- Vector V49b: reserved bits only. -/
theorem meets_EmptyPassChangesNothingElse :
    let s := { up with irqPending := true, dmaStatus := 0x00020002#32 }
    s.cfg.wf = true ∧ s.sched = [] ∧ s.wstate = .waiting ∧ s.irqValid = true ∧ s.irqPending = true ∧ s.rxHold = false ∧
    s.dmaStatus.getLsbD s.cfg.stTxComplete = false ∧ s.dmaStatus.getLsbD s.cfg.stRxComplete = false ∧
    s.dmaStatus.getLsbD s.cfg.stAbnormal = false ∧ s.dmaStatus.getLsbD s.cfg.stLinkChange = false := by decide +kernel

/-- Vectors V66 and V67. -/
theorem meets_LinkIsServedBeforeReception :
    let s := inPass .link 0x04000040#32 { filledA with online := false, linkStatus := 8#32 }
    s.cfg.wf = true ∧ s.regionValid = true ∧ s.sched = [] ∧ s.wstate = .processing ∧ s.wphase = .link ∧
    s.isrLatch.getLsbD s.cfg.stLinkChange = true ∧ s.isrLatch.getLsbD s.cfg.stRxComplete = true ∧ s.rxHold = false ∧
    s.bound = true ∧ s.own .rx s.rxCur = false ∧
    frameLen s.cfg (s.wordAt (statusAddr s.cfg .rx s.rxCur)) ≤ s.cfg.slotSize ∧
    s.online = false ∧ s.linkStatus.getLsbD s.cfg.linkUpBit = true ∧
    { s with online := true, linkStatus := 0#32 }.online = true ∧
    { s with online := true, linkStatus := 0#32 }.linkStatus.getLsbD s.cfg.linkUpBit = false := by decide +kernel

theorem meets_SizeFieldHoldsTheLength : Config.ref.wf = true ∧ 16 ≤ Config.ref.slotSize := by decide

end Sys2Proof.Tests
end

/-! Proofs of the statements of 00_scope.md. -/

namespace Sys2Proof.Machine

/-- The other branch of the guard that `step_ok` reads: no move is looked at (00_scope.md R8). -/
theorem step_of_cfg_not_wf {s : State} (h : s.cfg.wf = false) : step s = .refused .illFormedConfig := by
  rw [step, if_neg (Bool.eq_false_iff.mp h)]

end Sys2Proof.Machine

namespace Sys2Proof

/-- Settles O8: the configuration is checked before the schedule is read. -/
theorem stepRefusesAnIllFormedConfiguration : Obligations.StepRefusesAnIllFormedConfiguration :=
  fun _ h => Machine.step_of_cfg_not_wf h

end Sys2Proof

/-! Proofs of the statements of 10_state.md. -/

namespace Sys2Proof.Machine

/-! ## The frame of every operation (60_exceptions.md R301, 10_state.md R35) -/

/-- `s` with the fields that operation `i` may write taken from `t`. The Device moves at the split point of QUEUE_TX (43_engine_facade.md
R231) are counted with the command, and an embedded code ends its call (log 9). -/
def framed (i : Instr) (s t : State) : State :=
  match i with
  | .init => { s with
      txClaimCur := t.txClaimCur, txReclaimCur := t.txReclaimCur, txInflight := t.txInflight, rxCur := t.rxCur, life := t.life,
      wstate := t.wstate, irqValid := t.irqValid, regionValid := t.regionValid, result := t.result, mem := t.mem,
      devTxCur := t.devTxCur, devRxCur := t.devRxCur, devQuiesced := t.devQuiesced, out := t.out }
  | .start _ => { s with bound := t.bound, clientId := t.clientId, result := t.result, out := t.out }
  | .stop => { s with life := t.life, bound := t.bound, irqValid := t.irqValid, result := t.result, out := t.out }
  | .queueTx _ => { s with
      txClaimCur := t.txClaimCur, txReclaimCur := t.txReclaimCur, txInflight := t.txInflight,
      txReclaimedCount := t.txReclaimedCount, result := t.result, mem := t.mem, out := t.out, drawCtr := t.drawCtr,
      dmaStatus := t.dmaStatus, irqPending := t.irqPending, linkStatus := t.linkStatus, devTxCur := t.devTxCur,
      devRxCur := t.devRxCur, wire := t.wire }
  | .query => { s with result := t.result, out := t.out }
  | .irqWait => { s with wstate := t.wstate, wphase := t.wphase, irqPending := t.irqPending }
  | .statusRdclr => { s with wphase := t.wphase, isrLatch := t.isrLatch, dmaStatus := t.dmaStatus }
  | .linkPhase => { s with
      wphase := t.wphase, online := t.online, linkRawLast := t.linkRawLast, macConfig := t.macConfig, out := t.out }
  | .rxDrain => { s with
      wphase := t.wphase, rxCur := t.rxCur, rxHold := t.rxHold, rxFaultCount := t.rxFaultCount, rxDropCount := t.rxDropCount,
      reapReturned := t.reapReturned, mem := t.mem, out := t.out }
  | .abnormalCount => { s with wphase := t.wphase, errCount := t.errCount }
  | .txReclaimPass => { s with
      wphase := t.wphase, wstate := t.wstate, txReclaimCur := t.txReclaimCur, txInflight := t.txInflight,
      txReclaimedCount := t.txReclaimedCount }
  | .devTxComplete => { s with mem := t.mem, devTxCur := t.devTxCur, wire := t.wire }
  | .devRxFill => { s with mem := t.mem, devRxCur := t.devRxCur }
  | .devSetStatus => { s with dmaStatus := t.dmaStatus, irqPending := t.irqPending }
  | .devLinkSet => { s with linkStatus := t.linkStatus }
  | .ringInit _ => { s with
      txClaimCur := t.txClaimCur, txReclaimCur := t.txReclaimCur, txInflight := t.txInflight, rxCur := t.rxCur, mem := t.mem,
      ret := t.ret, inside := none }
  | .tryClaimNextTx => { s with ret := t.ret, inside := none }
  | .submitTx => { s with
      txClaimCur := t.txClaimCur, txReclaimCur := t.txReclaimCur, txInflight := t.txInflight,
      txReclaimedCount := t.txReclaimedCount, mem := t.mem, ret := t.ret, inside := none }
  | .reclaimTxCompleted => { s with
      txReclaimCur := t.txReclaimCur, txInflight := t.txInflight, txReclaimedCount := t.txReclaimedCount, ret := t.ret,
      inside := none }
  | .reapRx => { s with
      rxCur := t.rxCur, rxHold := t.rxHold, rxFaultCount := t.rxFaultCount, reapReturned := t.reapReturned, mem := t.mem,
      ret := t.ret, inside := none }
  | .linkUpdate => { s with
      online := t.online, linkRawLast := t.linkRawLast, macConfig := t.macConfig, out := t.out, ret := t.ret, inside := none }

section Frames

variable {s t : State}

/-- INIT answers and changes nothing else, or brings up the engine (43_engine_facade.md R222). -/
theorem init_answers_or_succeeds (h : execInit s = .next t) :
    (∃ code, t = result code s) ∨ (s.life = .uninit ∧ t = initialised s) := by
  rcases execInit_ok h with ⟨-, ht⟩ | ⟨-, -, ht⟩ | ⟨hl, -, ht⟩
  · exact .inl ⟨_, ht⟩
  · exact .inl ⟨_, ht⟩
  · exact .inr ⟨hl, ht⟩

/-- QUEUE_TX answers and changes nothing else, or queues the frame on the claimed slot, where the Device moves of its split point
follow (43_engine_facade.md R229, R231). -/
theorem queueTx_answers_or_queues {len : Arg} (h : execQueueTx len s = .next t) :
    (∃ code, t = result code s) ∨
    (s.life = .running ∧ (payloadIn s len.toNat).length ≤ s.cfg.slotSize ∧ s.regionValid = true ∧
      s.own .tx s.txClaimCur = false ∧
      ∃ u, runDevMoves s.bus.split (queued (payloadIn s len.toNat) s) = .ok u ∧ t = result .ok (emit .txDoorbell u)) := by
  rcases execQueueTx_ok h with
    ⟨-, ht⟩ | ⟨-, -, ht⟩ | ⟨-, -, -, ht⟩ | ⟨-, -, -, -, -, ht⟩ | ⟨hl, -, hlen, hr, ho, hu⟩
  · exact .inl ⟨_, ht⟩
  · exact .inl ⟨_, ht⟩
  · exact .inl ⟨_, ht⟩
  · exact .inl ⟨_, ht⟩
  · exact .inr ⟨hl, by simpa [payloadIn] using hlen, hr, ho, hu⟩

theorem init_frame (h : execInit s = .next t) : t = framed .init s t := by
  rcases init_answers_or_succeeds h with ⟨code, rfl⟩ | ⟨-, rfl⟩
  · rfl
  · rw [initialised_eq]; rfl

theorem start_frame {id : Arg} (h : execStart id s = .next t) : t = framed (.start id) s t := by
  rcases execStart_ok h with ⟨-, rfl⟩ | ⟨-, -, rfl⟩ | ⟨-, -, rfl⟩ <;> rfl

theorem stop_frame (h : execStop s = .next t) : t = framed .stop s t := by
  rcases execStop_ok h with ⟨-, rfl⟩ | ⟨-, rfl⟩ <;> rfl

theorem queueTx_frame {len : Arg} (h : execQueueTx len s = .next t) : t = framed (.queueTx len) s t := by
  rcases queueTx_answers_or_queues h with ⟨code, rfl⟩ | ⟨-, -, -, -, u, hu, rfl⟩
  · rfl
  · rw [runDevMoves_frame hu, queued_eq]; rfl

theorem irqWait_frame (h : execIrqWait s = .next t) : t = framed .irqWait s t := by
  obtain ⟨-, ⟨-, rfl⟩ | ⟨-, -, rfl⟩ | ⟨-, -, rfl⟩⟩ := execIrqWait_ok h <;> rfl

theorem linkPhase_frame (h : execLinkPhase s = .next t) : t = framed .linkPhase s t := by
  obtain ⟨-, rfl⟩ := execLinkPhase_ok h
  split
  · rw [linkUpdate_frame]; rfl
  · rfl

theorem rxDrain_frame (h : execRxDrain s = .next t) : t = framed .rxDrain s t := by
  obtain ⟨-, ⟨-, -, rfl⟩ | ⟨-, k, rfl⟩ | ⟨-, -, -, rfl | rfl | ⟨bs, -, rfl⟩⟩⟩ := execRxDrain_cases h <;> rfl

theorem abnormalCount_frame (h : execAbnormalCount s = .next t) : t = framed .abnormalCount s t := by
  obtain ⟨-, rfl⟩ := execAbnormalCount_ok h
  split <;> rfl

theorem txReclaimPass_frame (h : execTxReclaimPass s = .next t) : t = framed .txReclaimPass s t := by
  obtain ⟨-, ⟨-, rfl⟩ | ⟨-, n, -, rfl, -⟩⟩ := execTxReclaimPass_ok h <;> rfl

theorem ringInit_frame {d : Dir} (h : execRingInit d s = .next t) : t = framed (.ringInit d) s t := by
  obtain ⟨-, rfl⟩ := execRingInit_ok h
  cases d <;> rfl

theorem submitTx_frame (h : execSubmitTx s = .next t) : t = framed .submitTx s t := by
  obtain ⟨-, -, -, -, -, rfl⟩ := execSubmitTx_ok h
  rw [submitBookkeeping_eq]; rfl

theorem reapRx_frame (h : execReapRx s = .next t) : t = framed .reapRx s t := by
  obtain ⟨-, ⟨-, rfl⟩ | ⟨-, rfl⟩⟩ := execReapRx_ok h
  · rfl
  · rcases takeAnswer_cases s with ⟨e, -⟩ | ⟨e, -⟩ | ⟨bs, e, -⟩ <;> rw [e] <;> rfl

theorem linkUpdate_op_frame (h : execLinkUpdate s = .next t) : t = framed .linkUpdate s t := by
  obtain ⟨-, -, rfl⟩ := execLinkUpdate_ok h
  rw [linkUpdate_frame]; rfl

/-- An operation changes at most the fields of its frame. -/
theorem exec_frame {i : Instr} (h : exec i s = .next t) : t = framed i s t := by
  cases i with
  | init => exact init_frame h
  | start id => exact start_frame h
  | stop => exact stop_frame h
  | queueTx len => exact queueTx_frame h
  | query =>
    obtain rfl : resultWith .ok (queryPayload s.cfg) s = t := by simpa [exec, execQuery] using h
    rfl
  | irqWait => exact irqWait_frame h
  | statusRdclr => obtain ⟨-, rfl⟩ := execStatusRdclr_ok h; rfl
  | linkPhase => exact linkPhase_frame h
  | rxDrain => exact rxDrain_frame h
  | abnormalCount => exact abnormalCount_frame h
  | txReclaimPass => exact txReclaimPass_frame h
  | devTxComplete => obtain ⟨-, -, rfl⟩ := execDevTxComplete_ok h; rfl
  | devRxFill => obtain ⟨-, -, -, rfl⟩ := execDevRxFill_ok h; rfl
  | devSetStatus => obtain rfl := execDevSetStatus_ok h; rfl
  | devLinkSet => obtain rfl := execDevLinkSet_ok h; rfl
  | ringInit d => exact ringInit_frame h
  | tryClaimNextTx => obtain ⟨-, rfl⟩ := execTryClaimNextTx_ok h; rfl
  | submitTx => exact submitTx_frame h
  | reclaimTxCompleted => obtain ⟨-, n, -, rfl, -⟩ := execReclaimTxCompleted_ok h; rfl
  | reapRx => exact reapRx_frame h
  | linkUpdate => exact linkUpdate_op_frame h

/-- What depends on unframed fields only is what it was. -/
theorem exec_view {α : Type} (f : State → α) {i : Instr} (h : exec i s = .next t) : f t = f (framed i s t) :=
  congrArg f (exec_frame h)

/-- Without Device moves at its split point QUEUE_TX leaves the Device's registers and hidden state alone. -/
theorem queueTx_frame_unsplit {len : Arg} (hb : s.bus.split = []) (h : exec (.queueTx len) s = .next t) : t = { s with
    txClaimCur := t.txClaimCur, txReclaimCur := t.txReclaimCur, txInflight := t.txInflight,
    txReclaimedCount := t.txReclaimedCount, result := t.result, mem := t.mem, out := t.out, drawCtr := t.drawCtr } := by
  rcases queueTx_answers_or_queues h with ⟨code, rfl⟩ | ⟨-, -, -, -, u, hu, rfl⟩
  · rfl
  · obtain rfl : queued (payloadIn s len.toNat) s = u := by simpa [hb, runDevMoves] using hu
    rw [queued_eq]; rfl

theorem inside_of_stands {k : Caller} (h : standsInside k s = true) : s.inside = some k := (standsInside_iff.1 h).1

/-- The caller an embedded code is called by (30_encoding.md R136); none for an operation that is a step of its own. -/
def callerOf : Instr → Option Caller
  | .ringInit _ => some .init
  | .tryClaimNextTx | .submitTx => some .queueTx
  | .reclaimTxCompleted => some .txReclaimPass
  | .reapRx => some .rxDrain
  | .linkUpdate => some .linkPhase
  | .init | .start _ | .stop | .queueTx _ | .query | .irqWait | .statusRdclr | .linkPhase | .rxDrain | .abnormalCount
  | .txReclaimPass | .devTxComplete | .devRxFill | .devSetStatus | .devLinkSet => none

/-- An embedded code answers only where the sequencer stands inside its caller. -/
theorem stands_of_exec {i : Instr} {k : Caller} (hk : callerOf i = some k) (h : exec i s = .next t) :
    standsInside k s = true := by
  cases i with
  | ringInit d => cases hk; exact (execRingInit_ok h).1
  | tryClaimNextTx => cases hk; exact (execTryClaimNextTx_ok h).1
  | submitTx => cases hk; exact (execSubmitTx_ok h).1
  | reclaimTxCompleted => cases hk; exact (execReclaimTxCompleted_ok h).1
  | reapRx => cases hk; exact (execReapRx_ok h).1
  | linkUpdate => cases hk; exact (execLinkUpdate_ok h).1
  | _ => cases hk

end Frames

end Sys2Proof.Machine

namespace Sys2Proof.Machine

/-! ## Configuration and lifecycle (10_state.md R20, R29, R30, R33) -/

section Lifecycle

variable {s t : State} {i : Instr}

theorem framed_cfg (i : Instr) (s t : State) : (framed i s t).cfg = s.cfg := by cases i <;> rfl

theorem exec_cfg (h : exec i s = .next t) : t.cfg = s.cfg :=
  (exec_view State.cfg h).trans (framed_cfg i s t)

/-- The operations that move `life`: INIT when it succeeds, and STOP (R29). -/
theorem exec_life (h : exec i s = .next t) :
    t.life = s.life ∨ (i = .init ∧ s.life = .uninit ∧ t = initialised s) ∨
    (i = .stop ∧ s.life = .running ∧ t = stopBegin s) := by
  cases i with
  | init =>
    rcases init_answers_or_succeeds h with ⟨code, rfl⟩ | ⟨hl, ht⟩
    · exact .inl rfl
    · exact .inr (.inl ⟨rfl, hl, ht⟩)
  | stop =>
    rcases execStop_ok h with ⟨-, rfl⟩ | ⟨hl, ht⟩
    · exact .inl rfl
    · exact .inr (.inr ⟨rfl, hl, ht⟩)
  | _ => exact .inl (exec_view State.life h)

/-! What `LifeOk` says for each value of `life`. -/

theorem lifeOk_uninit (hl : s.life = .uninit) : LifeOk s ↔
    s.irqValid = false ∧ s.regionValid = false ∧ s.wstate = .idle ∧ s.bound = false ∧ s.rxHold = false := by
  simp only [LifeOk, hl]

theorem lifeOk_running (hl : s.life = .running) : LifeOk s ↔
    s.irqValid = true ∧ s.regionValid = true ∧ (s.wstate = .waiting ∨ s.wstate = .processing) ∧ s.devQuiesced = false := by
  simp only [LifeOk, hl]

theorem lifeOk_stopping (hl : s.life = .stopping) : LifeOk s ↔
    s.irqValid = false ∧ s.regionValid = true ∧ s.wstate ≠ .idle ∧ s.bound = false ∧ s.devQuiesced = false := by
  simp only [LifeOk, hl]

theorem lifeOk_stopped (hl : s.life = .stopped) : LifeOk s ↔
    s.irqValid = false ∧ s.regionValid = false ∧ s.wstate = .terminated ∧ s.bound = false ∧ s.devQuiesced = true := by
  simp only [LifeOk, hl]

/-- The fields `LifeOk` ties to `life`, but for `wstate` and `rx_hold`. -/
def lifeView (s : State) : Life × Bool × Bool × Bool × Bool := (s.life, s.irqValid, s.regionValid, s.bound, s.devQuiesced)

theorem lifeOk_congr (hv : lifeView t = lifeView s) (hw : t.wstate = s.wstate) (hh : s.life = .uninit → t.rxHold = s.rxHold)
    (h : LifeOk s) : LifeOk t := by
  simp only [lifeView, Prod.mk.injEq] at hv
  obtain ⟨hl, hi, hr, hb, hq⟩ := hv
  unfold LifeOk at h ⊢
  rw [hl, hi, hr, hb, hq, hw]
  cases e : s.life with
  | uninit => simpa only [e, hh e] using h
  | running => simpa only [e] using h
  | stopping => simpa only [e] using h
  | stopped => simpa only [e] using h

/-- The Worker waits or processes only while `life` is RUNNING or STOPPING. -/
theorem active_of_worker (h : LifeOk s) (hw : s.wstate = .waiting ∨ s.wstate = .processing) : Active s := by
  cases hl : s.life with
  | running => exact .inl hl
  | stopping => exact .inr hl
  | uninit =>
    obtain ⟨-, -, h, -⟩ := (lifeOk_uninit hl).1 h
    simp [h] at hw
  | stopped =>
    obtain ⟨-, -, h, -⟩ := (lifeOk_stopped hl).1 h
    simp [h] at hw

theorem region_of_active (h : LifeOk s) (ha : Active s) : s.regionValid = true := by
  rcases ha with hl | hl
  · exact ((lifeOk_running hl).1 h).2.1
  · exact ((lifeOk_stopping hl).1 h).2.1

theorem not_uninit_of_region (h : LifeOk s) (hr : s.regionValid = true) : s.life ≠ .uninit := by
  intro hl
  obtain ⟨-, h, -⟩ := (lifeOk_uninit hl).1 h
  simp [h] at hr

/-- The Worker going from one of WAITING and PROCESSING to one of them (R30). -/
theorem lifeOk_worker (h : LifeOk s) (hw : s.wstate = .waiting ∨ s.wstate = .processing) (hv : lifeView t = lifeView s)
    (hw' : t.wstate = .waiting ∨ t.wstate = .processing) : LifeOk t := by
  simp only [lifeView, Prod.mk.injEq] at hv
  obtain ⟨hl, hi, hr, hb, hq⟩ := hv
  rcases active_of_worker h hw with e | e
  · obtain ⟨h1, h2, -, h4⟩ := (lifeOk_running e).1 h
    exact (lifeOk_running (hl.trans e)).2 ⟨hi.trans h1, hr.trans h2, hw', hq.trans h4⟩
  · obtain ⟨h1, h2, -, h4, h5⟩ := (lifeOk_stopping e).1 h
    refine (lifeOk_stopping (hl.trans e)).2 ⟨hi.trans h1, hr.trans h2, ?_, hb.trans h4, hq.trans h5⟩
    rcases hw' with e' | e' <;> simp [e']

theorem lifeOk_initialised (s : State) : LifeOk (initialised s) := by
  rw [initialised_eq]
  exact (lifeOk_running rfl).2 ⟨rfl, rfl, .inl rfl, rfl⟩

theorem lifeOk_stopBegin (h : LifeOk s) (hl : s.life = .running) : LifeOk (stopBegin s) := by
  obtain ⟨-, hr, hw, hq⟩ := (lifeOk_running hl).1 h
  refine (lifeOk_stopping rfl).2 ⟨rfl, hr, ?_, rfl, hq⟩
  rcases hw with e | e <;> simp [e]

theorem lifeOk_stopped_of_stopping (h : LifeOk s) (hl : s.life = .stopping) (hw : s.wstate = .terminated) :
    LifeOk (stopped s) := by
  obtain ⟨hi, -, -, hb, -⟩ := (lifeOk_stopping hl).1 h
  rw [stopped_eq]
  exact (lifeOk_stopped rfl).2 ⟨hi, rfl, hw, hb, rfl⟩

theorem lifeOk_applyRst (s : State) : LifeOk (applyRst s) := by
  rw [applyRst_eq]
  exact (lifeOk_uninit rfl).2 ⟨rfl, rfl, rfl, rfl, rfl⟩

theorem exec_lifeOk (hs : LifeOk s) (h : exec i s = .next t) : LifeOk t := by
  cases i with
  | init =>
    rcases init_answers_or_succeeds h with ⟨code, rfl⟩ | ⟨-, rfl⟩
    · exact lifeOk_congr rfl rfl (fun _ => rfl) hs
    · exact lifeOk_initialised s
  | start id =>
    rcases execStart_ok h with ⟨-, rfl⟩ | ⟨-, -, rfl⟩ | ⟨hl, -, rfl⟩
    · exact lifeOk_congr rfl rfl (fun _ => rfl) hs
    · exact lifeOk_congr rfl rfl (fun _ => rfl) hs
    · refine (lifeOk_running ?_).2 ?_
      · exact hl
      · exact (lifeOk_running hl).1 hs
  | stop =>
    rcases execStop_ok h with ⟨-, rfl⟩ | ⟨hl, rfl⟩
    · exact lifeOk_congr rfl rfl (fun _ => rfl) hs
    · exact lifeOk_stopBegin hs hl
  | irqWait =>
    obtain ⟨hw, ⟨hv, rfl⟩ | ⟨-, -, rfl⟩ | ⟨-, -, rfl⟩⟩ := execIrqWait_ok h
    · rcases active_of_worker hs (.inl hw) with hl | hl
      · simp [((lifeOk_running hl).1 hs).1] at hv
      · obtain ⟨h1, h2, -, h4⟩ := (lifeOk_stopping hl).1 hs
        refine (lifeOk_stopping ?_).2 ⟨h1, h2, ?_, h4⟩
        · exact hl
        · exact WState.noConfusion
    · exact lifeOk_worker hs (.inl hw) rfl (.inr rfl)
    · exact hs
  | rxDrain =>
    have hp : s.wstate = .processing := (execRxDrain_ok h).1.1
    have hn : s.life ≠ .uninit := by rcases active_of_worker hs (.inr hp) with e | e <;> simp [e]
    exact lifeOk_congr (s := s) (exec_view lifeView h) (exec_view State.wstate h) (fun e => absurd e hn) hs
  | txReclaimPass =>
    have hp : s.wstate = .processing := (execTxReclaimPass_ok h).1.1
    refine lifeOk_worker hs (.inr hp) (exec_view lifeView h) (.inl ?_)
    obtain ⟨-, ⟨-, rfl⟩ | ⟨-, n, -, rfl, -⟩⟩ := execTxReclaimPass_ok h <;> rfl
  | reapRx =>
    have hr := standsInside_region (execReapRx_ok h).1 (by decide)
    exact lifeOk_congr (s := s) (exec_view lifeView h) (exec_view State.wstate h)
      (fun e => absurd e (not_uninit_of_region hs hr)) hs
  | _ =>
    exact lifeOk_congr (s := s) (exec_view lifeView h) (exec_view State.wstate h)
      (fun _ => exec_view State.rxHold h) hs

end Lifecycle

/-! ## Counters (10_state.md R25) -/

section Counters

variable {s t : State} {i : Instr}

theorem addCount_lt (c : Config) (counter n : Nat) : addCount c counter n < 2 ^ c.cntW := Nat.mod_lt _ (Nat.two_pow_pos _)

/-- The four counters and their width. -/
def counterView (s : State) : Nat × Nat × Nat × Nat × Nat :=
  (s.rxFaultCount, s.errCount, s.txReclaimedCount, s.rxDropCount, s.cfg.cntW)

theorem countersOk_congr (hv : counterView t = counterView s) (h : CountersOk s) : CountersOk t := by
  simp only [counterView, Prod.mk.injEq] at hv
  obtain ⟨h1, h2, h3, h4, h5⟩ := hv
  unfold CountersOk
  rw [h1, h2, h3, h4, h5]
  exact h

theorem countersOk_countRxFault (h : CountersOk s) : CountersOk (countRxFault s) := by
  obtain ⟨-, h2, h3, h4⟩ := h
  exact ⟨addCount_lt _ _ _, h2, h3, h4⟩

theorem countersOk_countErr (h : CountersOk s) : CountersOk (countErr s) := by
  obtain ⟨h1, -, h3, h4⟩ := h
  exact ⟨h1, addCount_lt _ _ _, h3, h4⟩

theorem countersOk_countReclaimed (n : Nat) (h : CountersOk s) : CountersOk (countReclaimed n s) := by
  obtain ⟨h1, h2, -, h4⟩ := h
  exact ⟨h1, h2, addCount_lt _ _ _, h4⟩

theorem countersOk_countRxDrop (h : CountersOk s) : CountersOk (countRxDrop s) := by
  obtain ⟨h1, h2, h3, -⟩ := h
  exact ⟨h1, h2, h3, addCount_lt _ _ _⟩

/-- SUBMIT_TX counts at most its implicit reclaim (40_ring_primitives.md R156). -/
theorem countersOk_submitBookkeeping (slot : Nat) (h : CountersOk s) : CountersOk (submitBookkeeping slot s) := by
  unfold submitBookkeeping growWindow
  split
  · exact countersOk_countReclaimed 1 h
  · exact h

theorem countersOk_reclaimed (n : Nat) (h : CountersOk s) : CountersOk (reclaimed n s) :=
  countersOk_countReclaimed n (countersOk_congr rfl h)

theorem countersOk_takeAnswer (h : CountersOk s) : CountersOk (takeAnswer s).1 := by
  rcases takeAnswer_cases s with ⟨e, -⟩ | ⟨e, -⟩ | ⟨bs, e, -⟩ <;> rw [e]
  · exact h
  · exact countersOk_countRxFault h
  · exact h

theorem exec_countersOk (hs : CountersOk s) (h : exec i s = .next t) : CountersOk t := by
  cases i with
  | queueTx len =>
    rcases queueTx_answers_or_queues h with ⟨code, rfl⟩ | ⟨-, -, -, -, u, hu, rfl⟩
    · exact hs
    · have hq : CountersOk (queued (payloadIn s len.toNat) s) := countersOk_submitBookkeeping _ (countersOk_congr rfl hs)
      have hv := congrArg counterView (runDevMoves_frame hu)
      exact countersOk_congr hv hq
  | submitTx =>
    obtain ⟨-, -, -, -, -, rfl⟩ := execSubmitTx_ok h
    exact countersOk_congr rfl (countersOk_submitBookkeeping s.txClaimCur (countersOk_congr rfl hs))
  | rxDrain =>
    obtain ⟨-, ⟨-, -, rfl⟩ | ⟨-, k, rfl⟩ | ⟨-, -, -, rfl | rfl | ⟨bs, -, rfl⟩⟩⟩ := execRxDrain_cases h
    · exact hs
    · exact hs
    · exact countersOk_countRxFault hs
    · exact countersOk_countRxDrop hs
    · exact hs
  | reapRx =>
    obtain ⟨-, ⟨-, rfl⟩ | ⟨-, rfl⟩⟩ := execReapRx_ok h
    · exact hs
    · exact countersOk_congr rfl (countersOk_takeAnswer hs)
  | abnormalCount =>
    obtain ⟨-, rfl⟩ := execAbnormalCount_ok h
    split
    · exact countersOk_countErr hs
    · exact hs
  | txReclaimPass =>
    obtain ⟨-, ⟨-, rfl⟩ | ⟨-, n, -, rfl, -⟩⟩ := execTxReclaimPass_ok h
    · exact hs
    · exact countersOk_congr rfl (countersOk_reclaimed n hs)
  | reclaimTxCompleted =>
    obtain ⟨-, n, -, rfl, -⟩ := execReclaimTxCompleted_ok h
    exact countersOk_congr rfl (countersOk_reclaimed n hs)
  | _ => exact countersOk_congr (s := s) (exec_view counterView h) hs

theorem countersOk_stopped (h : CountersOk s) : CountersOk (stopped s) := by
  rw [stopped_eq]
  exact h

theorem countersOk_applyRst (s : State) : CountersOk (applyRst s) :=
  ⟨Nat.two_pow_pos _, Nat.two_pow_pos _, Nat.two_pow_pos _, Nat.two_pow_pos _⟩

end Counters

/-! ## Client-directed events (10_state.md R28) -/

section Events

variable {s t : State} {i : Instr}

/-- What a step appends to the output history carries, where client-directed, the handle bound before it, or the one START binds. -/
def CarriesBoundHandle (i : Instr) (s t : State) : Prop :=
  ∃ events, t.out = s.out ++ events ∧
    ∀ e ∈ events, ∀ id, e.handle = some id →
      (s.bound = true ∧ id = s.clientId ∧ t.bound = true) ∨ (i = .start id ∧ s.bound = false ∧ t.bound = true)

theorem carries_of_silent (h : t.out = s.out) : CarriesBoundHandle i s t := ⟨[], by simpa using h, by simp⟩

/-- Events that are for no client. -/
theorem carries_of_undirected (events : List Event) (h : t.out = s.out ++ events) (he : ∀ e ∈ events, e.handle = none) :
    CarriesBoundHandle i s t :=
  ⟨events, h, fun e hm id hid => by simp [he e hm] at hid⟩

/-- One RESULT and nothing else. -/
theorem carries_of_result {code : ResultCode} {p : ResultPayload} (h : t.out = s.out ++ [.result code p]) :
    CarriesBoundHandle i s t := carries_of_undirected _ h (by simp [Event.handle])

/-- LINK_UPDATE notifies the bound client only (42_link_monitor.md R211, R215). -/
theorem linkUpdate_carries (raw : Word) (s : State) : CarriesBoundHandle i s (linkUpdate raw s) := by
  have hb : (linkUpdate raw s).bound = s.bound := by rw [linkUpdate_frame]
  have notified (up : Bool) : ∀ e ∈ (if s.bound then [Event.linkNotify s.clientId up] else []), ∀ id, e.handle = some id →
      s.bound = true ∧ id = s.clientId ∧ (linkUpdate raw s).bound = true := by
    intro e he id hid
    cases hs : s.bound <;> simp_all [Event.handle]
  cases h : raw.getLsbD s.cfg.linkUpBit <;> cases ho : s.online
  · exact carries_of_silent (by rw [linkUpdate_same (by rw [h, ho])])
  · exact ⟨_, by rw [linkUpdate_down h ho], fun e he id hid => .inl (notified false e he id hid)⟩
  · refine ⟨_, by rw [linkUpdate_up h ho]; exact List.append_assoc _ _ _, fun e he id hid => ?_⟩
    rcases List.mem_append.1 he with he | he
    · simp only [List.mem_singleton] at he
      simp [he, Event.handle] at hid
    · exact .inl (notified true e he id hid)
  · exact carries_of_silent (by rw [linkUpdate_same (by rw [h, ho])])

theorem start_carries {id : Arg} (h : exec (.start id) s = .next t) : CarriesBoundHandle (.start id) s t := by
  rcases execStart_ok h with ⟨-, rfl⟩ | ⟨-, -, rfl⟩ | ⟨-, hb, rfl⟩
  · exact carries_of_result rfl
  · exact carries_of_result rfl
  · refine ⟨[.linkNotify id s.online, .result .ok .zero], by simp, fun e he id' hid => ?_⟩
    simp only [List.mem_cons, List.not_mem_nil, or_false] at he
    rcases he with rfl | rfl
    · obtain rfl : id = id' := by simpa [Event.handle] using hid
      exact .inr ⟨rfl, hb, rfl⟩
    · simp [Event.handle] at hid

theorem queueTx_carries {len : Arg} (h : exec (.queueTx len) s = .next t) : CarriesBoundHandle (.queueTx len) s t := by
  rcases queueTx_answers_or_queues h with ⟨code, rfl⟩ | ⟨-, -, -, -, u, hu, rfl⟩
  · exact carries_of_result rfl
  · have hout : u.out = s.out := by rw [runDevMoves_frame hu, queued_eq]
    exact carries_of_undirected [.txDoorbell, .result .ok .zero] (by simp [hout]) (by simp [Event.handle])

theorem rxDrain_carries (h : exec .rxDrain s = .next t) : CarriesBoundHandle .rxDrain s t := by
  obtain ⟨-, ⟨-, -, rfl⟩ | ⟨-, k, rfl⟩ | ⟨-, -, -, rfl | rfl | ⟨bs, hb, rfl⟩⟩⟩ := execRxDrain_cases h
  · exact carries_of_undirected [.rxRearm] rfl (by simp [Event.handle])
  · exact carries_of_silent rfl
  · exact carries_of_silent rfl
  · exact carries_of_silent rfl
  · refine ⟨[.rxDeliver s.clientId bs], rfl, fun e he id hid => .inl ⟨hb, ?_, hb⟩⟩
    simp only [List.mem_singleton] at he
    simpa [he, Event.handle, eq_comm] using hid

theorem exec_carries (h : exec i s = .next t) : CarriesBoundHandle i s t := by
  cases i with
  | init =>
    rcases init_answers_or_succeeds h with ⟨code, rfl⟩ | ⟨-, rfl⟩
    · exact carries_of_result rfl
    · exact carries_of_result (by rw [initialised_eq])
  | start id => exact start_carries h
  | stop =>
    rcases execStop_ok h with ⟨-, rfl⟩ | ⟨-, rfl⟩
    · exact carries_of_result rfl
    · exact carries_of_undirected [.irqInvalidate] rfl (by simp [Event.handle])
  | queueTx len => exact queueTx_carries h
  | query =>
    obtain rfl : resultWith .ok (queryPayload s.cfg) s = t := by simpa [exec, execQuery] using h
    exact carries_of_result rfl
  | linkPhase =>
    obtain ⟨-, rfl⟩ := execLinkPhase_ok h
    split
    · exact linkUpdate_carries s.linkStatus s
    · exact carries_of_silent rfl
  | rxDrain => exact rxDrain_carries h
  | linkUpdate =>
    obtain ⟨-, -, rfl⟩ := execLinkUpdate_ok h
    exact linkUpdate_carries s.bus.raw s
  | _ => exact carries_of_silent (exec_view State.out h)

end Events

end Sys2Proof.Machine

namespace Sys2Proof.Machine

/-! ## Indices of a ring

The windows of 10_state.md R61 and R62 are given by lists of indices modulo the ring length. `behind` and `ahead` measure them from the
cursor, so that "in the window" becomes a comparison. -/

section Indices

variable {n cur i j k : Nat}

theorem ring_add (hc : cur < n) (hj : j ≤ n) : (cur + j) % n = if cur + j < n then cur + j else cur + j - n := by
  split
  · exact Nat.mod_eq_of_lt ‹_›
  · rw [Nat.mod_eq_sub_mod (by omega), Nat.mod_eq_of_lt (by omega)]

theorem back_eq (hc : cur < n) (hj : j ≤ n) : back cur j n = if j ≤ cur then cur - j else cur + n - j := by
  unfold back
  split
  · rw [show cur + n - j = cur - j + n by omega, Nat.add_mod_right, Nat.mod_eq_of_lt (by omega)]
  · exact Nat.mod_eq_of_lt (by omega)

/-- How many slots index `i` lies before the cursor: 1 to `n`. -/
def behind (cur i n : Nat) : Nat := if i < cur then cur - i else cur + n - i

/-- How many slots index `i` lies after the cursor: 0 to `n - 1`. -/
def ahead (cur i n : Nat) : Nat := if cur ≤ i then i - cur else i + n - cur

theorem behind_pos (hi : i < n) : 1 ≤ behind cur i n := by unfold behind; split <;> omega

theorem behind_self (cur n : Nat) : behind cur cur n = n := by simp [behind]

theorem ahead_self (cur n : Nat) : ahead cur cur n = 0 := by simp [ahead]

theorem behind_eq_iff (hc : cur < n) (hi : i < n) (h1 : 1 ≤ k) (hk : k ≤ n) : behind cur i n = k ↔ i = back cur k n := by
  rw [back_eq hc hk]
  unfold behind
  split <;> split <;> omega

theorem ahead_eq_iff (hc : cur < n) (hi : i < n) (hk : k < n) : ahead cur i n = k ↔ i = (cur + k) % n := by
  rw [ring_add hc (by omega)]
  unfold ahead
  split <;> split <;> omega

/-- The `k` indices just before the cursor. -/
theorem behind_le_iff (hc : cur < n) (hi : i < n) (hk : k ≤ n) :
    (∃ j, 1 ≤ j ∧ j ≤ k ∧ i = back cur j n) ↔ behind cur i n ≤ k := by
  constructor
  · rintro ⟨j, h1, hjk, e⟩
    rw [(behind_eq_iff hc hi h1 (by omega)).2 e]
    exact hjk
  · intro h
    have h1 := behind_pos (cur := cur) hi
    exact ⟨_, h1, h, (behind_eq_iff hc hi h1 (by omega)).1 rfl⟩

/-- The `k` indices from the cursor on. -/
theorem ahead_lt_iff (hc : cur < n) (hi : i < n) (hk : k ≤ n) :
    (∃ j, j < k ∧ i = (cur + j) % n) ↔ ahead cur i n < k := by
  constructor
  · rintro ⟨j, hjk, e⟩
    rw [(ahead_eq_iff hc hi (by omega)).2 e]
    exact hjk
  · intro h
    exact ⟨_, h, (ahead_eq_iff hc hi (by omega)).1 rfl⟩

theorem back_lt (hc : cur < n) : back cur k n < n := Nat.mod_lt _ (by omega)

theorem back_advance (hc : cur < n) (hj : j < n) : back ((cur + 1) % n) (j + 1) n = back cur j n := by
  have h1 := ring_add hc (j := 1) (by omega)
  rw [back_eq (Nat.mod_lt _ (by omega)) (by omega), back_eq hc (by omega), h1]
  split <;> split <;> split <;> omega

theorem advance_back (hc : cur < n) (h1 : 1 ≤ j) (hj : j ≤ n) : (back cur j n + 1) % n = back cur (j - 1) n := by
  rw [ring_add (back_lt hc) (by omega), back_eq hc hj, back_eq hc (by omega)]
  split <;> split <;> split <;> omega

theorem behind_advance_self (hc : cur < n) : behind ((cur + 1) % n) cur n = 1 := by
  have h1 := ring_add hc (j := 1) (by omega)
  unfold behind
  rw [h1]
  split <;> split <;> omega

theorem behind_advance_ne (hc : cur < n) (hi : i < n) (h : i ≠ cur) :
    behind ((cur + 1) % n) i n = behind cur i n + 1 := by
  have h1 := ring_add hc (j := 1) (by omega)
  unfold behind
  rw [h1]
  split <;> split <;> split <;> omega

theorem ahead_advance_self (hc : cur < n) : ahead ((cur + 1) % n) cur n = n - 1 := by
  have h1 := ring_add hc (j := 1) (by omega)
  unfold ahead
  rw [h1]
  split <;> split <;> omega

theorem ahead_advance_ne (hc : cur < n) (hi : i < n) (h : i ≠ cur) :
    ahead ((cur + 1) % n) i n + 1 = ahead cur i n := by
  have h1 := ring_add hc (j := 1) (by omega)
  unfold ahead
  rw [h1]
  split <;> split <;> split <;> omega

/-- Measured from the end of a run of `m` indices, the one at offset `j` lies `m - j` before it. -/
theorem behind_of_offset (hc : cur < n) (hm : k ≤ n) (hj : j < k) :
    behind ((cur + k) % n) ((cur + j) % n) n = k - j := by
  rw [ring_add hc hm, ring_add hc (by omega)]
  unfold behind
  split <;> split <;> split <;> omega

end Indices

/-! ## INV-CUR (10_state.md R60) -/

section Cursors

variable {s t : State} {i : Instr}

/-- What INV-CUR speaks of. -/
def cursorView (s : State) : Config × Nat × Nat × Nat × Nat :=
  (s.cfg, s.txClaimCur, s.txReclaimCur, s.txInflight, s.rxCur)

theorem cursorsOk_congr (hv : cursorView t = cursorView s) (ha : Active t → Active s) (h : CursorsOk s) : CursorsOk t := by
  simp only [cursorView, Prod.mk.injEq] at hv
  obtain ⟨hc, h1, h2, h3, h4⟩ := hv
  intro hact
  rw [hc, h1, h2, h3, h4]
  exact h (ha hact)

theorem active_of_life (hl : t.life = s.life) (h : Active t) : Active s := by
  unfold Active at h ⊢
  rwa [hl] at h

theorem not_active_of_uninit (hl : s.life = .uninit) : ¬Active s := by
  rintro (h | h) <;> simp [hl] at h

theorem cursorsOk_initialised (hw : s.cfg.wf = true) : CursorsOk (initialised s) := by
  rw [initialised_eq]
  exact fun _ => ⟨wf_nTx_pos hw, wf_nTx_pos hw, Nat.zero_le _, wf_nRx_pos hw, Nat.zero_mod _⟩

/-- The claim cursor stays `tx_inflight` slots after the reclaim cursor, with the implicit reclaim (40_ring_primitives.md R156) or
without it. -/
theorem cursorsOk_submitBookkeeping (h : CursorsOk s) : CursorsOk (submitBookkeeping s.txClaimCur s) := by
  rw [submitBookkeeping_eq]
  intro ha
  obtain ⟨h1, h2, h3, h4, h5⟩ := h ha
  have hn : 0 < s.cfg.nTx := by omega
  refine ⟨Nat.mod_lt _ hn, ?_, ?_, h4, ?_⟩ <;> dsimp only <;> split
  · exact Nat.mod_lt _ hn
  · exact h2
  · exact h3
  · omega
  · rename_i hf
    rw [← h5, Nat.mod_add_mod, Nat.mod_add_mod]
    congr 1
    omega
  · rw [← h5, Nat.mod_add_mod, Nat.add_assoc]

theorem cursorsOk_reclaimed {n : Nat} (hn : n ≤ s.txInflight) (h : CursorsOk s) : CursorsOk (reclaimed n s) := by
  intro ha
  obtain ⟨h1, h2, h3, h4, h5⟩ := h ha
  rw [reclaimed_eq h2]
  refine ⟨h1, Nat.mod_lt _ (by omega), by dsimp only; omega, h4, ?_⟩
  dsimp only
  rw [Nat.mod_add_mod, Nat.add_assoc, Nat.add_sub_cancel' hn, h5]

theorem cursorsOk_returned (h : CursorsOk s) : CursorsOk (returned s) := by
  intro ha
  obtain ⟨h1, h2, h3, h4, h5⟩ := h ha
  exact ⟨h1, h2, h3, Nat.mod_lt _ (by omega : 0 < s.cfg.nRx), h5⟩

theorem cursorsOk_takeAnswer (h : CursorsOk s) : CursorsOk (takeAnswer s).1 := by
  rcases takeAnswer_cases s with ⟨e, -⟩ | ⟨e, -⟩ | ⟨bs, e, -⟩ <;> rw [e]
  · exact h
  · exact cursorsOk_congr rfl id h
  · exact h

theorem cursorsOk_queued {payload : List Byte} (h : CursorsOk s) : CursorsOk (queued payload s) :=
  cursorsOk_submitBookkeeping (s := { nextDraw s with mem := _ }) (cursorsOk_congr rfl id h)

theorem cursorsOk_runDevMoves {ms : List DevMove} (hu : runDevMoves ms s = .ok t) (h : CursorsOk s) : CursorsOk t := by
  have hv := congrArg cursorView (runDevMoves_frame hu)
  have hl := congrArg State.life (runDevMoves_frame hu)
  exact cursorsOk_congr hv (active_of_life hl) h

theorem exec_cursorsOk (hw : s.cfg.wf = true) (hs : CursorsOk s) (h : exec i s = .next t) : CursorsOk t := by
  cases i with
  | init =>
    rcases init_answers_or_succeeds h with ⟨code, rfl⟩ | ⟨-, rfl⟩
    · exact cursorsOk_congr rfl id hs
    · exact cursorsOk_initialised hw
  | stop =>
    rcases execStop_ok h with ⟨-, rfl⟩ | ⟨hl, rfl⟩
    · exact cursorsOk_congr rfl id hs
    · exact cursorsOk_congr (s := s) rfl (fun _ => .inl hl) hs
  | queueTx len =>
    rcases queueTx_answers_or_queues h with ⟨code, rfl⟩ | ⟨-, -, -, -, u, hu, rfl⟩
    · exact cursorsOk_congr rfl id hs
    · exact cursorsOk_congr (s := u) rfl id (cursorsOk_runDevMoves hu (cursorsOk_queued hs))
  | ringInit d =>
    obtain ⟨hst, -⟩ := execRingInit_ok h
    obtain ⟨hl, -⟩ := callerReady_init.1 (standsInside_iff.1 hst).2
    have hl' : t.life = .uninit := (exec_view State.life h).trans hl
    exact fun ha => absurd ha (not_active_of_uninit hl')
  | submitTx =>
    obtain ⟨-, -, -, -, -, rfl⟩ := execSubmitTx_ok h
    exact cursorsOk_congr rfl id (cursorsOk_submitBookkeeping (s := { s with mem := _ }) (cursorsOk_congr rfl id hs))
  | rxDrain =>
    obtain ⟨-, ⟨-, -, rfl⟩ | ⟨-, k, rfl⟩ | ⟨-, -, -, rfl | rfl | ⟨bs, -, rfl⟩⟩⟩ := execRxDrain_cases h
    · exact cursorsOk_congr rfl id (cursorsOk_returned hs)
    · exact cursorsOk_congr rfl id hs
    · exact cursorsOk_congr rfl id hs
    · exact cursorsOk_congr rfl id hs
    · exact cursorsOk_congr rfl id hs
  | reapRx =>
    obtain ⟨-, ⟨-, rfl⟩ | ⟨-, rfl⟩⟩ := execReapRx_ok h
    · exact cursorsOk_congr rfl id (cursorsOk_returned hs)
    · exact cursorsOk_congr rfl id (cursorsOk_takeAnswer hs)
  | txReclaimPass =>
    obtain ⟨-, ⟨-, rfl⟩ | ⟨-, n, hn, rfl, -⟩⟩ := execTxReclaimPass_ok h
    · exact cursorsOk_congr rfl id hs
    · exact cursorsOk_congr rfl id (cursorsOk_reclaimed hn hs)
  | reclaimTxCompleted =>
    obtain ⟨-, n, hn, rfl, -⟩ := execReclaimTxCompleted_ok h
    exact cursorsOk_congr rfl id (cursorsOk_reclaimed hn hs)
  | _ => exact cursorsOk_congr (s := s) (exec_view cursorView h) (active_of_life (exec_view State.life h)) hs

theorem cursorsOk_stopped (hl : s.life = .stopping) (h : CursorsOk s) : CursorsOk (stopped s) := by
  rw [stopped_eq]
  exact cursorsOk_congr (s := s) rfl (fun _ => .inr hl) h

theorem cursorsOk_applyRst (s : State) : CursorsOk (applyRst s) := fun h => absurd h (not_active_of_uninit rfl)

end Cursors

end Sys2Proof.Machine

namespace Sys2Proof.Machine

/-! ## Descriptors after each effect (20_memory.md R72, R78) -/

section Descriptors

variable {s t : State} {d : Dir} {k : Nat} {v : Desc}

/-- Of all descriptors of both rings only descriptor `k` of ring `d` may differ, and it is `v`. -/
def DescSet (d : Dir) (k : Nat) (v : Desc) (s t : State) : Prop :=
  t.cfg = s.cfg ∧ ∀ d' i, i < ringLen s.cfg d' → t.desc d' i = if (d', i) = (d, k) then v else s.desc d' i

theorem own_eq_status (s : State) (d : Dir) (i : Nat) : s.own d i = ownOf s.cfg (s.desc d i).status := rfl

theorem DescSet.own_same (h : DescSet d k v s t) (hk : k < ringLen s.cfg d) : t.own d k = ownOf s.cfg v.status := by
  obtain ⟨hc, hd⟩ := h
  rw [own_eq_status, hc, hd d k hk, if_pos rfl]

theorem DescSet.own_ne (h : DescSet d k v s t) {d' : Dir} {i : Nat} (hi : i < ringLen s.cfg d') (hne : (d', i) ≠ (d, k)) :
    t.own d' i = s.own d' i := by
  obtain ⟨hc, hd⟩ := h
  rw [own_eq_status, hc, hd d' i hi, if_neg hne, own_eq_status]

/-- The static words stay where the new descriptor has those of the old one. -/
theorem DescSet.staticWords (h : DescSet d k v s t) (hl : t.life = s.life)
    (hv : v.bufferAddress = (s.desc d k).bufferAddress ∧ v.next = (s.desc d k).next ∧
      (d = .rx → v.control = (s.desc d k).control)) (hs : StaticWords s) : StaticWords t := by
  obtain ⟨hc, hd⟩ := h
  obtain ⟨hb, hn, hr⟩ := hv
  intro hne d' i hi
  rw [hl] at hne
  rw [hc] at hi ⊢
  obtain ⟨h1, h2, h3⟩ := hs hne d' i hi
  rw [hd d' i hi]
  split
  · rename_i e
    obtain ⟨rfl, rfl⟩ := Prod.mk.inj e
    exact ⟨hb.trans h1, hn.trans h2, fun e' => (hr e').trans (h3 e')⟩
  · exact ⟨h1, h2, h3⟩

/-- A control word that holds a size that fits and no reserved bit (30_encoding.md R114, R130). -/
def ControlOk (c : Config) (control : Word) : Prop :=
  sizeOf c control ≤ c.slotSize ∧ control &&& controlReserved c = 0#32

theorem DescSet.txControls (h : DescSet d k v s t) (hl : t.life = s.life)
    (hv : d = .tx → v.control = (s.desc d k).control ∨ ControlOk s.cfg v.control) (hs : TxControls s) : TxControls t := by
  obtain ⟨hc, hd⟩ := h
  intro hne i hi
  rw [hl] at hne
  rw [hc] at hi ⊢
  have hold := hs hne i hi
  rw [hd .tx i hi]
  split
  · rename_i e
    obtain ⟨rfl, rfl⟩ := Prod.mk.inj e
    rcases hv rfl with e' | h'
    · rw [e']; exact hold
    · exact h'
  · exact hold

/-- A write of one status word, after bytes written elsewhere. -/
theorem descSet_status {w : Word} (hw : s.cfg.wf = true) (hk : k < ringLen s.cfg d) (hc : t.cfg = s.cfg) {m : Memory}
    (hm : t.mem = m.setWord (statusAddr s.cfg d k) w)
    (hd : ∀ d' i, i < ringLen s.cfg d' → m.desc s.cfg d' i = s.desc d' i) :
    DescSet d k { s.desc d k with status := w } s t := by
  refine ⟨hc, fun d' i hi => ?_⟩
  rw [State.desc_eq, hc, hm]
  split
  · rename_i e
    obtain ⟨rfl, rfl⟩ := Prod.mk.inj e
    rw [Memory.desc_setStatus_same hw _ _ hi, hd d' i hi]
  · rename_i e
    rw [Memory.desc_setStatus_ne hw _ _ hi hk e, hd d' i hi]

theorem descSet_returned (hw : s.cfg.wf = true) (hk : s.rxCur < s.cfg.nRx) :
    DescSet .rx s.rxCur { s.desc .rx s.rxCur with status := rxArmStatus s.cfg } s (returned s) :=
  descSet_status (d := .rx) hw hk rfl rfl fun _ _ _ => rfl

theorem descSet_txCompleted (hw : s.cfg.wf = true) (hk : s.devTxCur < s.cfg.nTx) (flags : Word) :
    DescSet .tx s.devTxCur { s.desc .tx s.devTxCur with status := txDoneStatus s.cfg flags } s (txCompleted flags s) :=
  descSet_status (d := .tx) hw hk rfl rfl fun _ _ _ => rfl

/-- The Device writes a frame into the slot its descriptor names (44_device_agent.md R255). -/
theorem descSet_rxFilled (hw : s.cfg.wf = true) (hk : s.devRxCur < s.cfg.nRx)
    (hb : (s.desc .rx s.devRxCur).bufferAddress = baddr s.cfg .rx s.devRxCur) {data : List Byte}
    (hlen : data.length ≤ s.cfg.slotSize) (len : Nat) (flags : Word) :
    DescSet .rx s.devRxCur { s.desc .rx s.devRxCur with status := rxFillStatus s.cfg flags len } s
      (rxFilled data len flags s) := by
  have hb' : s.wordAt (bufferAddressAddr s.cfg .rx s.devRxCur) = baddr s.cfg .rx s.devRxCur := hb
  refine descSet_status (d := .rx) hw hk rfl (by rw [rxFilled, hb']) fun d' i hi => ?_
  exact Memory.desc_setSlot hw _ hi (d' := .rx) hk hlen

theorem descSet_queued (hw : s.cfg.wf = true) (hk : s.txClaimCur < s.cfg.nTx) {payload : List Byte}
    (hlen : payload.length ≤ s.cfg.slotSize) :
    DescSet .tx s.txClaimCur
      { s.desc .tx s.txClaimCur with
        status := txSubmitStatus s.cfg, control := submitControl s.cfg (txf s.cfg) payload.length } s (queued payload s) := by
  have hc : (queued payload s).cfg = s.cfg := by rw [queued_eq]
  have hm : (queued payload s).mem = submitMem s.cfg s.txClaimCur payload (txf s.cfg) s.mem := by rw [queued_eq]
  refine ⟨hc, fun d' i hi => ?_⟩
  rw [State.desc_eq, hc, hm]
  split
  · rename_i e
    obtain ⟨rfl, rfl⟩ := Prod.mk.inj e
    exact desc_submitMem_same hw hk hlen _ _
  · rename_i e
    exact desc_submitMem_ne hw hk hlen _ _ hi e

/-- Every descriptor after INIT is as RING_INIT writes it (40_ring_primitives.md R151). -/
theorem desc_initialised (hw : s.cfg.wf = true) {i : Nat} (hi : i < ringLen s.cfg d) :
    (initialised s).desc d i = initDesc s.cfg d i := by
  have hin (d' : Dir) : ∀ j ∈ List.range (ringLen s.cfg d'), j < ringLen s.cfg d' := fun j hj => List.mem_range.1 hj
  have hmem : (initialised s).desc d i =
      (initMem s.cfg .rx (List.range (ringLen s.cfg .rx)) (initMem s.cfg .tx (List.range (ringLen s.cfg .tx)) s.mem)).desc
        s.cfg d i := by
    rw [initialised_eq]; rfl
  rw [hmem, desc_initMem hw _ (hin .rx) hi, desc_initMem hw _ (hin .tx) hi]
  cases d <;> simp [hi]

end Descriptors

/-! ## The rings: INV-CUR, INV-TXWIN, INV-RXWIN, INV-STATIC (10_state.md R60 to R63) -/

section Rings

variable {s t : State}

/-- The part of the invariant that speaks of the rings and of memory. -/
structure RingsOk (s : State) : Prop where
  cfgOk : s.cfg.wf = true
  memOk : s.mem.wf = true
  cursorsOk : CursorsOk s
  txWindow : TxWindow s
  rxWindow : RxWindow s
  staticWords : StaticWords s
  txControls : TxControls s

theorem Inv.ringsOk (h : Inv s) : RingsOk s :=
  ⟨h.cfgOk, h.memOk, h.cursorsOk, h.txWindow, h.rxWindow, h.staticWords, h.txControls⟩

/-! ### The windows as comparisons -/

theorem txWindow_iff (hc : CursorsOk s) (ha : Active s) : TxWindow s ↔
    ∃ k, k ≤ s.txInflight ∧ s.devTxCur = back s.txClaimCur k s.cfg.nTx ∧
      ∀ i, i < s.cfg.nTx → (s.own .tx i = true ↔ behind s.txClaimCur i s.cfg.nTx ≤ k) := by
  obtain ⟨h1, -, h3, -, -⟩ := hc ha
  unfold TxWindow
  rw [forall_prop_of_true ha]
  refine exists_congr fun k => and_congr_right fun hk => and_congr_right fun _ => forall_congr' fun i => forall_congr' fun hi => ?_
  rw [behind_le_iff h1 hi (by omega)]

theorem rxWindow_iff (hc : CursorsOk s) (ha : Active s) : RxWindow s ↔
    ∃ k, k ≤ s.cfg.nRx ∧ s.devRxCur = (s.rxCur + k) % s.cfg.nRx ∧
      (∀ i, i < s.cfg.nRx → (s.own .rx i = false ↔ ahead s.rxCur i s.cfg.nRx < k)) ∧ (s.rxHold = true → 1 ≤ k) := by
  obtain ⟨-, -, -, h4, -⟩ := hc ha
  unfold RxWindow
  rw [forall_prop_of_true ha]
  refine exists_congr fun k => and_congr_right fun hk => and_congr_right fun _ => and_congr_left fun _ =>
    forall_congr' fun i => forall_congr' fun hi => ?_
  rw [ahead_lt_iff h4 hi hk]

theorem devTxCur_lt (h : RingsOk s) (ha : Active s) : s.devTxCur < s.cfg.nTx := by
  obtain ⟨k, -, hd, -⟩ := h.txWindow ha
  exact hd ▸ back_lt (h.cursorsOk ha).1

theorem devRxCur_lt (h : RingsOk s) (ha : Active s) : s.devRxCur < s.cfg.nRx := by
  obtain ⟨k, -, hd, -⟩ := h.rxWindow ha
  exact hd ▸ Nat.mod_lt _ (wf_nRx_pos h.cfgOk)

/-- While a received frame is held, the slot at the RX cursor is software-owned (R62). -/
theorem own_of_hold (h : RingsOk s) (ha : Active s) (hh : s.rxHold = true) : s.own .rx s.rxCur = false := by
  obtain ⟨k, -, -, ho, hk⟩ := (rxWindow_iff h.cursorsOk ha).1 h.rxWindow
  obtain ⟨-, -, -, h4, -⟩ := h.cursorsOk ha
  rw [ho _ h4, ahead_self]
  exact hk hh

/-! ### What no effect touches -/

/-- What INV-TXWIN speaks of, but for `life` and the OWN bits. -/
def txView (s : State) : Config × Nat × Nat × Nat := (s.cfg, s.txClaimCur, s.txInflight, s.devTxCur)

/-- What INV-RXWIN speaks of, but for `life` and the OWN bits. -/
def rxView (s : State) : Config × Nat × Bool × Nat := (s.cfg, s.rxCur, s.rxHold, s.devRxCur)

theorem txWindow_congr (hv : txView t = txView s) (ha : Active t → Active s)
    (ho : ∀ i, i < s.cfg.nTx → t.own .tx i = s.own .tx i) (h : TxWindow s) : TxWindow t := by
  simp only [txView, Prod.mk.injEq] at hv
  obtain ⟨hc, h1, h2, h3⟩ := hv
  intro hact
  obtain ⟨k, hk, hd, hw⟩ := h (ha hact)
  rw [hc, h1, h2, h3]
  exact ⟨k, hk, hd, fun i hi => by rw [ho i hi]; exact hw i hi⟩

theorem rxWindow_congr (hv : rxView t = rxView s) (ha : Active t → Active s)
    (ho : ∀ i, i < s.cfg.nRx → t.own .rx i = s.own .rx i) (h : RxWindow s) : RxWindow t := by
  simp only [rxView, Prod.mk.injEq] at hv
  obtain ⟨hc, h1, h2, h3⟩ := hv
  intro hact
  obtain ⟨k, hk, hd, hw, hh⟩ := h (ha hact)
  rw [hc, h1, h2, h3]
  exact ⟨k, hk, hd, fun i hi => by rw [ho i hi]; exact hw i hi, hh⟩

/-- Everything `RingsOk` speaks of but `life`. -/
def ringView (s : State) : Memory × (Config × Nat × Nat × Nat × Nat) × (Config × Nat × Nat × Nat) × (Config × Nat × Bool × Nat) :=
  (s.mem, cursorView s, txView s, rxView s)

theorem ringsOk_congr (hv : ringView t = ringView s) (ha : Active t → Active s) (hb : t.life ≠ .uninit → s.life ≠ .uninit)
    (h : RingsOk s) : RingsOk t := by
  simp only [ringView, Prod.mk.injEq] at hv
  obtain ⟨hm, hcv, htv, hrv⟩ := hv
  have hc : t.cfg = s.cfg := congrArg Prod.fst hcv
  have hdesc (d : Dir) (i : Nat) : t.desc d i = s.desc d i := by rw [State.desc_eq, State.desc_eq, hc, hm]
  have hown (d : Dir) (i : Nat) : t.own d i = s.own d i := by rw [own_eq_status, own_eq_status, hc, hdesc]
  exact {
    cfgOk := by rw [hc]; exact h.cfgOk
    memOk := by rw [hm]; exact h.memOk
    cursorsOk := cursorsOk_congr hcv ha h.cursorsOk
    txWindow := txWindow_congr htv ha (fun i _ => hown .tx i) h.txWindow
    rxWindow := rxWindow_congr hrv ha (fun i _ => hown .rx i) h.rxWindow
    staticWords := fun hl d i hi => by
      rw [hc] at hi ⊢
      rw [hdesc]
      exact h.staticWords (hb hl) d i hi
    txControls := fun hl i hi => by
      rw [hc] at hi ⊢
      rw [hdesc]
      exact h.txControls (hb hl) i hi }

theorem ringsOk_of_life (hv : ringView t = ringView s) (hl : t.life = s.life) (h : RingsOk s) : RingsOk t :=
  ringsOk_congr hv (active_of_life hl) (fun hne => hl ▸ hne) h

/-! ### INIT (43_engine_facade.md R221) -/

theorem controlOk_txInit {c : Config} (hw : c.wf = true) : ControlOk c (txInitControl c) := by
  have h := control_holds hw (flagsOnly_chain hw) (Nat.zero_le c.slotSize)
  have e : bit c.chainBit ||| sizeField c 0 = txInitControl c := by simp [sizeField, txInitControl]
  rw [e] at h
  exact ⟨by omega, h.2⟩

theorem ringsOk_initialised (h : RingsOk s) (hh : s.rxHold = false) : RingsOk (initialised s) := by
  have hw := h.cfgOk
  have hcfg : (initialised s).cfg = s.cfg := by rw [initialised_eq]
  have hown (d : Dir) {i : Nat} (hi : i < ringLen s.cfg d) : (initialised s).own d i = ownOf s.cfg (initStatus s.cfg d) := by
    rw [own_eq_status, hcfg, desc_initialised hw hi]; rfl
  have hcur : CursorsOk (initialised s) := cursorsOk_initialised hw
  refine ⟨by rw [hcfg]; exact hw, ?_, hcur, ?_, ?_, ?_, ?_⟩
  · rw [initialised_eq]
    exact initMem_wf _ (initMem_wf _ h.memOk)
  · intro ha
    refine (txWindow_iff hcur ha).2 ⟨0, Nat.zero_le _, ?_, fun i hi => ?_⟩ ha
    · rw [initialised_eq, back_eq (wf_nTx_pos hw) (Nat.zero_le _)]; rfl
    · have hi' : i < ringLen s.cfg .tx := by rwa [hcfg] at hi
      have hpos := behind_pos (cur := (initialised s).txClaimCur) hi
      rw [hown .tx hi', initStatus, txInitStatus, ownOf_zero]
      simp only [Bool.false_eq_true, false_iff]
      omega
  · intro ha
    refine (rxWindow_iff hcur ha).2 ⟨0, Nat.zero_le _, ?_, fun i hi => ?_, ?_⟩ ha
    · rw [initialised_eq]; exact (Nat.zero_mod _).symm
    · have hi' : i < ringLen s.cfg .rx := by rwa [hcfg] at hi
      rw [hown .rx hi', initStatus, ownOf_rxArm hw]
      simp
    · rw [initialised_eq]
      simp [hh]
  · intro _ d i hi
    rw [hcfg] at hi ⊢
    rw [desc_initialised hw hi]
    refine ⟨rfl, rfl, ?_⟩
    rintro rfl
    rfl
  · intro _ i hi
    rw [hcfg] at hi ⊢
    rw [desc_initialised (d := .tx) hw hi]
    exact controlOk_txInit hw

/-! ### SUBMIT_TX inside QUEUE_TX (40_ring_primitives.md R155) -/

theorem controlOk_submit {c : Config} (hw : c.wf = true) {n : Nat} (hn : n ≤ c.slotSize) :
    ControlOk c (submitControl c (txf c) n) := by
  obtain ⟨h1, h2⟩ := control_holds hw (flagsOnly_txf c) hn
  exact ⟨h1.trans_le hn, h2⟩

/-- The window grows at its front: the claimed slot was software-owned, so the window was not the whole ring. -/
theorem txWindow_queued {payload : List Byte} (h : RingsOk s) (ha : Active s) (ho : s.own .tx s.txClaimCur = false)
    (hlen : payload.length ≤ s.cfg.slotSize) : TxWindow (queued payload s) := by
  obtain ⟨k, hk, hd, hwin⟩ := (txWindow_iff h.cursorsOk ha).1 h.txWindow
  obtain ⟨h1, -, h3, -, -⟩ := h.cursorsOk ha
  have hset := descSet_queued h.cfgOk h1 hlen
  have hkn : k < s.cfg.nTx := by
    have := hwin _ h1
    rw [ho, behind_self] at this
    simpa using this
  have hcur : CursorsOk (queued payload s) := cursorsOk_queued h.cursorsOk
  have hclaim : (queued payload s).txClaimCur = (s.txClaimCur + 1) % s.cfg.nTx := by rw [queued_eq]
  have hcfg : (queued payload s).cfg = s.cfg := hset.1
  intro ha'
  refine (txWindow_iff hcur ha').2 ⟨k + 1, ?_, ?_, fun i hi => ?_⟩ ha'
  · rw [queued_eq]
    dsimp only
    split <;> omega
  · rw [hclaim, hcfg, back_advance h1 hkn, queued_eq]
    exact hd
  · rw [hcfg] at hi
    rw [hclaim, hcfg]
    by_cases e : i = s.txClaimCur
    · rw [e, hset.own_same h1, ownOf_txSubmit h.cfgOk, behind_advance_self h1]
      simp
    · rw [hset.own_ne (d' := .tx) hi (by simpa using e), hwin i hi, behind_advance_ne h1 hi e]
      omega

theorem ringsOk_queued {payload : List Byte} (h : RingsOk s) (ha : Active s) (ho : s.own .tx s.txClaimCur = false)
    (hlen : payload.length ≤ s.cfg.slotSize) : RingsOk (queued payload s) := by
  have h1 := (h.cursorsOk ha).1
  have hset := descSet_queued h.cfgOk h1 hlen
  have hl : (queued payload s).life = s.life := by rw [queued_eq]
  exact {
    cfgOk := hset.1 ▸ h.cfgOk
    memOk := by rw [queued_eq]; exact submitMem_wf h.memOk
    cursorsOk := cursorsOk_queued h.cursorsOk
    txWindow := txWindow_queued h ha ho hlen
    rxWindow := rxWindow_congr (by rw [queued_eq]; rfl) (active_of_life hl) (fun i hi => hset.own_ne hi (by simp)) h.rxWindow
    staticWords := hset.staticWords hl ⟨rfl, rfl, fun e => by cases e⟩ h.staticWords
    txControls := hset.txControls hl (fun _ => .inr (controlOk_submit h.cfgOk hlen)) h.txControls }

/-! ### DEV_TX_COMPLETE (44_device_agent.md R253) -/

/-- The window shrinks at its back: the Device completes its oldest slot. -/
theorem txWindow_txCompleted (h : RingsOk s) (ha : Active s) (ho : s.own .tx s.devTxCur = true) (flags : Word) :
    TxWindow (txCompleted flags s) := by
  have hdev := devTxCur_lt h ha
  obtain ⟨k, hk, hd, hwin⟩ := (txWindow_iff h.cursorsOk ha).1 h.txWindow
  obtain ⟨h1, -, h3, -, -⟩ := h.cursorsOk ha
  have hset := descSet_txCompleted h.cfgOk hdev flags
  have hk1 : 1 ≤ k := Nat.le_trans (behind_pos hdev) ((hwin _ hdev).1 ho)
  have hcur : CursorsOk (txCompleted flags s) := cursorsOk_congr (s := s) rfl id h.cursorsOk
  refine fun ha' => (txWindow_iff hcur ha').2 ⟨k - 1, ?_, ?_, fun i hi => ?_⟩ ha'
  · exact Nat.le_trans (Nat.sub_le k 1) hk
  · change (s.devTxCur + 1) % s.cfg.nTx = back s.txClaimCur (k - 1) s.cfg.nTx
    rw [hd, advance_back h1 hk1 (by omega)]
  · change i < s.cfg.nTx at hi
    change (txCompleted flags s).own .tx i = true ↔ behind s.txClaimCur i s.cfg.nTx ≤ k - 1
    have hb := behind_eq_iff h1 hi hk1 (by omega)
    by_cases e : i = s.devTxCur
    · have hbk := hb.2 (e.trans hd)
      rw [e, hset.own_same hdev, (txDone_getLsbD h.cfgOk flags).1, ← e, hbk]
      simp only [Bool.false_eq_true, false_iff]
      omega
    · have hne : behind s.txClaimCur i s.cfg.nTx ≠ k := fun e' => e ((hb.1 e').trans hd.symm)
      rw [hset.own_ne (d' := .tx) hi (by simpa using e), hwin i hi]
      omega

theorem ringsOk_txCompleted (h : RingsOk s) (ha : Active s) (ho : s.own .tx s.devTxCur = true) (flags : Word) :
    RingsOk (txCompleted flags s) := by
  have hset := descSet_txCompleted h.cfgOk (devTxCur_lt h ha) flags
  exact {
    cfgOk := h.cfgOk
    memOk := Memory.setWord_wf _ _ h.memOk
    cursorsOk := cursorsOk_congr (s := s) rfl id h.cursorsOk
    txWindow := txWindow_txCompleted h ha ho flags
    rxWindow := rxWindow_congr (s := s) rfl id (fun i hi => hset.own_ne hi (by simp)) h.rxWindow
    staticWords := hset.staticWords rfl ⟨rfl, rfl, fun _ => rfl⟩ h.staticWords
    txControls := hset.txControls rfl (fun _ => .inl rfl) h.txControls }

/-! ### DEV_RX_FILL (44_device_agent.md R255) -/

theorem fillAllowed_iff {c : Config} {data : List Byte} {len : Nat} :
    fillAllowed c data len = true ↔ data.length ≤ c.slotSize ∧ len < 2 ^ c.rxLenW := by
  simp [fillAllowed]

theorem bufferAddress_of_active (h : RingsOk s) (ha : Active s) {d : Dir} {i : Nat} (hi : i < ringLen s.cfg d) :
    (s.desc d i).bufferAddress = baddr s.cfg d i := by
  refine (h.staticWords ?_ d i hi).1
  rcases ha with e | e <;> simp [e]

/-- The window grows at its front: the Device's slot was device-owned, so the window was not the whole ring. -/
theorem rxWindow_rxFilled {data : List Byte} {len : Nat} (h : RingsOk s) (ha : Active s) (ho : s.own .rx s.devRxCur = true)
    (hf : fillAllowed s.cfg data len = true) (flags : Word) : RxWindow (rxFilled data len flags s) := by
  have hdev := devRxCur_lt h ha
  obtain ⟨hlen, hfield⟩ := fillAllowed_iff.1 hf
  obtain ⟨k, hk, hd, hwin, hh⟩ := (rxWindow_iff h.cursorsOk ha).1 h.rxWindow
  obtain ⟨-, -, -, h4, -⟩ := h.cursorsOk ha
  have hset := descSet_rxFilled h.cfgOk hdev (bufferAddress_of_active h ha hdev) hlen len flags
  have hkn : k < s.cfg.nRx := by
    rcases Nat.lt_or_ge k s.cfg.nRx with hlt | hge
    · exact hlt
    · obtain rfl : k = s.cfg.nRx := by omega
      rw [Nat.add_mod_right, Nat.mod_eq_of_lt h4] at hd
      rw [hd, (hwin _ h4).2 (by rw [ahead_self]; omega)] at ho
      cases ho
  have hcur : CursorsOk (rxFilled data len flags s) := cursorsOk_congr (s := s) rfl id h.cursorsOk
  refine fun ha' => (rxWindow_iff hcur ha').2 ⟨k + 1, hkn, ?_, fun i hi => ?_, fun _ => Nat.succ_pos k⟩ ha'
  · change (s.devRxCur + 1) % s.cfg.nRx = (s.rxCur + (k + 1)) % s.cfg.nRx
    rw [hd, Nat.mod_add_mod, Nat.add_assoc]
  · change i < s.cfg.nRx at hi
    change (rxFilled data len flags s).own .rx i = false ↔ ahead s.rxCur i s.cfg.nRx < k + 1
    have hb := ahead_eq_iff h4 hi hkn
    by_cases e : i = s.devRxCur
    · have hbk := hb.2 (e.trans hd)
      rw [e, hset.own_same hdev, (rxFill_fields h.cfgOk flags hfield).1, ← e, hbk]
      simp
    · have hne : ahead s.rxCur i s.cfg.nRx ≠ k := fun e' => e ((hb.1 e').trans hd.symm)
      rw [hset.own_ne (d' := .rx) hi (by simpa using e), hwin i hi]
      omega

theorem ringsOk_rxFilled {data : List Byte} {len : Nat} (h : RingsOk s) (ha : Active s) (ho : s.own .rx s.devRxCur = true)
    (hf : fillAllowed s.cfg data len = true) (flags : Word) : RingsOk (rxFilled data len flags s) := by
  have hdev := devRxCur_lt h ha
  have hset := descSet_rxFilled h.cfgOk hdev (bufferAddress_of_active h ha hdev) (fillAllowed_iff.1 hf).1 len flags
  exact {
    cfgOk := h.cfgOk
    memOk := Memory.setWord_wf _ _ (Memory.setBytes_wf _ _ h.memOk)
    cursorsOk := cursorsOk_congr (s := s) rfl id h.cursorsOk
    txWindow := txWindow_congr (s := s) rfl id (fun i hi => hset.own_ne hi (by simp)) h.txWindow
    rxWindow := rxWindow_rxFilled h ha ho hf flags
    staticWords := hset.staticWords rfl ⟨rfl, rfl, fun _ => rfl⟩ h.staticWords
    txControls := hset.txControls rfl (fun _ => .inl rfl) h.txControls }

/-! ### RECLAIM_TX_COMPLETED (40_ring_primitives.md R158) -/

/-- The slots passed are software-owned, so the device-owned ones stay within what is left of the window. -/
theorem txWindow_reclaimed {n : Nat} (hc : CursorsOk s) (hw : TxWindow s) (hn : n ≤ s.txInflight)
    (hpass : ∀ j, j < n → s.own .tx (reclaimCursor s.cfg s.txReclaimCur j) = false) : TxWindow (reclaimed n s) := by
  intro ha
  change Active s at ha
  obtain ⟨k, hk, hd, hwin⟩ := (txWindow_iff hc ha).1 hw
  obtain ⟨h1, h2, h3, -, h5⟩ := hc ha
  have hkn : k ≤ s.txInflight - n := by
    rcases Nat.eq_zero_or_pos n with rfl | hpos
    · exact hk
    · have hlast := hpass (n - 1) (by omega)
      rw [reclaimCursor_eq h2] at hlast
      have hb := behind_of_offset h2 h3 (j := n - 1) (by omega)
      rw [h5] at hb
      have := hwin _ (Nat.mod_lt (s.txReclaimCur + (n - 1)) (by omega : 0 < s.cfg.nTx))
      rw [hlast, hb] at this
      simp only [Bool.false_eq_true, false_iff] at this
      omega
  exact (txWindow_iff (cursorsOk_reclaimed hn hc) ha).2 ⟨k, hkn, hd, hwin⟩ ha

theorem ringsOk_reclaimed {n : Nat} (h : RingsOk s) (hn : n ≤ s.txInflight)
    (hpass : ∀ j, j < n → s.own .tx (reclaimCursor s.cfg s.txReclaimCur j) = false) : RingsOk (reclaimed n s) where
  cfgOk := h.cfgOk
  memOk := h.memOk
  cursorsOk := cursorsOk_reclaimed hn h.cursorsOk
  txWindow := txWindow_reclaimed h.cursorsOk h.txWindow hn hpass
  rxWindow := h.rxWindow
  staticWords := h.staticWords
  txControls := h.txControls

/-! ### RX_TAKE and RX_RETURN (40_ring_primitives.md R161, R162) -/

/-- A frame is taken from a software-owned slot, so the window is not empty. -/
theorem ringsOk_hold (h : RingsOk s) (ho : s.own .rx s.rxCur = false) : RingsOk { s with rxHold := true } where
  cfgOk := h.cfgOk
  memOk := h.memOk
  cursorsOk := h.cursorsOk
  txWindow := h.txWindow
  rxWindow := fun ha => by
    obtain ⟨k, hk, hd, hwin, -⟩ := (rxWindow_iff h.cursorsOk ha).1 h.rxWindow
    obtain ⟨-, -, -, h4, -⟩ := h.cursorsOk ha
    have hk1 : ahead s.rxCur s.rxCur s.cfg.nRx < k := (hwin _ h4).1 ho
    rw [ahead_self] at hk1
    exact (rxWindow_iff (s := { s with rxHold := true }) h.cursorsOk ha).2 ⟨k, hk, hd, hwin, fun _ => hk1⟩ ha
  staticWords := h.staticWords
  txControls := h.txControls

/-- The window shrinks at its back: the slot at the RX cursor goes back to the Device. -/
theorem rxWindow_returned (h : RingsOk s) (ha : Active s) (hh : s.rxHold = true) : RxWindow (returned s) := by
  obtain ⟨k, hk, hd, hwin, hk1⟩ := (rxWindow_iff h.cursorsOk ha).1 h.rxWindow
  have hk1 := hk1 hh
  obtain ⟨-, -, -, h4, -⟩ := h.cursorsOk ha
  have hset := descSet_returned h.cfgOk h4
  refine fun ha' => (rxWindow_iff (cursorsOk_returned h.cursorsOk) ha').2 ⟨k - 1, ?_, ?_, fun i hi => ?_, ?_⟩ ha'
  · exact Nat.le_trans (Nat.sub_le k 1) hk
  · change s.devRxCur = ((s.rxCur + 1) % s.cfg.nRx + (k - 1)) % s.cfg.nRx
    rw [hd, Nat.mod_add_mod]
    congr 1
    omega
  · change i < s.cfg.nRx at hi
    change (returned s).own .rx i = false ↔ ahead ((s.rxCur + 1) % s.cfg.nRx) i s.cfg.nRx < k - 1
    by_cases e : i = s.rxCur
    · rw [e, hset.own_same h4, ownOf_rxArm h.cfgOk, ahead_advance_self h4]
      simp only [Bool.true_eq_false, false_iff]
      omega
    · have hb := ahead_advance_ne h4 hi e
      rw [hset.own_ne (d' := .rx) hi (by simpa using e), hwin i hi]
      omega
  · intro e
    exact absurd (show false = true from e) Bool.false_ne_true

theorem ringsOk_returned (h : RingsOk s) (ha : Active s) (hh : s.rxHold = true) : RingsOk (returned s) := by
  have hset := descSet_returned h.cfgOk (h.cursorsOk ha).2.2.2.1
  exact {
    cfgOk := h.cfgOk
    memOk := Memory.setWord_wf _ _ h.memOk
    cursorsOk := cursorsOk_returned h.cursorsOk
    txWindow := txWindow_congr (s := s) rfl id (fun i hi => hset.own_ne hi (by simp)) h.txWindow
    rxWindow := rxWindow_returned h ha hh
    staticWords := hset.staticWords rfl ⟨rfl, rfl, fun _ => rfl⟩ h.staticWords
    txControls := hset.txControls rfl (fun _ => .inl rfl) h.txControls }

/-! ### Operations -/

theorem active_of_deviceActive (h : deviceActive s = true) : Active s := (deviceActive_iff.1 h).1

theorem ringsOk_runDevMove {m : DevMove} (h : RingsOk s) (hm : runDevMove m s = .ok t) : RingsOk t := by
  rcases runDevMove_ok hm with
    ⟨flags, -, ha, ho, rfl⟩ | ⟨data, len, flags, -, ha, ho, hf, rfl⟩ | ⟨bits, -, rfl⟩ | ⟨raw, -, rfl⟩
  · exact ringsOk_txCompleted h (active_of_deviceActive ha) ho flags
  · exact ringsOk_rxFilled h (active_of_deviceActive ha) ho hf flags
  · exact ringsOk_of_life (s := s) rfl rfl h
  · exact ringsOk_of_life (s := s) rfl rfl h

theorem queueTx_ringsOk {len : Arg} (hs : RingsOk s) (h : exec (.queueTx len) s = .next t) : RingsOk t := by
  rcases queueTx_answers_or_queues h with ⟨code, rfl⟩ | ⟨hl, hlen, -, ho, u, hu, rfl⟩
  · exact ringsOk_of_life (s := s) rfl rfl hs
  · have hq := ringsOk_queued (payload := payloadIn s len.toNat) hs (.inl hl) ho hlen
    have hu' : RingsOk u := runDevMoves_induct hq (fun _ _ _ hv hm => ringsOk_runDevMove hv hm) hu
    exact ringsOk_of_life (s := u) rfl rfl hu'

theorem rxDrain_ringsOk (hlife : LifeOk s) (hs : RingsOk s) (h : exec .rxDrain s = .next t) : RingsOk t := by
  obtain ⟨⟨hp, -⟩, ⟨hh, -, rfl⟩ | ⟨-, k, rfl⟩ | ⟨-, -, ho, ht⟩⟩ := execRxDrain_cases h
  · have ha := active_of_worker hlife (.inr hp)
    exact ringsOk_of_life (s := returned s) rfl rfl (ringsOk_returned hs ha hh)
  · exact ringsOk_of_life (s := s) rfl rfl hs
  · have hu := ringsOk_hold hs ho
    rcases ht with rfl | rfl | ⟨bs, -, rfl⟩
    · exact ringsOk_of_life (s := { s with rxHold := true }) rfl rfl hu
    · exact ringsOk_of_life (s := { s with rxHold := true }) rfl rfl hu
    · exact ringsOk_of_life (s := { s with rxHold := true }) rfl rfl hu

/-- Between steps an embedded code is no move (log 9). -/
theorem not_stands_of_between {k : Caller} (hb : s.inside = none) (h : standsInside k s = true) : False := by
  rw [inside_of_stands h] at hb
  cases hb

theorem callerOf_of_between {i : Instr} (hb : s.inside = none) (h : exec i s = .next t) : callerOf i = none := by
  cases hk : callerOf i with
  | none => rfl
  | some k => exact (not_stands_of_between hb (stands_of_exec hk h)).elim

theorem exec_ringsOk {i : Instr} (hi : Inv s) (h : exec i s = .next t) : RingsOk t := by
  have hs := hi.ringsOk
  have hcall := callerOf_of_between hi.between h
  cases i with
  | init =>
    rcases init_answers_or_succeeds h with ⟨code, rfl⟩ | ⟨hl, rfl⟩
    · exact ringsOk_of_life (s := s) rfl rfl hs
    · obtain ⟨-, -, -, -, hh⟩ := (lifeOk_uninit hl).1 hi.lifeOk
      exact ringsOk_initialised hs hh
  | stop =>
    rcases execStop_ok h with ⟨-, rfl⟩ | ⟨hl, rfl⟩
    · exact ringsOk_of_life (s := s) rfl rfl hs
    · exact ringsOk_congr (s := s) rfl (fun _ => .inl hl) (fun _ => by simp [hl]) hs
  | queueTx len => exact queueTx_ringsOk hs h
  | rxDrain => exact rxDrain_ringsOk hi.lifeOk hs h
  | txReclaimPass =>
    obtain ⟨-, ⟨-, rfl⟩ | ⟨-, n, hn, rfl, hpass, -⟩⟩ := execTxReclaimPass_ok h
    · exact ringsOk_of_life (s := s) rfl rfl hs
    · exact ringsOk_of_life (s := reclaimed n s) rfl rfl (ringsOk_reclaimed hs hn hpass)
  | devTxComplete => exact ringsOk_runDevMove (m := .txComplete s.bus.devFlags) hs (finish_next.1 h)
  | devRxFill => exact ringsOk_runDevMove (m := .rxFill s.bus.data s.bus.len s.bus.devFlags) hs (finish_next.1 h)
  | ringInit _ | tryClaimNextTx | submitTx | reclaimTxCompleted | reapRx | linkUpdate => cases hcall
  | _ => exact ringsOk_of_life (s := s) (exec_view ringView h) (exec_view State.life h) hs

theorem exec_between {i : Instr} (hb : s.inside = none) (h : exec i s = .next t) : t.inside = none := by
  have hcall := callerOf_of_between hb h
  cases i with
  | ringInit _ | tryClaimNextTx | submitTx | reclaimTxCompleted | reapRx | linkUpdate => cases hcall
  | _ => exact (exec_view State.inside h).trans hb

theorem exec_inv {i : Instr} (hi : Inv s) (h : exec i s = .next t) : Inv t :=
  have hr := exec_ringsOk hi h
  { cfgOk := hr.cfgOk, memOk := hr.memOk, lifeOk := exec_lifeOk hi.lifeOk h, cursorsOk := hr.cursorsOk
    countersOk := exec_countersOk hi.countersOk h, txWindow := hr.txWindow, rxWindow := hr.rxWindow
    staticWords := hr.staticWords, txControls := hr.txControls, between := exec_between hi.between h }

/-- The second half of STOP leaves rings and memory alone. -/
theorem inv_stopped (h : Inv s) (hl : s.life = .stopping) (hw : s.wstate = .terminated) : Inv (stopped s) := by
  have hr : RingsOk (stopped s) := by
    rw [stopped_eq]
    exact ringsOk_congr (s := s) rfl (fun _ => .inr hl) (fun _ => by simp [hl]) h.ringsOk
  exact {
    cfgOk := hr.cfgOk, memOk := hr.memOk, lifeOk := lifeOk_stopped_of_stopping h.lifeOk hl hw, cursorsOk := hr.cursorsOk
    countersOk := countersOk_stopped h.countersOk, txWindow := hr.txWindow, rxWindow := hr.rxWindow
    staticWords := hr.staticWords, txControls := hr.txControls, between := by rw [stopped_eq]; exact h.between }

/-- In the state UNINIT the windows and the words of the descriptors are not spoken of. -/
theorem inv_of_uninit (hl : s.life = .uninit) (hc : s.cfg.wf = true) (hm : s.mem.wf = true) (hlife : LifeOk s)
    (hcnt : CountersOk s) (hb : s.inside = none) : Inv s where
  cfgOk := hc
  memOk := hm
  lifeOk := hlife
  cursorsOk := fun ha => absurd ha (not_active_of_uninit hl)
  countersOk := hcnt
  txWindow := fun ha => absurd ha (not_active_of_uninit hl)
  rxWindow := fun ha => absurd ha (not_active_of_uninit hl)
  staticWords := fun h => absurd hl h
  txControls := fun h => absurd hl h
  between := hb

theorem inv_applyRst (h : Inv s) : Inv (applyRst s) :=
  inv_of_uninit rfl h.cfgOk h.memOk (lifeOk_applyRst s) (countersOk_applyRst s) rfl

theorem inv_cmdNotSupported (h : Inv s) : Inv (cmdNotSupported s) :=
  ⟨h.cfgOk, h.memOk, h.lifeOk, h.cursorsOk, h.countersOk, h.txWindow, h.rxWindow, h.staticWords, h.txControls, h.between⟩

theorem inv_input (h : Inv s) (sched : List Entry) (bus : Bus) : Inv { s with sched := sched, bus := bus } :=
  ⟨h.cfgOk, h.memOk, h.lifeOk, h.cursorsOk, h.countersOk, h.txWindow, h.rxWindow, h.staticWords, h.txControls, h.between⟩

theorem inv_reset : Inv State.reset :=
  inv_of_uninit rfl (by decide) Memory.empty_wf ((lifeOk_uninit rfl).2 ⟨rfl, rfl, rfl, rfl, rfl⟩)
    ⟨Nat.two_pow_pos _, Nat.two_pow_pos _, Nat.two_pow_pos _, Nat.two_pow_pos _⟩ rfl

end Rings

end Sys2Proof.Machine

namespace Sys2Proof.Machine

/-! ## No fault (60_exceptions.md R309) -/

section Faults

variable {s : State} {α β : Type}

/-- An operation inside a step that is no fault, though it may make no move. -/
def Faultless (r : Run α) : Prop := ∀ f, r ≠ .error (.fault f)

theorem faultless_ok (a : α) : Faultless (.ok a : Run α) := fun _ h => by cases h

theorem faultless_noMove (r : Refusal) : Faultless (noMove r : Run α) := fun _ h => by cases h

theorem faultless_bind {r : Run α} {g : α → Run β} (hr : Faultless r) (hg : ∀ a, r = .ok a → Faultless (g a)) :
    Faultless (r >>= g) := by
  intro f h
  rcases run_bind_error.1 h with h | ⟨a, ha, h⟩
  · exact hr f h
  · exact hg a ha f h

theorem noFault_finish {r : Run State} (h : Faultless r) : NoFault (finish r) := fun f hf => h f (finish_fault.1 hf)

theorem faultless_whenInPhase {p : WPhase} {r : Run State} (h : s.wstate = .processing → Faultless r) :
    Faultless (whenInPhase p s r) := by
  unfold whenInPhase
  split
  · rename_i hp
    simp only [inPhase, Bool.and_eq_true, decide_eq_true_eq] at hp
    exact h hp.1
  · exact faultless_noMove _

/-- Between steps an embedded code is refused. -/
theorem noFault_whenInside {k : Caller} {r : Run State} (hb : s.inside = none) : NoFault (finish (whenInside k s r)) := by
  have h : standsInside k s = false := Bool.eq_false_iff.2 (not_stands_of_between hb)
  rw [whenInside_refused h]
  exact fun _ h => by cases h

/-! ### Device moves -/

theorem devTxComplete_faultless (hw : s.cfg.wf = true) (flags : Word) : Faultless (devTxComplete flags s) := by
  by_cases h : deviceActive s = true ∧ s.own .tx s.devTxCur = true
  · rw [devTxComplete_eq hw h.1 h.2]
    exact faultless_ok _
  · unfold devTxComplete
    rw [if_neg (by simpa using h)]
    exact faultless_noMove _

theorem devRxFill_faultless (hw : s.cfg.wf = true) (data : List Byte) (len : Nat) (flags : Word) :
    Faultless (devRxFill data len flags s) := by
  by_cases h : deviceActive s = true ∧ s.own .rx s.devRxCur = true
  · by_cases hf : fillAllowed s.cfg data len = true
    · rw [devRxFill_eq hw h.1 h.2 hf]
      exact faultless_ok _
    · unfold devRxFill
      rw [if_pos (by simp [h]), if_neg hf]
      exact faultless_noMove _
  · unfold devRxFill
    rw [if_neg (by simpa using h)]
    exact faultless_noMove _

theorem runDevMove_faultless (hw : s.cfg.wf = true) (m : DevMove) : Faultless (runDevMove m s) := by
  cases m with
  | txComplete flags => exact devTxComplete_faultless hw flags
  | rxFill data len flags => exact devRxFill_faultless hw data len flags
  | setStatus bits => exact faultless_ok _
  | linkSet raw => exact faultless_ok _

theorem runDevMove_cfg {m : DevMove} {t : State} (h : runDevMove m s = .ok t) : t.cfg = s.cfg := by
  rcases runDevMove_ok h with
    ⟨flags, -, -, -, rfl⟩ | ⟨data, len, flags, -, -, -, -, rfl⟩ | ⟨bits, -, rfl⟩ | ⟨raw, -, rfl⟩ <;> rfl

theorem runDevMoves_faultless (hw : s.cfg.wf = true) (ms : List DevMove) : Faultless (runDevMoves ms s) := by
  induction ms generalizing s with
  | nil => exact faultless_ok _
  | cons m rest ih =>
    refine faultless_bind (runDevMove_faultless hw m) fun u hu => ih ?_
    rw [runDevMove_cfg hu]
    exact hw

/-! ### Operations -/

theorem execInit_noFault (hw : s.cfg.wf = true) : NoFault (execInit s) := by
  by_cases h : s.life = .uninit ∧ s.bus.allocOk = true
  · rw [execInit_eq hw h.1 h.2]
    exact fun _ h => by cases h
  · refine noFault_finish ?_
    split
    · exact faultless_ok _
    · rename_i hl
      rw [if_pos (by simp_all)]
      exact faultless_ok _

/-- QUEUE_TX reaches memory only while `life` is RUNNING, with the region mapped (10_state.md R33). -/
theorem execQueueTx_noFault (hi : Inv s) (len : Arg) : NoFault (execQueueTx len s) := by
  refine noFault_finish ?_
  split
  · exact faultless_ok _
  rename_i hl
  have hr := region_of_active hi.lifeOk (.inl (not_not.1 hl))
  split
  · exact faultless_ok _
  split
  · exact faultless_ok _
  rw [tryClaimNextTx_eq hi.cfgOk hr, run_ok_bind]
  split
  · exact faultless_ok _
  · rename_i slot _
    rw [queueOnSlot, submitTx_eq (s := nextDraw s) hi.cfgOk hr, run_ok_bind]
    refine faultless_bind (runDevMoves_faultless ?_ _) fun u _ => faultless_ok _
    simpa using hi.cfgOk

theorem execIrqWait_noFault (s : State) : NoFault (execIrqWait s) := by
  refine noFault_finish ?_
  split
  · split
    · exact faultless_ok _
    · split <;> exact faultless_ok _
  · exact faultless_noMove _

theorem execRxDrain_noFault (hi : Inv s) : NoFault (execRxDrain s) := by
  refine noFault_finish (faultless_whenInPhase fun hp => ?_)
  have hr := region_of_active hi.lifeOk (active_of_worker hi.lifeOk (.inr hp))
  split
  · rw [drainReturn, rxReturn_eq hi.cfgOk hr, run_ok_bind]
    exact faultless_ok _
  · unfold drainTake
    split
    · rw [rxTake_eq hi.cfgOk hr, run_ok_bind]
      exact faultless_ok _
    · exact faultless_ok _

theorem execTxReclaimPass_noFault (hi : Inv s) : NoFault (execTxReclaimPass s) := by
  refine noFault_finish (faultless_whenInPhase fun hp => ?_)
  have hr := region_of_active hi.lifeOk (active_of_worker hi.lifeOk (.inr hp))
  split
  · obtain ⟨r, e⟩ := reclaimTxCompleted_total hi.cfgOk hr
    rw [e, run_ok_bind]
    exact faultless_ok _
  · exact faultless_ok _

theorem exec_noFault (hi : Inv s) (i : Instr) : NoFault (exec i s) := by
  cases i with
  | init => exact execInit_noFault hi.cfgOk
  | queueTx len => exact execQueueTx_noFault hi len
  | start id => exact noFault_finish (faultless_ok _)
  | stop => exact noFault_finish (faultless_ok _)
  | query => exact noFault_finish (faultless_ok _)
  | irqWait => exact execIrqWait_noFault s
  | statusRdclr => exact noFault_finish (faultless_whenInPhase fun _ => faultless_ok _)
  | linkPhase => exact noFault_finish (faultless_whenInPhase fun _ => faultless_ok _)
  | rxDrain => exact execRxDrain_noFault hi
  | abnormalCount => exact noFault_finish (faultless_whenInPhase fun _ => faultless_ok _)
  | txReclaimPass => exact execTxReclaimPass_noFault hi
  | devTxComplete => exact noFault_finish (devTxComplete_faultless hi.cfgOk _)
  | devRxFill => exact noFault_finish (devRxFill_faultless hi.cfgOk _ _ _)
  | devSetStatus => exact noFault_finish (faultless_ok _)
  | devLinkSet => exact noFault_finish (faultless_ok _)
  | ringInit _ | tryClaimNextTx | submitTx | reclaimTxCompleted | reapRx | linkUpdate => exact noFault_whenInside hi.between

theorem stopFinish_noFault (s : State) : NoFault (stopFinish s) := by
  refine noFault_finish ?_
  split
  · exact faultless_ok _
  · exact faultless_noMove _

theorem inv_afterFetch (h : Inv s) : Inv (afterFetch s) := by
  rw [afterFetch_eq]
  exact inv_input h _ _

theorem step_noFault (hi : Inv s) : NoFault (step s) := by
  unfold step
  rw [if_pos hi.cfgOk]
  split
  · exact exec_noFault (inv_afterFetch hi) _
  · exact fun _ h => by cases h
  · exact stopFinish_noFault _
  · exact fun _ h => by cases h
  · exact fun _ h => by cases h
  · exact fun _ h => by cases h

end Faults

/-! ## Who writes shared memory (10_state.md R33, R59; 44_device_agent.md R251) -/

section Writes

variable {s t : State} {i : Instr} {c : Config} {d : Dir} {k : Nat} {x : Addr}

theorem keepsMemory_of_mem (h : t.mem = s.mem) : keepsMemory s t := fun x => congrArg (fun m => m.byte x) h

theorem exec_keepsMemory_unmapped (hr : s.regionValid = false) (hinit : i ≠ .init) (hdev : i.deviceMove = false)
    (h : exec i s = .next t) : keepsMemory s t := by
  have unmapped : s.regionValid ≠ true := by simp [hr]
  cases i with
  | init => exact absurd rfl hinit
  | devTxComplete | devRxFill | devSetStatus | devLinkSet => cases hdev
  | queueTx len =>
    rcases queueTx_answers_or_queues h with ⟨code, rfl⟩ | ⟨-, -, hm, -⟩
    · exact keepsMemory_of_mem rfl
    · exact absurd hm unmapped
  | rxDrain =>
    obtain ⟨-, ⟨-, hm, -⟩ | ⟨-, k, rfl⟩ | ⟨-, hm, -⟩⟩ := execRxDrain_cases h
    · exact absurd hm unmapped
    · exact keepsMemory_of_mem rfl
    · exact absurd hm unmapped
  | ringInit d => exact absurd (standsInside_region (stands_of_exec rfl h) (by decide)) unmapped
  | submitTx => exact absurd (standsInside_region (stands_of_exec rfl h) (by decide)) unmapped
  | reapRx => exact absurd (standsInside_region (stands_of_exec rfl h) (by decide)) unmapped
  | _ => exact keepsMemory_of_mem (exec_view State.mem h)

/-- A byte of slot `k` of ring `d`: of its descriptor or of its buffer. -/
def inRingSlot (c : Config) (d : Dir) (k : Nat) (x : Addr) : Prop := inDesc c d k x ∨ inSlot c d k c.slotSize x

theorem inDesc_of_status (h : inWord (statusAddr c d k) x) : inDesc c d k x := by
  obtain ⟨h1, h2⟩ := h
  exact ⟨h1, by change x.toNat < (daddr c d k).toNat + 4 at h2; omega⟩

theorem inDesc_of_control (hw : c.wf = true) (hk : k < ringLen c d) (h : inWord (controlAddr c d k) x) : inDesc c d k x := by
  have e4 : (controlAddr c d k).toNat = _ := descByte_toNat hw hk (k := 4) (by omega)
  have e0 := daddr_toNat hw hk
  unfold inWord at h
  unfold inDesc
  omega

theorem inSlot_mono {n m : Nat} (hnm : n ≤ m) (h : inSlot c d k n x) : inSlot c d k m x := by
  obtain ⟨h1, h2⟩ := h
  exact ⟨h1, by omega⟩

theorem byte_of_submitMem_ne (hw : c.wf = true) (hk : k < c.nTx) {payload : List Byte} (hlen : payload.length ≤ c.slotSize)
    {flags : Word} {m : Memory} (hx : (submitMem c k payload flags m).byte x ≠ m.byte x) : inRingSlot c .tx k x := by
  by_contra hout
  obtain ⟨hd, hs⟩ := not_or.1 hout
  exact hx (byte_submitMem hw hk hlen flags m (mt inDesc_of_status hd) (mt (inDesc_of_control (d := .tx) hw hk) hd)
    (mt (inSlot_mono hlen) hs))

theorem byte_of_returned_ne (hw : s.cfg.wf = true) (hx : (returned s).byteAt x ≠ s.byteAt x) :
    inRingSlot s.cfg .rx s.rxCur x := by
  by_contra hout
  obtain ⟨hd, -⟩ := not_or.1 hout
  exact hx (byte_returned hw (mt inDesc_of_status hd))

/-- A controller step other than INIT writes into a software-owned slot: the one QUEUE_TX claims, the one RX_DRAIN returns. -/
theorem controller_writes (hi : Inv s) (hb : s.bus.split = []) (hinit : i ≠ .init) (hdev : i.deviceMove = false)
    (h : exec i s = .next t) (hx : t.byteAt x ≠ s.byteAt x) :
    ∃ d k, k < ringLen s.cfg d ∧ s.own d k = false ∧ inRingSlot s.cfg d k x := by
  have hcall := callerOf_of_between hi.between h
  cases i with
  | init => exact absurd rfl hinit
  | devTxComplete | devRxFill | devSetStatus | devLinkSet => cases hdev
  | ringInit _ | tryClaimNextTx | submitTx | reclaimTxCompleted | reapRx | linkUpdate => cases hcall
  | queueTx len =>
    rcases queueTx_answers_or_queues h with ⟨code, rfl⟩ | ⟨hl, hlen, -, ho, u, hu, rfl⟩
    · exact absurd rfl hx
    · obtain rfl : queued (payloadIn s len.toNat) s = u := by simpa [hb, runDevMoves] using hu
      have hk := (hi.cursorsOk (.inl hl)).1
      have hm : (queued (payloadIn s len.toNat) s).mem =
          submitMem s.cfg s.txClaimCur (payloadIn s len.toNat) (txf s.cfg) s.mem := by rw [queued_eq]
      change (queued (payloadIn s len.toNat) s).mem.byte x ≠ s.mem.byte x at hx
      rw [hm] at hx
      exact ⟨.tx, s.txClaimCur, hk, ho, byte_of_submitMem_ne hi.cfgOk hk hlen hx⟩
  | rxDrain =>
    obtain ⟨⟨hp, -⟩, ⟨hh, -, rfl⟩ | ⟨-, k, rfl⟩ | ⟨-, -, -, rfl | rfl | ⟨bs, -, rfl⟩⟩⟩ := execRxDrain_cases h
    · have ha := active_of_worker hi.lifeOk (.inr hp)
      obtain ⟨-, -, -, hk, -⟩ := hi.cursorsOk ha
      exact ⟨.rx, s.rxCur, hk, own_of_hold hi.ringsOk ha hh, byte_of_returned_ne hi.cfgOk hx⟩
    · exact absurd rfl hx
    · exact absurd rfl hx
    · exact absurd rfl hx
    · exact absurd rfl hx
  | _ => exact absurd (keepsMemory_of_mem (exec_view State.mem h) x) hx

theorem byte_of_txCompleted_ne (hw : s.cfg.wf = true) {flags : Word} (hx : (txCompleted flags s).byteAt x ≠ s.byteAt x) :
    inWord (statusAddr s.cfg .tx s.devTxCur) x := by
  by_contra hout
  exact hx (Memory.byte_setWord_notIn _ _ (statusAddr_aligned hw _ _) hout)

theorem byte_of_rxFilled_ne (hw : s.cfg.wf = true) (hk : s.devRxCur < s.cfg.nRx)
    (hb : (s.desc .rx s.devRxCur).bufferAddress = baddr s.cfg .rx s.devRxCur) {data : List Byte}
    (hlen : data.length ≤ s.cfg.slotSize) {len : Nat} {flags : Word}
    (hx : (rxFilled data len flags s).byteAt x ≠ s.byteAt x) :
    inWord (statusAddr s.cfg .rx s.devRxCur) x ∨ inSlot s.cfg .rx s.devRxCur s.cfg.slotSize x := by
  have hb' : s.wordAt (bufferAddressAddr s.cfg .rx s.devRxCur) = baddr s.cfg .rx s.devRxCur := hb
  by_contra hout
  obtain ⟨hst, hsl⟩ := not_or.1 hout
  refine hx ((Memory.byte_setWord_notIn _ _ (statusAddr_aligned hw _ _) hst).trans ?_)
  rw [hb']
  exact Memory.byte_setSlot_notIn (d := .rx) hw _ hk hlen (mt (inSlot_mono hlen) hsl)

/-- A Device move writes the status word and, of an RX slot, the buffer of the device-owned slot at its cursor. -/
theorem device_writes (hi : Inv s) (hdev : i.deviceMove = true) (h : exec i s = .next t) (hx : t.byteAt x ≠ s.byteAt x) :
    ∃ d k, k < ringLen s.cfg d ∧ s.own d k = true ∧
      (inWord (statusAddr s.cfg d k) x ∨ (d = .rx ∧ inSlot s.cfg d k s.cfg.slotSize x)) := by
  cases i with
  | devTxComplete =>
    obtain ⟨ha, ho, rfl⟩ := execDevTxComplete_ok h
    exact ⟨.tx, s.devTxCur, devTxCur_lt hi.ringsOk (active_of_deviceActive ha), ho, .inl (byte_of_txCompleted_ne hi.cfgOk hx)⟩
  | devRxFill =>
    obtain ⟨ha, ho, hf, rfl⟩ := execDevRxFill_ok h
    have hact := active_of_deviceActive ha
    have hk := devRxCur_lt hi.ringsOk hact
    have hb := bufferAddress_of_active hi.ringsOk hact (d := .rx) hk
    exact ⟨.rx, s.devRxCur, hk, ho, (byte_of_rxFilled_ne hi.cfgOk hk hb (fillAllowed_iff.1 hf).1 hx).imp_right fun h => ⟨rfl, h⟩⟩
  | devSetStatus => exact absurd (keepsMemory_of_mem (exec_view State.mem h) x) hx
  | devLinkSet => exact absurd (keepsMemory_of_mem (exec_view State.mem h) x) hx
  | _ => cases hdev

end Writes

end Sys2Proof.Machine

namespace Sys2Proof

open Machine

/-- Settles O49: the frames, clause by clause. -/
theorem agentsWriteOnlyTheirOwnState : Obligations.AgentsWriteOnlyTheirOwnState := by
  intro s t
  have called {i : Instr} {k : Caller} (hk : callerOf i = some k) (h : exec i s = .next t) :
      s.inside = some k ∧ t = framed i s t := ⟨inside_of_stands (stands_of_exec hk h), exec_frame h⟩
  exact ⟨exec_frame, fun _ => exec_frame, exec_frame, fun _ => queueTx_frame_unsplit, exec_frame, exec_frame, exec_frame,
    exec_frame, exec_frame, exec_frame, exec_frame, exec_frame, exec_frame, exec_frame, exec_frame,
    fun _ => called rfl, called rfl, called rfl, called rfl, called rfl, called rfl⟩

/-- Settles O14: every operation keeps the configuration, and so does every other move of a step. -/
theorem stepKeepsTheConfiguration : Obligations.StepKeepsTheConfiguration := fun s _ h =>
  step_keeps (P := fun u => u.cfg = s.cfg) (fun _ _ _ hu => hu) (fun _ _ _ _ hu hx => (exec_cfg hx).trans hu) (fun _ hu => hu)
    (fun u _ _ hu => by rw [stopped_eq]; exact hu) (fun _ hu => hu) h rfl

/-- Settles O15, along the five ways a step reaches a next state. -/
theorem stepMovesLifeAlongItsTransitions : Obligations.StepMovesLifeAlongItsTransitions := by
  intro s t h hne
  have hf : (afterFetch s).life = s.life := by rw [afterFetch_eq]
  obtain ⟨-, ⟨i, hm, hx⟩ | ⟨-, rfl⟩ | ⟨hm, hx⟩ | ⟨hm, rfl⟩ | ⟨-, rfl⟩⟩ := step_ok h
  · rcases exec_life hx with hl | ⟨rfl, hl, rfl⟩ | ⟨rfl, hl, rfl⟩
    · exact absurd (hl.trans hf).symm hne
    · exact .inl ⟨hf.symm.trans hl, by rw [initialised_eq], hm, by rw [initialised_eq]⟩
    · exact .inr (.inl ⟨hf.symm.trans hl, rfl, hm⟩)
  · exact absurd hf.symm hne
  · obtain ⟨hl, -, rfl⟩ := stopFinish_ok hx
    exact .inr (.inr (.inl ⟨hf.symm.trans hl, by rw [stopped_eq], hm⟩))
  · exact .inr (.inr (.inr ⟨rfl, hm⟩))
  · exact absurd hf.symm hne

/-- Settles O17. -/
theorem stepKeepsTheLifecycleConsistent : Obligations.StepKeepsTheLifecycleConsistent := fun _ _ hs h =>
  step_keeps (P := LifeOk) (fun _ _ _ hu => hu) (fun _ _ _ _ hu hx => exec_lifeOk hu hx) (fun _ hu => hu)
    (fun _ hl hw hu => lifeOk_stopped_of_stopping hu hl hw) (fun u _ => lifeOk_applyRst u) h hs

/-- Settles O19. -/
theorem stepKeepsTheCountersInRange : Obligations.StepKeepsTheCountersInRange := fun _ _ hs h =>
  step_keeps (P := CountersOk) (fun _ _ _ hu => hu) (fun _ _ _ _ hu hx => exec_countersOk hu hx) (fun _ hu => hu)
    (fun _ _ _ hu => countersOk_stopped hu) (fun u _ => countersOk_applyRst u) h hs

/-- Settles O51, operation by operation. -/
theorem clientEventsCarryTheBoundHandle : Obligations.ClientEventsCarryTheBoundHandle := fun _ _ _ h => exec_carries h

/-- Settles O10: the reset table against the fields of `State.reset`. -/
theorem resetHoldsTheStatedValues : Obligations.ResetHoldsTheStatedValues := by
  unfold Obligations.ResetHoldsTheStatedValues
  decide

/-- Settles O18: a step either keeps INV-CUR by `exec_cursorsOk` or leaves an engine that is not active. -/
theorem stepKeepsTheCursorInvariant : Obligations.StepKeepsTheCursorInvariant :=
  ⟨fun ha => absurd ha (not_active_of_uninit rfl), fun _ _ hs h =>
    step_keeps (P := CursorsOk) (fun _ _ _ hu => hu) (fun _ _ _ hw hu hx => exec_cursorsOk hw hu hx)
      (fun u hu => cursorsOk_congr (s := u) rfl id hu) (fun _ hl _ hu => cursorsOk_stopped hl hu)
      (fun u _ => cursorsOk_applyRst u) h hs⟩

/-- Settles O20: each part of the invariant is kept by every operation (`exec_inv`) and by the moves that are none. -/
theorem stepKeepsTheInvariant : Obligations.StepKeepsTheInvariant := fun _ _ hs h =>
  step_keeps (P := Inv) (fun _ _ _ hu => inv_input hu _ _) (fun _ _ _ _ hu hx => exec_inv hu hx)
    (fun _ hu => inv_cmdNotSupported hu) (fun _ hl hw hu => inv_stopped hu hl hw) (fun _ hu => inv_applyRst hu) h hs

/-- Settles O12. -/
theorem resetMeetsTheInvariant : Obligations.ResetMeetsTheInvariant := inv_reset

/-- Settles O21. -/
theorem stepNeverFaultsFromTheInvariant : Obligations.StepNeverFaultsFromTheInvariant := fun _ hi => step_noFault hi

/-- Settles O50: an operation that writes memory has come past a check of the region. -/
theorem noControllerWriteWhileUnmapped : Obligations.NoControllerWriteWhileUnmapped :=
  fun _ _ _ hr hinit hdev h => exec_keepsMemory_unmapped hr hinit hdev h

/-- Settles O52. -/
theorem ownersAloneWriteTheirSlots : Obligations.OwnersAloneWriteTheirSlots := fun _ _ _ hi hb h _ hx =>
  ⟨fun hdev hinit _ => controller_writes hi hb hinit hdev h hx, fun hdev => device_writes hi hdev h hx⟩

end Sys2Proof

/-! Proofs of the statements of 20_memory.md. -/

namespace Sys2Proof.Machine

/-! ## The canonical form of memory (20_memory.md R70; log 5) -/

section Canonical

variable {s t : State} {i : Instr}

/-! ### Each effect that writes memory -/

theorem initialised_mem_wf (h : s.mem.wf = true) : (initialised s).mem.wf = true := by
  rw [initialised_eq]
  exact initMem_wf _ (initMem_wf _ h)

theorem queued_mem_wf {payload : List Byte} (h : s.mem.wf = true) : (queued payload s).mem.wf = true := by
  rw [queued_eq]
  exact submitMem_wf h

theorem returned_mem_wf (h : s.mem.wf = true) : (returned s).mem.wf = true := Memory.setWord_wf _ _ h

theorem txCompleted_mem_wf {flags : Word} (h : s.mem.wf = true) : (txCompleted flags s).mem.wf = true :=
  Memory.setWord_wf _ _ h

theorem rxFilled_mem_wf {data : List Byte} {len : Nat} {flags : Word} (h : s.mem.wf = true) :
    (rxFilled data len flags s).mem.wf = true :=
  Memory.setWord_wf _ _ (Memory.setBytes_wf _ _ h)

/-- RX_TAKE reads memory only (40_ring_primitives.md R161). -/
theorem takeAnswer_mem (s : State) : (takeAnswer s).1.mem = s.mem := by
  rcases takeAnswer_cases s with ⟨e, -⟩ | ⟨e, -⟩ | ⟨bs, e, -⟩
  all_goals exact congrArg (fun r => r.1.mem) e

/-! ### Operations -/

theorem runDevMove_mem_wf {m : DevMove} (h : s.mem.wf = true) (hm : runDevMove m s = .ok t) : t.mem.wf = true := by
  rcases runDevMove_ok hm with ⟨_, -, -, -, rfl⟩ | ⟨_, _, _, -, -, -, -, rfl⟩ | ⟨_, -, rfl⟩ | ⟨_, -, rfl⟩
  · exact txCompleted_mem_wf h
  · exact rxFilled_mem_wf h
  · exact h
  · exact h

/-- The operations that write memory do so through `setWord` and `setBytes`; for every other one memory is outside its frame. -/
theorem exec_mem_wf (hs : s.mem.wf = true) (h : exec i s = .next t) : t.mem.wf = true := by
  cases i with
  | init =>
    rcases init_answers_or_succeeds h with ⟨code, rfl⟩ | ⟨-, rfl⟩
    · exact hs
    · exact initialised_mem_wf hs
  | queueTx len =>
    rcases queueTx_answers_or_queues h with ⟨code, rfl⟩ | ⟨-, -, -, -, u, hu, rfl⟩
    · exact hs
    · have hu' : u.mem.wf = true := runDevMoves_induct (P := fun v => v.mem.wf = true) (queued_mem_wf hs)
        (fun _ _ _ hv hm => runDevMove_mem_wf hv hm) hu
      exact hu'
  | rxDrain =>
    obtain ⟨-, ⟨-, -, rfl⟩ | ⟨-, k, rfl⟩ | ⟨-, -, -, rfl | rfl | ⟨bs, -, rfl⟩⟩⟩ := execRxDrain_cases h
    · exact returned_mem_wf hs
    all_goals exact hs
  | ringInit d =>
    obtain ⟨-, rfl⟩ := execRingInit_ok h
    cases d <;> exact initMem_wf _ hs
  | submitTx =>
    obtain ⟨-, -, -, -, -, rfl⟩ := execSubmitTx_ok h
    rw [submitBookkeeping_eq]
    exact submitMem_wf hs
  | reapRx =>
    obtain ⟨-, ⟨-, rfl⟩ | ⟨-, rfl⟩⟩ := execReapRx_ok h
    · exact returned_mem_wf hs
    · exact (takeAnswer_mem s).symm ▸ hs
  | devTxComplete =>
    obtain ⟨-, -, rfl⟩ := execDevTxComplete_ok h
    exact txCompleted_mem_wf hs
  | devRxFill =>
    obtain ⟨-, -, -, rfl⟩ := execDevRxFill_ok h
    exact rxFilled_mem_wf hs
  | _ => exact (congrArg Memory.wf (exec_view State.mem h)).trans hs

end Canonical

end Sys2Proof.Machine

namespace Sys2Proof

open Machine

/-- Settles O13: each operation keeps the form by `exec_mem_wf`; every other move of a step leaves memory as it is. -/
theorem stepKeepsMemoryCanonical : Obligations.StepKeepsMemoryCanonical := fun _ _ hs h =>
  step_keeps (P := fun u => u.mem.wf = true) (fun _ _ _ hu => hu) (fun _ _ _ _ hu hx => exec_mem_wf hu hx) (fun _ hu => hu)
    (fun u _ _ hu => by rw [stopped_eq]; exact hu) (fun _ hu => hu) h hs

end Sys2Proof

/-! Proofs of the statements of 30_encoding.md. -/

namespace Sys2Proof

/-! ## Decoding (30_encoding.md R124, R126, R127, R129) -/

section Decoding

variable {w : Word} {i : Instr}

/-- Operation `i` with its operand read from the field `arg` (R124); an operation that ignores `arg` stays. -/
def Instr.withArg : Instr → Arg → Instr
  | .start _, arg => .start arg
  | .queueTx _, arg => .queueTx arg
  | .ringInit _, arg => .ringInit (decodeDir arg)
  | i, _ => i

theorem withArg_encodeArg (i : Instr) : i.withArg (encodeArg i) = i := by
  cases i with
  | ringInit d => cases d <;> rfl
  | _ => rfl

/-- The decoder at the code of an operation: the operation, with the word's operand. -/
theorem decode_of_wordOp (h : wordOp w = opcode i) : decode w = .ok (i.withArg (wordArg w)) := by
  rw [decode, h]
  cases i <;> rfl

theorem decode_append (i : Instr) (arg : Arg) : decode (arg ++ opcode i) = .ok (i.withArg arg) := by
  rw [decode_of_wordOp (wordOp_append arg (opcode i)), wordArg_append]

theorem decode_encode (i : Instr) : decode (encode i) = .ok i := by
  rw [decode_of_wordOp (wordOp_encode i), wordArg_encode, withArg_encodeArg]

/-- A word decodes to the operation of its code with the operand it carries, and to nothing else. -/
theorem decode_ok_iff : decode w = .ok i ↔ wordOp w = opcode i ∧ i.withArg (wordArg w) = i := by
  constructor
  · intro h
    have hop := wordOp_of_decode h
    rw [decode_of_wordOp hop] at h
    exact ⟨hop, Except.ok.inj h⟩
  · rintro ⟨hop, harg⟩
    rw [decode_of_wordOp hop, harg]

theorem encode_eq_of_encodeArg (h : decode w = .ok i) (harg : encodeArg i = wordArg w) : encode i = w := by
  rw [encode, mkWord, harg, ← wordOp_of_decode h]
  exact word_eta w

theorem wordArg_getLsbD_zero (w : Word) : (wordArg w).getLsbD 0 = w.getLsbD 8 := by
  simp [wordArg]

/-- `dir` is one bit: words of the same direction agree in it. -/
theorem getLsbD_zero_of_decodeDir_eq {a b : Arg} (h : decodeDir a = decodeDir b) : a.getLsbD 0 = b.getLsbD 0 := by
  unfold decodeDir at h
  cases ha : a.getLsbD 0 <;> cases hb : b.getLsbD 0 <;> simp_all

/-- The codes of R129 that no operation has. -/
def ReservedCode (op : Nat) : Prop :=
  op = 0x00 ∨ (0x06 ≤ op ∧ op ≤ 0x0F) ∨ (0x15 ≤ op ∧ op ≤ 0x1F) ∨ (0x27 ≤ op ∧ op ≤ 0x2F) ∨ 0x34 ≤ op

theorem opcode_not_reserved (i : Instr) : ¬ReservedCode (opcode i).toNat := by
  cases i <;> simp [ReservedCode, opcode]

/-- The one reason for which the decoder rejects a word. -/
theorem decode_error {e : DecodeError} (h : decode w = .error e) : e = .reservedOp (wordOp w) := by
  unfold decode at h
  split at h <;> cases h
  rfl

theorem decode_of_reserved (h : ReservedCode (wordOp w).toNat) : decode w = .error (.reservedOp (wordOp w)) := by
  cases hd : decode w with
  | ok i => rw [wordOp_of_decode hd] at h; exact absurd h (opcode_not_reserved i)
  | error e => rw [decode_error hd]

/-- Outside the reserved codes the last case of the decoder is never reached. -/
theorem decode_of_not_reserved (h : ¬ReservedCode (wordOp w).toNat) : ∃ i, decode w = .ok i := by
  unfold decode
  split
  case h_22 =>
    exfalso
    simp only [imp_false] at *
    unfold ReservedCode at h
    omega
  all_goals exact ⟨_, rfl⟩

end Decoding

/-- Settles O3: the code and the operand stand in the two fields of the word that `encode` makes, and `decode` reads both back. -/
theorem decodeOfEncodeIsTheOperation : Obligations.DecodeOfEncodeIsTheOperation := by
  refine ⟨decode_encode, fun w i h => ?_⟩
  obtain ⟨hop, harg⟩ := decode_ok_iff.1 h
  refine ⟨(wordOp_encode i).trans hop.symm, ?_, ?_, ?_⟩
  · rintro id rfl
    exact encode_eq_of_encodeArg h (Instr.start.inj harg).symm
  · rintro len rfl
    exact encode_eq_of_encodeArg h (Instr.queueTx.inj harg).symm
  · rintro d rfl
    have hdir : decodeDir (encodeArg (.ringInit d)) = decodeDir (wordArg w) :=
      Instr.ringInit.inj ((withArg_encodeArg (.ringInit d)).trans harg.symm)
    rw [← wordArg_getLsbD_zero, ← wordArg_getLsbD_zero, wordArg_encode, getLsbD_zero_of_decodeDir_eq hdir]

/-- Settles O1: each word is the encoding of its operation. -/
theorem decodeReadsWordsOfTheSpec : Obligations.DecodeReadsWordsOfTheSpec :=
  ⟨decode_encode .init, decode_encode (.start 7#24), decode_encode .stop, decode_encode (.queueTx 1#24), decode_encode .query,
    decode_encode (.ringInit .rx), decode_encode .txReclaimPass, decode_encode .devLinkSet⟩

/-- Settles O2: `decode_append` at the code of each operation. -/
theorem decodeFollowsTheCodeTables : Obligations.DecodeFollowsTheCodeTables := fun arg =>
  ⟨decode_append .init arg, decode_append (.start 0#24) arg, decode_append .stop arg, decode_append (.queueTx 0#24) arg,
    decode_append .query arg, decode_append (.ringInit .tx) arg, decode_append .tryClaimNextTx arg, decode_append .submitTx arg,
    decode_append .reclaimTxCompleted arg, decode_append .reapRx arg, decode_append .irqWait arg, decode_append .statusRdclr arg,
    decode_append .linkPhase arg, decode_append .rxDrain arg, decode_append .abnormalCount arg, decode_append .txReclaimPass arg,
    decode_append .linkUpdate arg, decode_append .devTxComplete arg, decode_append .devRxFill arg, decode_append .devSetStatus arg,
    decode_append .devLinkSet arg⟩

/-- Settles O4: a reserved code is no operation's, and every other code is one's. -/
theorem onlyReservedCodesFailToDecode : Obligations.OnlyReservedCodesFailToDecode := by
  intro w
  by_cases h : ReservedCode (wordOp w).toNat
  · have he := decode_of_reserved h
    exact ⟨⟨fun _ => h, fun _ => he⟩, .inr he⟩
  · obtain ⟨i, hi⟩ := decode_of_not_reserved h
    exact ⟨⟨fun he => (nomatch hi.symm.trans he), fun hr => absurd hr h⟩, .inl ⟨i, hi⟩⟩

/-! ## A word on its port (30_encoding.md R125, R127, R129; 60_exceptions.md R300 (1)) -/

namespace Machine

/-- The operations of a port's agent. -/
def issues : Port → Instr → Bool
  | .client, i => i.external
  | .sequencer, i => !i.external && !i.deviceMove
  | .device, i => i.deviceMove

section Ports

variable {s : State} {o : Op} {rest : List Entry} {p : Port} {w : Word} {i : Instr}

theorem moveOf_issued (hd : decode w = .ok i) (hi : issues p i = true) : moveOf p w = .run i := by
  cases p <;> simp_all [moveOf, issues]

theorem moveOf_foreign (hd : decode w = .ok i) (hi : issues p i = false) (hp : p ≠ .client) :
    moveOf p w = .refuse .wrongAgent := by
  cases p <;> simp_all [moveOf, issues]

theorem moveOf_reserved {e : DecodeError} (hd : decode w = .error e) (hp : p ≠ .client) :
    moveOf p w = .refuse .reservedTag := by
  cases p <;> simp_all [moveOf]

theorem moveOf_client_not_command (h : ∀ i, decode w = .ok i → i.external = false) : moveOf .client w = .notSupported := by
  cases hd : decode w with
  | ok i => simp [moveOf, hd, h i hd]
  | error e => simp [moveOf, hd]

theorem nextMove_op (hs : s.sched = .op o :: rest) : nextMove s = moveOf o.port o.word := by
  simp only [nextMove, hs]

theorem afterFetch_op (hs : s.sched = .op o :: rest) : afterFetch s = { s with sched := rest, bus := o.bus } := by
  simp only [afterFetch, hs]

theorem step_issued (hw : s.cfg.wf = true) (hs : s.sched = .op o :: rest) (hd : decode o.word = .ok i)
    (hi : issues o.port i = true) : step s = exec i { s with sched := rest, bus := o.bus } := by
  rw [step, if_pos hw, nextMove_op hs, moveOf_issued hd hi, afterFetch_op hs]

theorem step_refused {r : Refusal} (hw : s.cfg.wf = true) (hm : nextMove s = .refuse r) : step s = .refused r := by
  rw [step, if_pos hw, hm]

/-- The answer to a word that is no command, in the words of the statements (10_state.md R49). -/
theorem cmdNotSupported_eq_answered (s : State) : cmdNotSupported s = answered s [] .notSupported .zero := by
  simp [cmdNotSupported, result, resultWith, emit, answered]

theorem step_not_command (hw : s.cfg.wf = true) (hs : s.sched = .op o :: rest) (hp : o.port = .client)
    (h : ∀ i, decode o.word = .ok i → i.external = false) :
    step s = .next (answered { s with sched := rest, bus := o.bus } [] .notSupported .zero) := by
  rw [step, if_pos hw, nextMove_op hs, hp, moveOf_client_not_command h, afterFetch_op hs, ← cmdNotSupported_eq_answered]

end Ports

end Machine

open Machine

/-- The five commands have the codes 0x01 to 0x05. -/
theorem external_opcode_le {i : Instr} (h : i.external = true) : 1 ≤ (opcode i).toNat ∧ (opcode i).toNat ≤ 5 := by
  cases i with
  | init => exact Laws.OpField.init.2.1.1 h
  | start id => exact (Laws.OpField.start id).2.1.1 h
  | stop => exact Laws.OpField.stop.2.1.1 h
  | queueTx len => exact (Laws.OpField.queueTx len).2.1.1 h
  | query => exact Laws.OpField.query.2.1.1 h
  | _ => cases h

/-- Settles O6. -/
theorem stepRunsTheDecodedOperation : Obligations.StepRunsTheDecodedOperation := by
  rintro s ⟨port, word, bus⟩ rest i hw hs hd hport
  refine step_issued hw hs hd ?_
  cases port with
  | client => exact hport
  | sequencer =>
    obtain ⟨hext, hdev⟩ := hport
    simp [issues, hext, hdev]
  | device => exact hport

/-- Settles O7: the three words no agent but their own issues, by what `moveOf` answers for them. -/
theorem stepRefusesAForeignWord : Obligations.StepRefusesAForeignWord := by
  intro s o rest hw hs
  have refused {r : Refusal} (hm : moveOf o.port o.word = .refuse r) : step s = .refused r :=
    step_refused hw ((nextMove_op hs).trans hm)
  refine ⟨fun i hd hp hi => refused (moveOf_foreign hd ?_ (by simp [hp])),
    fun i hd hp hi => refused (moveOf_foreign hd ?_ (by simp [hp])), fun op hd hp => refused (moveOf_reserved hd hp)⟩
  · rcases hi with hi | hi <;> simp [hp, issues, hi]
  · rw [hp]; exact hi

/-- Settles O5: the code of a word that is no command is outside 1 to 5; INIT, STOP and QUERY are decoded by their code alone. -/
theorem cmdAnswersNotSupported : Obligations.CmdAnswersNotSupported := by
  intro s w b rest hw hs op s'
  have runs (i : Instr) (hop : wordOp w = opcode i) (harg : i.withArg (wordArg w) = i) (hi : i.external = true) :
      step s = exec i s' := step_issued hw hs (decode_ok_iff.2 ⟨hop, harg⟩) hi
  refine ⟨fun hop => step_not_command hw hs rfl fun i hd => ?_, fun hop => runs .init (BitVec.eq_of_toNat_eq hop) rfl rfl,
    fun hop => runs .stop (BitVec.eq_of_toNat_eq hop) rfl rfl, fun hop => runs .query (BitVec.eq_of_toNat_eq hop) rfl rfl⟩
  have hcode : (opcode i).toNat = op := congrArg BitVec.toNat (wordOp_of_decode hd).symm
  by_contra hi
  have := external_opcode_le (Bool.eq_true_of_not_eq_false hi)
  omega

/-! ## Words the controller writes (30_encoding.md R118, R120) -/

theorem Machine.bit_eq_ofNat (b : Nat) : bit b = BitVec.ofNat 32 (2 ^ b) := by
  apply BitVec.eq_of_toNat_eq
  simp [bit, Nat.shiftLeft_eq]

/-- Settles O58. -/
theorem constantWordsAreThoseOfTheTable : Obligations.ConstantWordsAreThoseOfTheTable := by
  refine ⟨fun c => ?_, by decide⟩
  simp only [txInitStatus, txInitControl, rxArmStatus, rxInitControl, txSubmitStatus, txf, bit_eq_ofNat, and_self]

/-- Settles O59: a length that fits is below 2^SIZE_W, and the four flag bits are those of TXF. -/
theorem sizeFieldHoldsTheLength : Obligations.SizeFieldHoldsTheLength := by
  refine fun c n h => ⟨sizeField_toNat h n, fun hn => ⟨sizeOf_submitControl h hn, fun b hb => ?_⟩⟩
  have hflag : (txf c).getLsbD b = true := by
    rw [txf_getLsbD h]
    simpa [or_assoc] using hb
  rw [BitVec.getLsbD_or, hflag, Bool.true_or]

end Sys2Proof

/-! Proofs of the statements of 40_ring_primitives.md. -/

namespace Sys2Proof.Machine

/-! ## Outside the enabling condition (41_interrupt_dispatcher.md R181, 42_link_monitor.md R210, 44_device_agent.md R263) -/

section Disabled

variable {s : State} {i : Instr} {k : Caller} {p : WPhase}

theorem whenInPhase_refused (h : ¬(s.wstate = .processing ∧ s.wphase = p)) (r : Run State) :
    finish (whenInPhase p s r) = .refused .notEnabled := by
  have hp : inPhase p s = false := by simpa [inPhase] using h
  rw [whenInPhase, hp]
  rfl

/-- A body that makes no move is refused inside the caller as outside it. -/
theorem whenInside_noMove (k : Caller) (s : State) :
    finish (whenInside k s (noMove .notEnabled)) = .refused .notEnabled := by
  unfold whenInside
  split <;> rfl

/-- An embedded code is refused wherever the sequencer does not stand inside its caller. -/
theorem exec_refused_outside (hk : callerOf i = some k) (h : standsInside k s = false) : exec i s = .refused .notEnabled := by
  cases i with
  | ringInit _ | tryClaimNextTx | submitTx | reclaimTxCompleted | reapRx | linkUpdate =>
    cases hk
    exact whenInside_refused h _
  | _ => cases hk

theorem execIrqWait_refused (h : s.wstate ≠ .waiting) : execIrqWait s = .refused .notEnabled := by
  rw [execIrqWait, if_neg h]
  rfl

theorem execSubmitTx_refused (h : submitAllowed s = false) : execSubmitTx s = .refused .notEnabled := by
  rw [execSubmitTx, if_neg (by simp [h])]
  exact whenInside_noMove _ _

theorem execLinkUpdate_refused (h : s.bus.raw ≠ s.linkStatus) : execLinkUpdate s = .refused .notEnabled := by
  rw [execLinkUpdate, regRead_linkStatus, if_neg h]
  exact whenInside_noMove _ _

theorem execDevTxComplete_refused (h : ¬(deviceActive s = true ∧ s.own .tx s.devTxCur = true)) :
    execDevTxComplete s = .refused .notEnabled := by
  rw [execDevTxComplete, devTxComplete, if_neg (by simpa using h)]
  rfl

theorem execDevRxFill_refused (h : ¬(deviceActive s = true ∧ s.own .rx s.devRxCur = true)) :
    execDevRxFill s = .refused .notEnabled := by
  rw [execDevRxFill, devRxFill, if_neg (by simpa using h)]
  rfl

/-- Outside its window of activity the Device makes neither of its two memory moves (44_device_agent.md R263). -/
theorem not_deviceActive (h : ¬(s.life = .running ∨ s.life = .stopping) ∨ s.devQuiesced = true) : ¬deviceActive s = true := by
  rw [deviceActive_iff]
  rintro ⟨hl, hq⟩
  rcases h with h | h
  · exact h hl
  · simp [hq] at h

/-- Each of SUBMIT_TX's four operand tests is needed. -/
theorem submitAllowed_eq_false (h : s.bus.slot ≠ s.txClaimCur ∨ s.own .tx s.bus.slot = true ∨
    s.cfg.slotSize < s.bus.payload.length ∨ s.bus.flags &&& ~~~(txf s.cfg) ≠ 0#32) : submitAllowed s = false := by
  refine Bool.eq_false_iff.2 fun hall => ?_
  obtain ⟨hslot, hown, hlen, hflags⟩ := submitAllowed_iff.1 hall
  rcases h with h | h | h | h
  · exact h hslot
  · simp [hown] at h
  · omega
  · exact h (of_decide_eq_true hflags)

/-- The Worker step of each phase of a pass (41_interrupt_dispatcher.md R181). -/
def phaseStep : WPhase → Instr
  | .rdclr => .statusRdclr
  | .link => .linkPhase
  | .rx => .rxDrain
  | .abn => .abnormalCount
  | .txr => .txReclaimPass

theorem workerOp_of_phase (h : s.wstate = .processing ∧ s.wphase = p) : workerOp s = some (phaseStep p) := by
  obtain ⟨hw, hp⟩ := h
  cases p <;> simp only [workerOp, hw, hp, phaseStep]

/-- Between steps, what makes a move is a command, a Device move or the one Worker step R181 enables, or the Worker is blocked. -/
theorem mover_of_exec {t : State} (hb : s.inside = none) (h : exec i s = .next t) :
    i.external = true ∨ i.deviceMove = true ∨ workerOp s = some i ∨ (i = .irqWait ∧ t = s) := by
  have hcall := callerOf_of_between hb h
  cases i with
  | init | start _ | stop | queueTx _ | query => exact .inl rfl
  | devTxComplete | devRxFill | devSetStatus | devLinkSet => exact .inr (.inl rfl)
  | ringInit _ | tryClaimNextTx | submitTx | reclaimTxCompleted | reapRx | linkUpdate => cases hcall
  | irqWait =>
    obtain ⟨hw, ⟨hv, -⟩ | ⟨-, hp, -⟩ | ⟨-, -, ht⟩⟩ := execIrqWait_ok h
    · exact .inr (.inr (.inl (by simp [workerOp, waitReturns, hw, hv])))
    · exact .inr (.inr (.inl (by simp [workerOp, waitReturns, hw, hp])))
    · exact .inr (.inr (.inr ⟨rfl, ht⟩))
  | statusRdclr => exact .inr (.inr (.inl (workerOp_of_phase (execStatusRdclr_ok h).1)))
  | linkPhase => exact .inr (.inr (.inl (workerOp_of_phase (execLinkPhase_ok h).1)))
  | rxDrain => exact .inr (.inr (.inl (workerOp_of_phase (execRxDrain_ok h).1)))
  | abnormalCount => exact .inr (.inr (.inl (workerOp_of_phase (execAbnormalCount_ok h).1)))
  | txReclaimPass => exact .inr (.inr (.inl (workerOp_of_phase (execTxReclaimPass_ok h).1)))

end Disabled

/-! ## Each primitive where its caller stands on a mapped region (40_ring_primitives.md R151 to R162) -/

section Primitives

variable {s t : State}

theorem execRingInit_eq (hw : s.cfg.wf = true) (h : standsInside .init s = true) (d : Dir) : execRingInit d s =
    .next (answerCaller .nothing
      (resetCursors d { s with mem := initMem s.cfg d (List.range (ringLen s.cfg d)) s.mem })) := by
  rw [execRingInit, whenInside_eq h, ringInit_eq hw (standsInside_region h (by decide))]
  rfl

theorem execTryClaimNextTx_eq (hw : s.cfg.wf = true) (h : standsInside .queueTx s = true) :
    execTryClaimNextTx s = .next (answerCaller (.claim (claimAnswer s)) s) := by
  rw [execTryClaimNextTx, whenInside_eq h, tryClaimNextTx_eq hw (standsInside_region h (by decide))]
  rfl

theorem execSubmitTx_eq (hw : s.cfg.wf = true) (h : standsInside .queueTx s = true) (ha : submitAllowed s = true) :
    execSubmitTx s = .next (answerCaller .nothing (submitBookkeeping s.bus.slot
      { s with mem := submitMem s.cfg s.bus.slot s.bus.payload s.bus.flags s.mem })) := by
  rw [execSubmitTx, whenInside_eq h, if_pos ha, submitTx_eq hw (standsInside_region h (by decide))]
  rfl

theorem execReapRx_take (hw : s.cfg.wf = true) (h : standsInside .rxDrain s = true) (hh : s.rxHold = false) {a : RxTake}
    (e : takeAnswer s = (t, a)) : execReapRx s = .next (answerCaller (takeReturn s.reapReturned a) t) := by
  rw [execReapRx, whenInside_eq h, if_neg (by simp [hh]), rxTake_eq hw (standsInside_region h (by decide)), e]
  rfl

theorem execReapRx_return (hw : s.cfg.wf = true) (h : standsInside .rxDrain s = true) (hh : s.rxHold = true) :
    execReapRx s = .next (answerCaller .nothing (returned s)) := by
  rw [execReapRx, whenInside_eq h, if_pos hh, rxReturn_eq hw (standsInside_region h (by decide))]
  rfl

/-- Inside its caller RECLAIM_TX_COMPLETED always answers. -/
theorem execReclaimTxCompleted_total (hw : s.cfg.wf = true) (h : standsInside .txReclaimPass s = true) :
    ∃ t, execReclaimTxCompleted s = .next t := by
  obtain ⟨r, hr⟩ := reclaimTxCompleted_total hw (standsInside_region h (by decide))
  exact ⟨_, by rw [execReclaimTxCompleted, whenInside_eq h, hr]; rfl⟩

/-- Where RING_INIT writes: the descriptors of its ring, all of them (R151). -/
theorem initMem_effect (hw : s.cfg.wf = true) (d : Dir) (hc : t.cfg = s.cfg)
    (hm : t.mem = initMem s.cfg d (List.range (ringLen s.cfg d)) s.mem) :
    (∀ i, i < ringLen s.cfg d → t.desc d i = initDesc s.cfg d i) ∧
    keepsOutside (fun x => ∃ i, i < ringLen s.cfg d ∧ inDesc s.cfg d i x) s t := by
  have hin : ∀ j ∈ List.range (ringLen s.cfg d), j < ringLen s.cfg d := fun j hj => List.mem_range.1 hj
  refine ⟨fun i hi => ?_, fun x hx => ?_⟩
  · rw [State.desc_eq, hc, hm, desc_initMem hw _ hin hi, if_pos ⟨rfl, List.mem_range.2 hi⟩]
  · rw [State.byteAt, hm]
    exact byte_initMem hw _ hin _ fun j hj hx' => hx ⟨j, hin j hj, hx'⟩

/-- Where SUBMIT_TX writes: the status and control words of the slot and the bytes of its buffer (R155). -/
theorem submitMem_effect (hw : s.cfg.wf = true) {slot : Nat} (hk : slot < s.cfg.nTx) {payload : List Byte}
    (hlen : payload.length ≤ s.cfg.slotSize) {flags : Word} (hc : t.cfg = s.cfg)
    (hm : t.mem = submitMem s.cfg slot payload flags s.mem) :
    t.desc .tx slot = { s.desc .tx slot with
      status := txSubmitStatus s.cfg, control := submitControl s.cfg flags payload.length } ∧
    t.slotBytes .tx slot payload.length = payload ∧
    keepsOutside (fun x => inWord (statusAddr s.cfg .tx slot) x ∨ inWord (controlAddr s.cfg .tx slot) x ∨
      inSlot s.cfg .tx slot payload.length x) s t := by
  refine ⟨?_, ?_, fun x hx => ?_⟩
  · rw [State.desc_eq, hc, hm]
    exact desc_submitMem_same hw hk hlen _ _
  · rw [slotBytes_eq, hc, hm]
    exact slot_submitMem hw hk hlen _ _
  · obtain ⟨hst, hctl, hbuf⟩ : ¬_ ∧ ¬_ ∧ ¬_ := by simpa only [not_or] using hx
    rw [State.byteAt, hm]
    exact byte_submitMem hw hk hlen _ _ hst hctl hbuf

/-- Where RX_RETURN writes: the status word of the slot at the RX cursor (R162). -/
theorem returned_effect (hw : s.cfg.wf = true) (hk : s.rxCur < s.cfg.nRx) (hc : t.cfg = s.cfg)
    (hm : t.mem = (returned s).mem) :
    t.desc .rx s.rxCur = { s.desc .rx s.rxCur with status := rxArmStatus s.cfg } ∧
    keepsOutside (inWord (statusAddr s.cfg .rx s.rxCur)) s t := by
  refine ⟨?_, fun x hx => ?_⟩
  · rw [State.desc_eq, hc, hm]
    exact desc_returned hw hk
  · rw [State.byteAt, hm]
    exact byte_returned hw hx

end Primitives

/-! ## RX_DRAIN (41_interrupt_dispatcher.md R188, R189) -/

section Drain

variable {s t : State}

theorem execRxDrain_noCause (hp : s.wstate = .processing ∧ s.wphase = .rx) (hh : s.rxHold = false)
    (hrx : rxCompleteOf s.cfg s.isrLatch = false) : execRxDrain s = .next (toPhase .abn s) := by
  simp only [execRxDrain, finish_next, whenInPhase_ok]
  exact ⟨hp, by simp [hh, drainTake, hrx]⟩

theorem execRxDrain_take (hw : s.cfg.wf = true) (hr : s.regionValid = true)
    (hp : s.wstate = .processing ∧ s.wphase = .rx) (hh : s.rxHold = false) (hrx : rxCompleteOf s.cfg s.isrLatch = true)
    {a : RxTake} (e : takeAnswer s = (t, a)) : execRxDrain s = .next (consume a t) := by
  simp only [execRxDrain, finish_next, whenInPhase_ok]
  refine ⟨hp, ?_⟩
  rw [if_neg (by simp [hh]), drainTake, if_pos hrx, rxTake_eq hw hr, e]
  rfl

theorem execRxDrain_return (hw : s.cfg.wf = true) (hr : s.regionValid = true)
    (hp : s.wstate = .processing ∧ s.wphase = .rx) (hh : s.rxHold = true) :
    execRxDrain s = .next (emit .rxRearm (returned s)) := by
  simp only [execRxDrain, finish_next, whenInPhase_ok]
  refine ⟨hp, ?_⟩
  rw [if_pos hh, drainReturn, rxReturn_eq hw hr]
  rfl

/-! The delivery gate (R189). -/

theorem consume_delivers {bs : List Byte} (hb : s.bound = true) (ho : s.online = true) :
    consume (.frame bs) s = emit (.rxDeliver s.clientId bs) s := by
  simp [consume, hb, ho]

theorem consume_drops {bs : List Byte} (h : s.bound = false ∨ s.online = false) : consume (.frame bs) s = countRxDrop s := by
  rcases h with h | h <;> simp [consume, h]

end Drain

/-! ## INIT, START and STOP, case by case (43_engine_facade.md R221, R223, R226) -/

section Commands

variable {s : State} {id : Arg}

theorem execInit_again (hl : s.life ≠ .uninit) : execInit s = .next (result .badState s) := by
  rw [execInit, if_pos hl]
  rfl

theorem execInit_noMemory (hl : s.life = .uninit) (ha : s.bus.allocOk = false) :
    execInit s = .next (result .noMemory s) := by
  rw [execInit, if_neg (not_not.2 hl), if_pos ha]
  rfl

theorem execStart_notRunning (hl : s.life ≠ .running) : execStart id s = .next (result .badState s) := by
  rw [execStart, if_pos hl]
  rfl

theorem execStart_alreadyBound (hl : s.life = .running) (hb : s.bound = true) :
    execStart id s = .next (result .alreadyBound s) := by
  rw [execStart, if_neg (not_not.2 hl), if_pos hb]
  rfl

theorem execStart_binds (hl : s.life = .running) (hb : s.bound = false) : execStart id s =
    .next (result .ok (emit (.linkNotify id s.online) { s with bound := true, clientId := id })) := by
  rw [execStart, if_neg (not_not.2 hl), if_neg (by simp [hb])]
  rfl

theorem execStop_notRunning (hl : s.life ≠ .running) : execStop s = .next (result .ok s) := by
  rw [execStop, if_pos hl]
  rfl

theorem execStop_begins (hl : s.life = .running) : execStop s = .next (stopBegin s) := by
  rw [execStop, if_neg (not_not.2 hl)]
  rfl

end Commands

/-! ## QUEUE_TX, case by case (43_engine_facade.md R229) -/

section QueueTx

variable {s : State} {len : Arg}

theorem result_eq_answered (code : ResultCode) (s : State) : result code s = answered s [] code .zero := by
  simp [result, resultWith, emit, answered]

theorem execQueueTx_notRunning (hl : s.life ≠ .running) : execQueueTx len s = .next (result .unavailable s) := by
  rw [execQueueTx, if_pos hl]
  rfl

theorem execQueueTx_offline (hl : s.life = .running) (ho : s.online = false) :
    execQueueTx len s = .next (result .unavailable s) := by
  rw [execQueueTx, if_neg (not_not.2 hl), if_pos ho]
  rfl

theorem execQueueTx_oversize (hl : s.life = .running) (ho : s.online = true) (hs : s.cfg.slotSize < len.toNat) :
    execQueueTx len s = .next (result .invalidArgs s) := by
  rw [execQueueTx, if_neg (not_not.2 hl), if_neg (by simp [ho]), if_pos hs]
  rfl

theorem execQueueTx_full (hw : s.cfg.wf = true) (hl : s.life = .running) (ho : s.online = true)
    (hs : len.toNat ≤ s.cfg.slotSize) (hr : s.regionValid = true) (hown : s.own .tx s.txClaimCur = true) :
    execQueueTx len s = .next (result .unavailable s) := by
  rw [execQueueTx, if_neg (not_not.2 hl), if_neg (by simp [ho]), if_neg (Nat.not_lt.2 hs), tryClaimNextTx_eq hw hr,
    claimAnswer, if_pos hown]
  rfl

/-- The state QUEUE_TX leaves when it has queued a frame with no Device move at its split point. -/
def sent (payload : List Byte) (s : State) : State := result .ok (emit .txDoorbell (queued payload s))

theorem execQueueTx_sent (hw : s.cfg.wf = true) (hl : s.life = .running) (ho : s.online = true)
    (hs : len.toNat ≤ s.cfg.slotSize) (hr : s.regionValid = true) (hown : s.own .tx s.txClaimCur = false)
    (hb : s.bus.split = []) : execQueueTx len s = .next (sent (payloadIn s len.toNat) s) :=
  execQueueTx_eq hw hl ho hs hr hown (by rw [hb]; rfl)

theorem payloadIn_length (s : State) (n : Nat) : (payloadIn s n).length = n := by simp [payloadIn]

/-- QUEUE_TX that queues a frame, field by field. -/
theorem sent_eq (payload : List Byte) (s : State) : sent payload s = { answered s [.txDoorbell] .ok .zero with
    txClaimCur := (s.txClaimCur + 1) % s.cfg.nTx
    txReclaimCur := if s.txInflight = s.cfg.nTx then (s.txReclaimCur + 1) % s.cfg.nTx else s.txReclaimCur
    txInflight := if s.txInflight = s.cfg.nTx then s.txInflight else s.txInflight + 1
    txReclaimedCount :=
      if s.txInflight = s.cfg.nTx then (s.txReclaimedCount + 1) % 2 ^ s.cfg.cntW else s.txReclaimedCount
    drawCtr := s.drawCtr + 1
    mem := submitMem s.cfg s.txClaimCur payload (txf s.cfg) s.mem } := by
  rw [sent, queued_eq]
  rfl

theorem descSet_sent (hw : s.cfg.wf = true) (hk : s.txClaimCur < s.cfg.nTx) {payload : List Byte}
    (hlen : payload.length ≤ s.cfg.slotSize) :
    DescSet .tx s.txClaimCur
      { s.desc .tx s.txClaimCur with
        status := txSubmitStatus s.cfg, control := submitControl s.cfg (txf s.cfg) payload.length } s (sent payload s) :=
  descSet_queued hw hk hlen

end QueueTx

/-! ## The room in the TX ring (40_ring_primitives.md R166) -/

section Room

variable {s : State} {m : Nat} {len : Arg}

/-- The engine takes frames, and exactly the `m` TX slots from the claim cursor on are software-owned. -/
structure HasRoom (m : Nat) (s : State) : Prop where
  inv : Inv s
  running : s.life = .running
  online : s.online = true
  unsplit : s.bus.split = []
  room_le : m ≤ s.cfg.nTx
  free_iff : ∀ i, i < s.cfg.nTx → (s.own .tx i = false ↔ ahead s.txClaimCur i s.cfg.nTx < m)

theorem HasRoom.claim_lt (h : HasRoom m s) : s.txClaimCur < s.cfg.nTx := (h.inv.cursorsOk (.inl h.running)).1

theorem HasRoom.region (h : HasRoom m s) : s.regionValid = true := region_of_active h.inv.lifeOk (.inl h.running)

theorem ahead_lt {cur i n : Nat} (hc : cur < n) (hi : i < n) : ahead cur i n < n := by
  unfold ahead
  split <;> omega

/-- A ring whose slots are all software-owned has room for all of them. -/
theorem hasRoom_of_idle (hi : Inv s) (hl : s.life = .running) (ho : s.online = true) (hb : s.bus.split = [])
    (hfree : ∀ i, i < s.cfg.nTx → s.own .tx i = false) : HasRoom s.cfg.nTx s where
  inv := hi
  running := hl
  online := ho
  unsplit := hb
  room_le := Nat.le_refl _
  free_iff := fun i hlt =>
    ⟨fun _ => ahead_lt (hi.cursorsOk (.inl hl)).1 hlt, fun _ => hfree i hlt⟩

theorem HasRoom.own_claim (h : HasRoom m s) : s.own .tx s.txClaimCur = false ↔ 0 < m := by
  rw [h.free_iff _ h.claim_lt, ahead_self]

/-- Where there is room QUEUE_TX takes the frame, and there is room for one less. -/
theorem HasRoom.queueTx_next (h : HasRoom (m + 1) s) (hlen : len.toNat ≤ s.cfg.slotSize) :
    exec (.queueTx len) s = .next (sent (payloadIn s len.toNat) s) ∧ HasRoom m (sent (payloadIn s len.toNat) s) := by
  have hx : exec (.queueTx len) s = .next (sent (payloadIn s len.toNat) s) :=
    execQueueTx_sent h.inv.cfgOk h.running h.online hlen h.region (h.own_claim.2 (Nat.succ_pos m)) h.unsplit
  have hset := descSet_sent h.inv.cfgOk h.claim_lt (payload := payloadIn s len.toNat) (by rwa [payloadIn_length])
  have hm := h.room_le
  refine ⟨hx, exec_inv h.inv hx, ?_, ?_, ?_, ?_, fun i hi => ?_⟩
  · rw [sent_eq]; exact h.running
  · rw [sent_eq]; exact h.online
  · rw [sent_eq]; exact h.unsplit
  · rw [hset.1]; omega
  · have hclaim : (sent (payloadIn s len.toNat) s).txClaimCur = (s.txClaimCur + 1) % s.cfg.nTx := by rw [sent_eq]
    rw [hset.1] at hi
    rw [hclaim, hset.1]
    by_cases e : i = s.txClaimCur
    · rw [e, hset.own_same h.claim_lt, ownOf_txSubmit h.inv.cfgOk, ahead_advance_self h.claim_lt]
      simp only [Bool.true_eq_false, false_iff]
      omega
    · have hnext := ahead_advance_ne h.claim_lt hi e
      rw [hset.own_ne (d' := .tx) hi (by simpa using e), h.free_iff i hi]
      omega

/-- Frames that fit are queued one after another while there is room. -/
theorem HasRoom.queueAll_fills {lens : List Arg} (h : HasRoom lens.length s) (hfit : ∀ len ∈ lens, len.toNat ≤ s.cfg.slotSize) :
    ∃ t, queueAll lens s = .next t ∧ HasRoom 0 t ∧ t.cfg = s.cfg ∧
      t.out = s.out ++ (List.replicate lens.length [Event.txDoorbell, Event.result .ok .zero]).flatten := by
  induction lens generalizing s with
  | nil => exact ⟨s, rfl, h, rfl, by simp⟩
  | cons len rest ih =>
    obtain ⟨hx, hroom⟩ := h.queueTx_next (hfit len (by simp))
    have hcfg : (sent (payloadIn s len.toNat) s).cfg = s.cfg := exec_cfg hx
    have hout : (sent (payloadIn s len.toNat) s).out = s.out ++ [.txDoorbell, .result .ok .zero] := by
      rw [sent_eq]; simp [answered]
    obtain ⟨t, hq, h0, hc, ho⟩ := ih hroom fun l hl => by rw [hcfg]; exact hfit l (by simp [hl])
    refine ⟨t, (queueAll_cons hx).trans hq, h0, hc.trans hcfg, ?_⟩
    rw [ho, hout, List.append_assoc]
    rfl

/-- In a full ring the Device's cursor is at the claim cursor: the window of INV-TXWIN is the whole ring. -/
theorem HasRoom.devTxCur_eq (h : HasRoom 0 s) : s.devTxCur = s.txClaimCur := by
  have ha : Active s := .inl h.running
  have hk := h.claim_lt
  obtain ⟨k, hkin, hd, hwin⟩ := (txWindow_iff h.inv.cursorsOk ha).1 h.inv.txWindow
  obtain ⟨-, -, hin, -⟩ := h.inv.cursorsOk ha
  have hown : s.own .tx s.txClaimCur = true := by simpa using h.own_claim
  have hn := (hwin _ hk).1 hown
  rw [behind_self] at hn
  obtain rfl : k = s.cfg.nTx := by omega
  rw [hd, back_eq hk (Nat.le_refl _)]
  split <;> omega

/-- The Device completes a slot of a full ring, and that slot takes the next frame. -/
theorem HasRoom.complete_then_queue (h : HasRoom 0 s) (hlen : len.toNat ≤ s.cfg.slotSize) :
    ∃ u v, exec .devTxComplete s = .next u ∧ exec (.queueTx len) u = .next v ∧ v.result.code = .ok := by
  have hown : s.own .tx s.devTxCur = true := by rw [h.devTxCur_eq]; simpa using h.own_claim
  obtain ⟨-, -, -, hquiet⟩ := (lifeOk_running h.running).1 h.inv.lifeOk
  have hactive : deviceActive s = true := deviceActive_iff.2 ⟨.inl h.running, hquiet⟩
  have hx : exec .devTxComplete s = .next (txCompleted s.bus.devFlags s) :=
    finish_next.2 (devTxComplete_eq h.inv.cfgOk hactive hown _)
  have hdev : s.devTxCur < s.cfg.nTx := h.devTxCur_eq ▸ h.claim_lt
  have hfree : (txCompleted s.bus.devFlags s).own .tx s.txClaimCur = false := by
    rw [← h.devTxCur_eq, (descSet_txCompleted h.inv.cfgOk hdev _).own_same hdev]
    exact (txDone_getLsbD h.inv.cfgOk _).1
  refine ⟨_, _, hx, execQueueTx_sent (s := txCompleted s.bus.devFlags s) h.inv.cfgOk h.running h.online hlen h.region hfree
    h.unsplit, ?_⟩
  rw [sent_eq]
  rfl

end Room

/-! ## The reclamation registers (40_ring_primitives.md R159) -/

section Reclamation

variable {s t : State} {cur inflight count : Nat}

/-- `s` with the reclaim cursor, the in-flight count and the reclaimed counter given. -/
def withReclamation (cur inflight count : Nat) (s : State) : State :=
  { s with txReclaimCur := cur, txInflight := inflight, txReclaimedCount := count }

/-- `u` is `t` but for the three registers. -/
def SameButReclamation (t u : State) : Prop := u = withReclamation u.txReclaimCur u.txInflight u.txReclaimedCount t

/-- No Device move reads the three registers. -/
theorem runDevMove_withReclamation {m : DevMove} (hw : s.cfg.wf = true) (h : runDevMove m s = .ok t) :
    runDevMove m (withReclamation cur inflight count s) = .ok (withReclamation cur inflight count t) := by
  rcases runDevMove_ok h with
    ⟨flags, rfl, ha, ho, rfl⟩ | ⟨data, len, flags, rfl, ha, ho, hf, rfl⟩ | ⟨bits, rfl, rfl⟩ | ⟨raw, rfl, rfl⟩
  · exact devTxComplete_eq (s := withReclamation cur inflight count s) hw ha ho flags
  · exact devRxFill_eq (s := withReclamation cur inflight count s) hw ha ho hf flags
  · rfl
  · rfl

theorem runDevMoves_withReclamation {ms : List DevMove} (hw : s.cfg.wf = true) (h : runDevMoves ms s = .ok t) :
    runDevMoves ms (withReclamation cur inflight count s) = .ok (withReclamation cur inflight count t) := by
  induction ms generalizing s with
  | nil =>
    simp only [runDevMoves, run_pure, Except.ok.injEq] at h ⊢
    rw [h]
  | cons m rest ih =>
    simp only [runDevMoves, run_bind_ok] at h ⊢
    obtain ⟨u, hm, hrest⟩ := h
    exact ⟨_, runDevMove_withReclamation hw hm, ih (by rw [runDevMove_cfg hm]; exact hw) hrest⟩

/-- SUBMIT_TX claims and fills the same slot whatever the three registers hold (R156). -/
theorem queued_withReclamation (payload : List Byte) (cur inflight count : Nat) (s : State) :
    SameButReclamation (queued payload s) (queued payload (withReclamation cur inflight count s)) := by
  unfold SameButReclamation
  rw [queued_eq, queued_eq]
  rfl

theorem queueTx_withReclamation {len : Arg} (hw : s.cfg.wf = true) (h : execQueueTx len s = .next t) :
    ∃ u, execQueueTx len (withReclamation cur inflight count s) = .next u ∧ SameButReclamation t u := by
  rcases execQueueTx_ok h with ⟨hl, rfl⟩ | ⟨hl, ho, rfl⟩ | ⟨hl, ho, hs, rfl⟩ | ⟨hl, ho, hs, hr, hown, rfl⟩ |
    ⟨hl, ho, hs, hr, hown, v, hv, rfl⟩
  · exact ⟨_, execQueueTx_notRunning hl, rfl⟩
  · exact ⟨_, execQueueTx_offline hl ho, rfl⟩
  · exact ⟨_, execQueueTx_oversize hl ho hs, rfl⟩
  · exact ⟨_, execQueueTx_full (s := withReclamation cur inflight count s) hw hl ho hs hr hown, rfl⟩
  · have hwq : (queued (payloadIn s len.toNat) s).cfg.wf = true := by rw [queued_eq]; exact hw
    have hq := queued_withReclamation (payloadIn s len.toNat) cur inflight count s
    have hu := (congrArg (runDevMoves s.bus.split) hq).trans (runDevMoves_withReclamation hwq hv)
    exact ⟨_, execQueueTx_eq (s := withReclamation cur inflight count s) hw hl ho hs hr hown hu, rfl⟩

theorem init_withReclamation (hw : s.cfg.wf = true) (h : execInit s = .next t) :
    ∃ u, execInit (withReclamation cur inflight count s) = .next u ∧ SameButReclamation t u := by
  rcases execInit_ok h with ⟨hl, rfl⟩ | ⟨hl, ha, rfl⟩ | ⟨hl, ha, rfl⟩
  · exact ⟨_, execInit_again hl, rfl⟩
  · exact ⟨_, execInit_noMemory hl ha, rfl⟩
  · refine ⟨_, execInit_eq (s := withReclamation cur inflight count s) hw hl ha, ?_⟩
    unfold SameButReclamation
    rw [initialised_eq, initialised_eq]
    rfl

theorem start_withReclamation {id : Arg} (h : execStart id s = .next t) :
    ∃ u, execStart id (withReclamation cur inflight count s) = .next u ∧ SameButReclamation t u := by
  rcases execStart_ok h with ⟨hl, rfl⟩ | ⟨hl, hb, rfl⟩ | ⟨hl, hb, rfl⟩
  · exact ⟨_, execStart_notRunning hl, rfl⟩
  · exact ⟨_, execStart_alreadyBound hl hb, rfl⟩
  · exact ⟨_, execStart_binds hl hb, rfl⟩

theorem stop_withReclamation (h : execStop s = .next t) :
    ∃ u, execStop (withReclamation cur inflight count s) = .next u ∧ SameButReclamation t u := by
  rcases execStop_ok h with ⟨hl, rfl⟩ | ⟨hl, rfl⟩
  · exact ⟨_, execStop_notRunning hl, rfl⟩
  · exact ⟨_, execStop_begins hl, rfl⟩

end Reclamation

end Sys2Proof.Machine

namespace Sys2Proof

open Machine

/-- Settles O27: the frame's bytes are those of the payload input. -/
theorem queueTxHandsTheFrameToTheDevice : Obligations.QueueTxHandsTheFrameToTheDevice := by
  intro s len hw hl hon hr hlen hk hown hb slot
  have hx : exec (.queueTx len) s = _ := execQueueTx_sent hw hl hon hlen hr hown hb
  rw [sent_eq] at hx
  have hpl := payloadIn_length s len.toNat
  have heffect := submitMem_effect (t := sent (payloadIn s len.toNat) s) hw hk (payload := payloadIn s len.toNat)
    (by rwa [hpl]) (by rw [sent_eq]; rfl) (by rw [sent_eq])
  rw [hpl, sent_eq] at heffect
  exact ⟨_, hx, rfl, heffect⟩

/-- Settles O47: every clause is one test in front of the operation's body. -/
theorem disabledOperationsMakeNoMove : Obligations.DisabledOperationsMakeNoMove := by
  intro s
  refine ⟨execIrqWait_refused, fun h => whenInPhase_refused h _, fun h => whenInPhase_refused h _,
    fun h => whenInPhase_refused h _, fun h => whenInPhase_refused h _, fun h => whenInPhase_refused h _,
    fun h d => exec_refused_outside rfl h, fun h => ⟨exec_refused_outside rfl h, exec_refused_outside rfl h⟩,
    exec_refused_outside rfl, exec_refused_outside rfl, ?_, fun h => execSubmitTx_refused (submitAllowed_eq_false h), ?_,
    fun h => execDevTxComplete_refused (by simp [h]), fun h => execDevRxFill_refused (by simp [h])⟩
  · rintro (h | h)
    · exact exec_refused_outside rfl h
    · exact execLinkUpdate_refused h
  · intro h
    have hn := not_deviceActive h
    exact ⟨execDevTxComplete_refused fun hx => hn hx.1, execDevRxFill_refused fun hx => hn hx.1⟩

/-- Settles O48: between steps the sequencer stands inside no caller. -/
theorem onlyCommandsWorkerStepsAndDeviceMovesRun : Obligations.OnlyCommandsWorkerStepsAndDeviceMovesRun := by
  intro s i hi
  refine ⟨fun h => ?_, fun t => mover_of_exec hi.between⟩
  have refused {k : Caller} (hk : callerOf i = some k) : exec i s = .refused .notEnabled :=
    exec_refused_outside hk (Bool.eq_false_iff.2 (not_stands_of_between hi.between))
  rcases h with ⟨d, rfl⟩ | rfl | rfl | rfl | rfl | rfl <;> exact refused rfl

/-- Settles O30. -/
theorem ringInitWritesEveryDescriptor : Obligations.RingInitWritesEveryDescriptor := by
  intro s d hw hin
  refine ⟨_, execRingInit_eq hw hin d, ?_⟩
  cases d with
  | tx =>
    obtain ⟨hdesc, hkeep⟩ := initMem_effect (t := answerCaller .nothing (resetCursors .tx { s with mem := _ })) hw .tx rfl rfl
    exact ⟨fun _ => rfl, (nomatch ·), hdesc, hkeep⟩
  | rx =>
    obtain ⟨hdesc, hkeep⟩ := initMem_effect (t := answerCaller .nothing (resetCursors .rx { s with mem := _ })) hw .rx rfl rfl
    exact ⟨(nomatch ·), fun _ => rfl, hdesc, hkeep⟩

/-- Settles O31. -/
theorem tryClaimAnswersByTheOwnBit : Obligations.TryClaimAnswersByTheOwnBit := by
  intro s hw hin
  have hx : exec .tryClaimNextTx s = .next (answerCaller (.claim (claimAnswer s)) s) := execTryClaimNextTx_eq hw hin
  refine ⟨fun ho => ?_, fun ho => ?_⟩
  · rw [hx, claimAnswer, ho]; rfl
  · rw [hx, claimAnswer, ho]; rfl

/-- Settles O32. -/
theorem submitTxFillsAndHandsOverTheSlot : Obligations.SubmitTxFillsAndHandsOverTheSlot := by
  intro s hw hin hk hslot hown hlen hflags slot
  have hallowed : submitAllowed s = true :=
    submitAllowed_iff.2 ⟨hslot, by rw [hslot]; exact hown, hlen, decide_eq_true hflags⟩
  have hx := execSubmitTx_eq hw hin hallowed
  rw [hslot, submitBookkeeping_eq] at hx
  exact ⟨_, hx, rfl, submitMem_effect hw hk hlen rfl rfl⟩

/-- Settles O33: the scan's cursor after `n` slots is the cursor plus `n`, modulo the ring. -/
theorem reclaimPassesFinishedSlotsInOrder : Obligations.ReclaimPassesFinishedSlotsInOrder := by
  intro s hw hin hk
  obtain ⟨t, hx⟩ := execReclaimTxCompleted_total hw hin
  obtain ⟨-, n, hn, rfl, hpass, hstop⟩ := execReclaimTxCompleted_ok hx
  simp only [reclaimCursor_eq hk] at hpass hstop
  rw [reclaimed_eq hk] at hx
  exact ⟨n, hn, hx, hpass, hstop⟩

/-- Settles O34: the three answers of RX_TAKE, then RX_RETURN. -/
theorem reapRxTakesThenReturns : Obligations.ReapRxTakesThenReturns := by
  intro s hw hin len
  exact ⟨fun hh ho => execReapRx_take hw hin hh (takeAnswer_empty ho),
    fun hh ho hl => execReapRx_take hw hin hh (takeAnswer_oversize ho hl),
    fun hh ho hl => execReapRx_take hw hin hh (takeAnswer_frame ho hl),
    fun hh hk => ⟨_, execReapRx_return hw hin hh, rfl, returned_effect hw hk rfl rfl⟩⟩

/-- Settles O40: the answers of RX_TAKE at the delivery gate, then RX_RETURN with its re-arm. -/
theorem rxDrainDeliversOrDrops : Obligations.RxDrainDeliversOrDrops := by
  intro s hw hr hws hwp rx len
  have hp : s.wstate = .processing ∧ s.wphase = .rx := ⟨hws, hwp⟩
  have take (hh : s.rxHold = false) (hrx : rx = true) {a : RxTake} {t : State} (e : takeAnswer s = (t, a)) :
      exec .rxDrain s = .next (consume a t) := execRxDrain_take hw hr hp hh hrx e
  exact ⟨execRxDrain_noCause hp, fun hh hrx ho => take hh hrx (takeAnswer_empty ho),
    fun hh hrx ho hl => take hh hrx (takeAnswer_oversize ho hl),
    fun hh hrx ho hl hb hon => (take hh hrx (takeAnswer_frame ho hl)).trans
      (congrArg Host.Outcome.next (consume_delivers (s := { s with rxHold := true }) hb hon)),
    fun hh hrx ho hl hgate => (take hh hrx (takeAnswer_frame ho hl)).trans
      (congrArg Host.Outcome.next (consume_drops (s := { s with rxHold := true }) hgate)),
    fun hh hk => ⟨_, execRxDrain_return hw hr hp hh, rfl, returned_effect hw hk rfl rfl⟩⟩

/-- Settles O53. -/
theorem ringIsFullAfterExactlyNFrames : Obligations.RingIsFullAfterExactlyNFrames := by
  intro s lens hi hl hon hb hfree hfit hcount
  have hroom : HasRoom lens.length s := hcount ▸ hasRoom_of_idle hi hl hon hb hfree
  obtain ⟨t, hq, hfull, hcfg, hout⟩ := hroom.queueAll_fills hfit
  refine ⟨t, hq, by rw [← hcount]; exact hout, fun len hlen => ?_⟩
  rw [← hcfg] at hlen
  have hown : t.own .tx t.txClaimCur = true := by simpa using hfull.own_claim
  refine ⟨?_, hfull.complete_then_queue hlen⟩
  rw [← result_eq_answered]
  exact execQueueTx_full hfull.inv.cfgOk hfull.running hfull.online hlen hfull.region hown

/-- Settles O55, command by command. -/
theorem reclamationChangesNoResult : Obligations.ReclamationChangesNoResult := by
  intro s t i cur inflight count hw hext h
  cases i with
  | init => exact init_withReclamation hw h
  | start id => exact start_withReclamation h
  | stop => exact stop_withReclamation h
  | queueTx len => exact queueTx_withReclamation hw h
  | query =>
    obtain rfl : resultWith .ok (queryPayload s.cfg) s = t := by simpa [exec, execQuery] using h
    exact ⟨_, rfl, rfl⟩
  | _ => cases hext

end Sys2Proof

/-! Proofs of the statements of 41_interrupt_dispatcher.md. -/

namespace Sys2Proof.Machine

/-! ## Each Worker step where it is enabled (41_interrupt_dispatcher.md R182 to R194) -/

section WorkerSteps

variable {s t : State} {i : Instr} {p : WPhase}

theorem whenInPhase_eq (hp : s.wstate = .processing ∧ s.wphase = p) (r : Run State) : whenInPhase p s r = r :=
  if_pos (by simp [inPhase, hp])

theorem execIrqWait_terminates (hw : s.wstate = .waiting) (hv : s.irqValid = false) :
    execIrqWait s = .next { s with wstate := .terminated } := by
  rw [execIrqWait, if_pos hw, if_pos hv]
  rfl

theorem execIrqWait_enters (hw : s.wstate = .waiting) (hv : s.irqValid = true) (hp : s.irqPending = true) :
    execIrqWait s = .next (enterPass s) := by
  rw [execIrqWait, if_pos hw, if_neg (by simp [hv]), if_pos hp]
  rfl

theorem execIrqWait_blocks (hw : s.wstate = .waiting) (hv : s.irqValid = true) (hp : s.irqPending = false) :
    execIrqWait s = .next s := by
  rw [execIrqWait, if_pos hw, if_neg (by simp [hv]), if_neg (by simp [hp])]
  rfl

/-- The bits cleared are those read, so no bit of DMA_STATUS is left (R184). -/
theorem statusReadClear_eq (s : State) : statusReadClear s = { s with isrLatch := s.dmaStatus, dmaStatus := 0#32 } := by
  rw [statusReadClear, BitVec.and_not_self]
  rfl

theorem execStatusRdclr_eq (hp : s.wstate = .processing ∧ s.wphase = .rdclr) :
    execStatusRdclr s = .next { s with isrLatch := s.dmaStatus, dmaStatus := 0#32, wphase := .link } := by
  rw [execStatusRdclr, whenInPhase_eq hp, statusReadClear_eq]
  rfl

theorem execLinkPhase_cause (hp : s.wstate = .processing ∧ s.wphase = .link) (hc : linkChangeOf s.cfg s.isrLatch = true) :
    execLinkPhase s = .next (toPhase .rx (linkUpdate s.linkStatus s)) := by
  rw [execLinkPhase, whenInPhase_eq hp, if_pos hc]
  rfl

theorem execLinkPhase_noCause (hp : s.wstate = .processing ∧ s.wphase = .link)
    (hc : linkChangeOf s.cfg s.isrLatch = false) : execLinkPhase s = .next (toPhase .rx s) := by
  rw [execLinkPhase, whenInPhase_eq hp, if_neg (by simp [hc])]
  rfl

theorem execAbnormalCount_cause (hp : s.wstate = .processing ∧ s.wphase = .abn)
    (hc : abnormalOf s.cfg s.isrLatch = true) : execAbnormalCount s = .next (toPhase .txr (countErr s)) := by
  rw [execAbnormalCount, whenInPhase_eq hp, if_pos hc]
  rfl

theorem execAbnormalCount_noCause (hp : s.wstate = .processing ∧ s.wphase = .abn)
    (hc : abnormalOf s.cfg s.isrLatch = false) : execAbnormalCount s = .next (toPhase .txr s) := by
  rw [execAbnormalCount, whenInPhase_eq hp, if_neg (by simp [hc])]
  rfl

theorem execTxReclaimPass_noCause (hp : s.wstate = .processing ∧ s.wphase = .txr)
    (hc : txCompleteOf s.cfg s.isrLatch = false) : execTxReclaimPass s = .next (returnFromPass s) := by
  rw [execTxReclaimPass, whenInPhase_eq hp, if_neg (by simp [hc])]
  rfl

/-- On a mapped region TX_RECLAIM_PASS always ends the pass. -/
theorem execTxReclaimPass_total (hw : s.cfg.wf = true) (hr : s.regionValid = true)
    (hp : s.wstate = .processing ∧ s.wphase = .txr) (hc : txCompleteOf s.cfg s.isrLatch = true) :
    ∃ t, execTxReclaimPass s = .next t := by
  obtain ⟨r, hx⟩ := reclaimTxCompleted_total hw hr
  exact ⟨_, by rw [execTxReclaimPass, whenInPhase_eq hp, if_pos hc, hx]; rfl⟩

/-- The operations that move `wstate`: INIT when it succeeds, IRQ_WAIT and TX_RECLAIM_PASS (R181). -/
theorem exec_wstate (h : exec i s = .next t) :
    t.wstate = s.wstate ∨ (i = .init ∧ s.life = .uninit ∧ t = initialised s) ∨
    (i = .irqWait ∧ s.wstate = .waiting ∧ s.irqValid = false ∧ t = { s with wstate := .terminated }) ∨
    (i = .irqWait ∧ s.wstate = .waiting ∧ s.irqValid = true ∧ s.irqPending = true ∧ t = enterPass s) ∨
    (i = .txReclaimPass ∧ (s.wstate = .processing ∧ s.wphase = .txr) ∧ t.wstate = .waiting ∧ t.wphase = .rdclr) := by
  cases i with
  | init =>
    rcases init_answers_or_succeeds h with ⟨code, rfl⟩ | ⟨hl, ht⟩
    · exact .inl rfl
    · exact .inr (.inl ⟨rfl, hl, ht⟩)
  | irqWait =>
    obtain ⟨hw, ⟨hv, ht⟩ | ⟨hv, hp, ht⟩ | ⟨-, -, rfl⟩⟩ := execIrqWait_ok h
    · exact .inr (.inr (.inl ⟨rfl, hw, hv, ht⟩))
    · exact .inr (.inr (.inr (.inl ⟨rfl, hw, hv, hp, ht⟩)))
    · exact .inl rfl
  | txReclaimPass =>
    obtain ⟨hp, ⟨-, rfl⟩ | ⟨-, n, -, rfl, -⟩⟩ := execTxReclaimPass_ok h
    · exact .inr (.inr (.inr (.inr ⟨rfl, hp, rfl, rfl⟩)))
    · exact .inr (.inr (.inr (.inr ⟨rfl, hp, rfl, rfl⟩)))
  | _ => exact .inl (exec_view State.wstate h)

end WorkerSteps

/-! ## The Worker with nothing scheduled (41_interrupt_dispatcher.md R181, 70_reset_and_hazards.md R352; log 11) -/

section Unscheduled

variable {s t : State} {p : WPhase}

theorem workerOp_waiting (hw : s.wstate = .waiting) : workerOp s = if waitReturns s then some .irqWait else none := by
  rw [workerOp, hw]

theorem workerOp_idle (hw : s.wstate = .idle) : workerOp s = none := by rw [workerOp, hw]

theorem workerOp_terminated (hw : s.wstate = .terminated) : workerOp s = none := by rw [workerOp, hw]

theorem waitReturns_iff : waitReturns s = true ↔ s.irqValid = false ∨ s.irqPending = true := by simp [waitReturns]

theorem stopFinishEnabled_iff : stopFinishEnabled s = true ↔ s.life = .stopping ∧ s.wstate = .terminated := by
  simp [stopFinishEnabled]

theorem step_wait (hc : s.cfg.wf = true) (hs : s.sched = []) (hw : s.wstate = .waiting) (hr : waitReturns s = true) :
    step s = exec .irqWait s :=
  step_worker hc hs (by rw [workerOp_waiting hw, if_pos hr])

theorem step_phase (hc : s.cfg.wf = true) (hs : s.sched = []) (hp : s.wstate = .processing ∧ s.wphase = p) :
    step s = exec (phaseStep p) s :=
  step_worker hc hs (workerOp_of_phase hp)

/-- With no Worker step enabled the machine finishes STOP where it can and stays as it is elsewhere. -/
theorem step_noWorker (hc : s.cfg.wf = true) (hs : s.sched = []) (hn : workerOp s = none) :
    step s = if stopFinishEnabled s then stopFinish s else .next s := by
  have ha : afterFetch s = s := by rw [afterFetch, hs]
  have hm : nextMove s = if stopFinishEnabled s then .stopFinish else .idle := by rw [nextMove, hs, autonomousMove, hn]
  rw [step, if_pos hc, hm, ha]
  cases stopFinishEnabled s <;> rfl

theorem step_stays (hc : s.cfg.wf = true) (hs : s.sched = []) (hn : workerOp s = none)
    (hf : ¬(s.life = .stopping ∧ s.wstate = .terminated)) : step s = .next s := by
  rw [step_noWorker hc hs hn, if_neg (mt stopFinishEnabled_iff.1 hf)]

/-- One phase of a pass, taken by the machine itself. -/
theorem runSteps_phase (hc : s.cfg.wf = true) (hs : s.sched = []) (hp : s.wstate = .processing ∧ s.wphase = p)
    (hx : exec (phaseStep p) s = .next t) (n : Nat) : runSteps (n + 1) s = runSteps n t :=
  runSteps_succ n ((step_phase hc hs hp).trans hx)

/-- The entry to a pass: the wait returns and DMA_STATUS is latched (R182, R184). -/
theorem runSteps_enter (hc : s.cfg.wf = true) (hs : s.sched = []) (hw : s.wstate = .waiting) (hv : s.irqValid = true)
    (hp : s.irqPending = true) (n : Nat) : runSteps (n + 2) s = runSteps n { s with
      isrLatch := s.dmaStatus, dmaStatus := 0#32, irqPending := false, wstate := .processing, wphase := .link } := by
  have hwait : step s = .next (enterPass s) :=
    (step_wait hc hs hw (waitReturns_iff.2 (.inr hp))).trans (execIrqWait_enters hw hv hp)
  rw [runSteps_succ (n + 1) hwait]
  exact runSteps_phase (s := enterPass s) (p := .rdclr) hc hs ⟨rfl, rfl⟩ (execStatusRdclr_eq ⟨rfl, rfl⟩) n

/-- The four phases after the entry, with none of their causes latched: each goes on to the next one (R186, R188, R192, R194). -/
theorem runSteps_phases_noCause (hc : s.cfg.wf = true) (hs : s.sched = [])
    (hp : s.wstate = .processing ∧ s.wphase = .link) (hh : s.rxHold = false) (hlink : linkChangeOf s.cfg s.isrLatch = false)
    (hrx : rxCompleteOf s.cfg s.isrLatch = false) (habn : abnormalOf s.cfg s.isrLatch = false)
    (htx : txCompleteOf s.cfg s.isrLatch = false) : runSteps 4 s = .next (returnFromPass s) := by
  have at_phase (q : WPhase) : (toPhase q s).wstate = .processing ∧ (toPhase q s).wphase = q := ⟨hp.1, rfl⟩
  calc runSteps 4 s
    _ = runSteps 3 (toPhase .rx s) := runSteps_phase hc hs hp (execLinkPhase_noCause hp hlink) 3
    _ = runSteps 2 (toPhase .abn s) :=
      runSteps_phase (s := toPhase .rx s) hc hs (at_phase .rx) (execRxDrain_noCause (at_phase .rx) hh hrx) 2
    _ = runSteps 1 (toPhase .txr s) :=
      runSteps_phase (s := toPhase .abn s) hc hs (at_phase .abn) (execAbnormalCount_noCause (at_phase .abn) habn) 1
    _ = runSteps 0 (returnFromPass s) :=
      runSteps_phase (s := toPhase .txr s) hc hs (at_phase .txr) (execTxReclaimPass_noCause (at_phase .txr) htx) 0
    _ = .next (returnFromPass s) := rfl

/-- LINK_PHASE, then the take of a filled slot of good length by RX_DRAIN: the delivery gate stands after the link update
(60_exceptions.md R288). -/
theorem runSteps_link_then_take (hc : s.cfg.wf = true) (hr : s.regionValid = true) (hs : s.sched = [])
    (hp : s.wstate = .processing ∧ s.wphase = .link) (hlink : linkChangeOf s.cfg s.isrLatch = true)
    (hrx : rxCompleteOf s.cfg s.isrLatch = true) (hh : s.rxHold = false) (ho : s.own .rx s.rxCur = false)
    (hl : frameLen s.cfg (rxStatus s) ≤ s.cfg.slotSize) :
    runSteps 2 s = .next (consume (.frame (s.slotBytes .rx s.rxCur (frameLen s.cfg (rxStatus s))))
      { toPhase .rx (linkUpdate s.linkStatus s) with rxHold := true }) := by
  have hx : exec .linkPhase s = _ := execLinkPhase_cause hp hlink
  generalize hu : toPhase .rx (linkUpdate s.linkStatus s) = u at hx ⊢
  have hup : u.wphase = .rx := hu ▸ rfl
  have kept {α : Type} (f : State → α) (hf : f (framed .linkPhase s u) = f s) : f u = f s := (exec_view f hx).trans hf
  have hcfg : u.cfg = s.cfg := kept State.cfg rfl
  have hpu : u.wstate = .processing ∧ u.wphase = .rx := ⟨(kept State.wstate rfl).trans hp.1, hup⟩
  have hlen : frameLen u.cfg (rxStatus u) = frameLen s.cfg (rxStatus s) := kept (fun v => frameLen v.cfg (rxStatus v)) rfl
  have hbytes (n : Nat) : u.slotBytes .rx u.rxCur n = s.slotBytes .rx s.rxCur n :=
    kept (fun v => v.slotBytes .rx v.rxCur n) rfl
  have htake := takeAnswer_frame (s := u) ((kept (fun v => v.own .rx v.rxCur) rfl).trans ho) (by rwa [hlen, hcfg])
  rw [hlen, hbytes] at htake
  have hcu : u.cfg.wf = true := hcfg ▸ hc
  have hdrain := execRxDrain_take hcu ((kept State.regionValid rfl).trans hr) hpu ((kept State.rxHold rfl).trans hh)
    ((kept (fun v => rxCompleteOf v.cfg v.isrLatch) rfl).trans hrx) htake
  calc runSteps 2 s
    _ = runSteps 1 u := runSteps_phase hc hs hp hx 1
    _ = runSteps 0 _ := runSteps_phase hcu ((kept State.sched rfl).trans hs) hpu hdrain 0

end Unscheduled

end Sys2Proof.Machine

namespace Sys2Proof

open Machine

/-- Settles O16, along the five ways a step reaches a next state: before a successful INIT the Worker is IDLE by `LifeOk`. -/
theorem stepMovesTheWorkerAlongItsTable : Obligations.StepMovesTheWorkerAlongItsTable := by
  intro s t hlife h hne
  have before {α : Type} (f : State → α)
      (hf : f { s with sched := (afterFetch s).sched, bus := (afterFetch s).bus } = f s) : f (afterFetch s) = f s :=
    (congrArg f (afterFetch_eq s)).trans hf
  have hws : (afterFetch s).wstate = s.wstate := before State.wstate rfl
  obtain ⟨-, ⟨i, hm, hx⟩ | ⟨-, rfl⟩ | ⟨-, hx⟩ | ⟨hm, rfl⟩ | ⟨-, rfl⟩⟩ := step_ok h
  · rcases exec_wstate hx with hw | ⟨rfl, hl, rfl⟩ | ⟨rfl, hw, hv, rfl⟩ | ⟨rfl, hw, hv, hp, rfl⟩ |
      ⟨rfl, ⟨hw, hp⟩, hw', hp'⟩
    · exact absurd (hw.trans hws).symm hne
    · obtain ⟨-, -, hidle, -⟩ := (lifeOk_uninit ((before State.life rfl).symm.trans hl)).1 hlife
      exact .inl ⟨hidle, by rw [initialised_eq], hm⟩
    · exact .inr (.inl ⟨hws.symm.trans hw, rfl, hm, (before State.irqValid rfl).symm.trans hv⟩)
    · exact .inr (.inr (.inl ⟨hws.symm.trans hw, rfl, hm, (before State.irqValid rfl).symm.trans hv,
        (before State.irqPending rfl).symm.trans hp, rfl⟩))
    · exact .inr (.inr (.inr (.inl ⟨hws.symm.trans hw, (before State.wphase rfl).symm.trans hp, hw', hp', hm⟩)))
  · exact absurd hws.symm hne
  · obtain ⟨-, -, rfl⟩ := stopFinish_ok hx
    rw [stopped_eq] at hne
    exact absurd hws.symm hne
  · exact .inr (.inr (.inr (.inr ⟨rfl, hm⟩)))
  · exact absurd hws.symm hne

/-- Settles O42: the scan's cursor after `n` slots is the cursor plus `n`, modulo the ring. -/
theorem txReclaimPassEndsThePass : Obligations.TxReclaimPassEndsThePass := by
  intro s hw hws hwp
  have hp : s.wstate = .processing ∧ s.wphase = .txr := ⟨hws, hwp⟩
  refine ⟨execTxReclaimPass_noCause hp, fun hc hr hk => ?_⟩
  obtain ⟨t, hx⟩ := execTxReclaimPass_total hw hr hp hc
  obtain ⟨-, ⟨hc', -⟩ | ⟨-, n, hn, rfl, hpass, hstop⟩⟩ := execTxReclaimPass_ok hx
  · exact absurd (hc'.symm.trans hc) Bool.false_ne_true
  · simp only [reclaimCursor_eq hk] at hpass hstop
    rw [reclaimed_eq hk] at hx
    exact ⟨n, hn, hx, hpass, hstop⟩

/-- Settles O56: the two steps of the entry, then four phases without a cause. -/
theorem emptyPassChangesNothingElse : Obligations.EmptyPassChangesNothingElse := by
  intro s hc hs hw hv hp hh htx hrx habn hlink
  rw [runSteps_enter hc hs hw hv hp]
  exact runSteps_phases_noCause hc hs ⟨rfl, rfl⟩ hh hlink hrx habn htx

/-- Settles O57: the take finds `online` as the link update has left it. -/
theorem linkIsServedBeforeReception : Obligations.LinkIsServedBeforeReception := by
  intro s hc hr hs hws hwp hlink hrx hh hb ho len hlen
  have hrun := runSteps_link_then_take hc hr hs ⟨hws, hwp⟩ hlink hrx hh ho hlen
  refine ⟨fun hoff hup => ?_, fun hon hdown => ?_⟩
  · rw [linkUpdate_up hup hoff] at hrun
    exact ⟨_, hrun.trans (congrArg Host.Outcome.next (consume_delivers (by exact hb) (by rfl))), rfl, rfl,
      by simp [hb, len, rxStatus]⟩
  · rw [linkUpdate_down hdown hon] at hrun
    exact ⟨_, hrun.trans (congrArg Host.Outcome.next (consume_drops (.inr (by rfl)))), rfl, rfl, by simp [hb]⟩

/-- Settles O9: the enabled Worker step, else the second half of STOP, else nothing. -/
theorem workerTakesTheOneEnabledStep : Obligations.WorkerTakesTheOneEnabledStep := by
  intro s hc hs
  refine ⟨fun hw hr => step_wait hc hs hw (waitReturns_iff.2 hr), fun hw hv hp => ?_,
    fun hws hwp => step_phase hc hs ⟨hws, hwp⟩, fun hws hwp => step_phase hc hs ⟨hws, hwp⟩,
    fun hws hwp => step_phase hc hs ⟨hws, hwp⟩, fun hws hwp => step_phase hc hs ⟨hws, hwp⟩,
    fun hws hwp => step_phase hc hs ⟨hws, hwp⟩, fun hw => ?_, fun hw hl => ?_, fun hw hl => ?_⟩
  · have hblocked : ¬waitReturns s = true := by simp [waitReturns_iff, hv, hp]
    exact step_stays hc hs (by rw [workerOp_waiting hw, if_neg hblocked]) (by simp [hw])
  · exact step_stays hc hs (workerOp_idle hw) (by simp [hw])
  · exact step_stays hc hs (workerOp_terminated hw) fun hf => hl hf.1
  · rw [step_noWorker hc hs (workerOp_terminated hw), if_pos (stopFinishEnabled_iff.2 ⟨hl, hw⟩)]

/-- Settles O35. -/
theorem irqWaitReturnsOrTerminates : Obligations.IrqWaitReturnsOrTerminates := fun _ hw =>
  ⟨execIrqWait_terminates hw, execIrqWait_enters hw, execIrqWait_blocks hw⟩

/-- Settles O36. -/
theorem statusRdclrLatchesAndClears : Obligations.StatusRdclrLatchesAndClears := fun _ hws hwp =>
  execStatusRdclr_eq ⟨hws, hwp⟩

/-- Settles O37: LINK_UPDATE's three cases, inside the phase. -/
theorem linkPhaseReadsTheLinkWord : Obligations.LinkPhaseReadsTheLinkWord := by
  intro s hws hwp change up
  have cause (hc : change = true) : exec .linkPhase s = .next (toPhase .rx (linkUpdate s.linkStatus s)) :=
    execLinkPhase_cause ⟨hws, hwp⟩ hc
  refine ⟨execLinkPhase_noCause ⟨hws, hwp⟩, fun hc hsame => ?_, fun hc hup hoff => ?_, fun hc hdown hon => ?_⟩
  · rw [cause hc, linkUpdate_same hsame]; rfl
  · rw [cause hc, linkUpdate_up hup hoff]; rfl
  · rw [cause hc, linkUpdate_down hdown hon]; rfl

/-- Settles O41. -/
theorem abnormalIsCountedOncePerPass : Obligations.AbnormalIsCountedOncePerPass := fun _ hws hwp =>
  ⟨execAbnormalCount_cause ⟨hws, hwp⟩, execAbnormalCount_noCause ⟨hws, hwp⟩⟩

end Sys2Proof

/-! Proofs of the statements of 42_link_monitor.md. -/

namespace Sys2Proof.Machine

section LinkMonitor

variable {s : State} {raw : Word}

/-- The edge decision (42_link_monitor.md R211): no edge, the up edge, the down edge. -/
theorem linkBit_edges (s : State) (raw : Word) :
    raw.getLsbD s.cfg.linkUpBit = s.online ∨ (raw.getLsbD s.cfg.linkUpBit = true ∧ s.online = false) ∨
    (raw.getLsbD s.cfg.linkUpBit = false ∧ s.online = true) := by
  cases raw.getLsbD s.cfg.linkUpBit <;> cases s.online <;> decide

/-- LINK_UPDATE inside LINK_PHASE, with the word in LINK_STATUS on the bus (R210, R211). -/
theorem execLinkUpdate_eq (h : standsInside .linkPhase s = true) (hraw : s.bus.raw = s.linkStatus) :
    execLinkUpdate s = .next (answerCaller .nothing (linkUpdate s.bus.raw s)) := by
  rw [execLinkUpdate, whenInside_eq h, regRead_linkStatus, if_pos hraw]
  rfl

/-- The up edge turns both MAC enables on and leaves the other bits of their register (R213). -/
theorem linkUpdate_up_mac (hw : s.cfg.wf = true) (h : raw.getLsbD s.cfg.linkUpBit = true) (ho : s.online = false) :
    (linkUpdate raw s).macEn = (true, true) ∧
    ∀ k, k ≠ s.cfg.macTxBit → k ≠ s.cfg.macRxBit → (linkUpdate raw s).macConfig.getLsbD k = s.macConfig.getLsbD k := by
  obtain ⟨htx, hrx, hkeep⟩ := macSet_getLsbD hw s.macConfig
  rw [linkUpdate_up h ho]
  exact ⟨Prod.ext htx hrx, hkeep⟩

/-- After LINK_UPDATE `online` is the link bit of its word (R211). -/
theorem linkUpdate_online (raw : Word) (s : State) : (linkUpdate raw s).online = raw.getLsbD s.cfg.linkUpBit := by
  rcases linkBit_edges s raw with h | ⟨h, ho⟩ | ⟨h, ho⟩
  · rw [linkUpdate_same h, h]
  · rw [linkUpdate_up h ho, h]
  · rw [linkUpdate_down h ho, h]

/-- A second call with the same word finds no edge and the word already stored (R212). -/
theorem linkUpdate_idem (raw : Word) (s : State) : linkUpdate raw (linkUpdate raw s) = linkUpdate raw s := by
  have hsame : raw.getLsbD (linkUpdate raw s).cfg.linkUpBit = (linkUpdate raw s).online := by
    rw [linkUpdate_cfg, linkUpdate_online]
  calc linkUpdate raw (linkUpdate raw s)
    _ = { linkUpdate raw s with linkRawLast := raw } := linkUpdate_same hsame
    _ = { linkUpdate raw s with linkRawLast := (linkUpdate raw s).linkRawLast } := by rw [linkUpdate_linkRawLast]
    _ = linkUpdate raw s := rfl

theorem linkUpdate_iterate (raw : Word) (s : State) (n : Nat) : (linkUpdate raw)^[n + 1] s = linkUpdate raw s := by
  rw [Function.iterate_succ_apply]
  exact Function.iterate_fixed (linkUpdate_idem raw s) n

/-- Of the raw word only the link bit reaches anything but `linkRawLast` (R212). -/
theorem linkUpdate_of_same_bit {raw' : Word} (hbit : raw'.getLsbD s.cfg.linkUpBit = raw.getLsbD s.cfg.linkUpBit) :
    linkUpdate raw' s = { linkUpdate raw s with linkRawLast := raw' } := by
  rcases linkBit_edges s raw with h | ⟨h, ho⟩ | ⟨h, ho⟩
  · rw [linkUpdate_same h, linkUpdate_same (hbit.trans h)]
  · rw [linkUpdate_up h ho, linkUpdate_up (hbit.trans h) ho]
  · rw [linkUpdate_down h ho, linkUpdate_down (hbit.trans h) ho]

/-- The client-directed events (10_state.md R28) of a stretch of the output history. -/
def directed (events : List Event) : List Event := events.filter fun e => decide (e.handle ≠ none)

theorem directed_append (a b : List Event) : directed (a ++ b) = directed a ++ directed b := List.filter_append ..

/-- MAC_EN_SET goes to no client (10_state.md R28). -/
theorem directed_macEnSet (tx rx : Bool) (events : List Event) :
    directed (.macEnSet tx rx :: events) = directed events := rfl

/-- The notification of a client is one client-directed event where a client is bound, and nothing elsewhere (R215). -/
theorem directed_notification_length (bound up : Bool) (id : Arg) :
    (directed (if bound then [.linkNotify id up] else [])).length = if bound then 1 else 0 := by
  cases bound <;> rfl

/-- One notification where the link bit differs from `online` and a client is bound, none otherwise (R212). -/
theorem linkUpdate_directed_length (raw : Word) (s : State) :
    (directed (linkUpdate raw s).out).length =
      (directed s.out).length + if raw.getLsbD s.cfg.linkUpBit ≠ s.online ∧ s.bound = true then 1 else 0 := by
  rcases linkBit_edges s raw with h | ⟨h, ho⟩ | ⟨h, ho⟩
  · rw [linkUpdate_same h, if_neg fun hedge => hedge.1 h]
    rfl
  · rw [linkUpdate_up h ho]
    simp [directed_append, directed_macEnSet, directed_notification_length, h, ho]
  · rw [linkUpdate_down h ho]
    simp [directed_append, directed_notification_length, h, ho]

end LinkMonitor

end Sys2Proof.Machine

namespace Sys2Proof

open Machine

/-- Settles O38: LINK_UPDATE's three cases, then the return to its caller. -/
theorem linkUpdateActsOnEdgesOnly : Obligations.LinkUpdateActsOnEdgesOnly := by
  intro s hw hin hraw up
  have hx : exec .linkUpdate s = .next (answerCaller .nothing (linkUpdate s.bus.raw s)) := execLinkUpdate_eq hin hraw
  refine ⟨fun hsame => ?_, fun hup hoff => ?_, fun hdown hon => ?_⟩
  · rw [hx, linkUpdate_same hsame]; rfl
  · obtain ⟨hmac, hkeep⟩ := linkUpdate_up_mac hw hup hoff
    exact ⟨_, hx, by rw [linkUpdate_up hup hoff]; rfl, hmac, hkeep⟩
  · rw [hx, linkUpdate_down hdown hon]; rfl

/-- Settles O39. -/
theorem sameLinkWordNotifiesOnce : Obligations.SameLinkWordNotifiesOnce := fun s raw =>
  ⟨fun _ => linkUpdate_of_same_bit, linkUpdate_linkRawLast raw s, linkUpdate_iterate raw s, linkUpdate_directed_length raw s⟩

end Sys2Proof

/-! Proofs of the statements of 43_engine_facade.md. -/

namespace Sys2Proof.Machine

/-! ## INIT and the second half of STOP (43_engine_facade.md R221, R228) -/

section Lifecycle

variable {s : State}

/-- INIT writes no byte outside the descriptors of the two rings (R221). -/
theorem initialised_keepsOutside (hw : s.cfg.wf = true) :
    keepsOutside (fun x => ∃ d i, i < ringLen s.cfg d ∧ inDesc s.cfg d i x) s (initialised s) := by
  intro x hx
  have hin (d : Dir) : ∀ j ∈ List.range (ringLen s.cfg d), j < ringLen s.cfg d := fun j hj => List.mem_range.1 hj
  have hout (d : Dir) : ∀ j ∈ List.range (ringLen s.cfg d), ¬inDesc s.cfg d j x := fun j hj hj' => hx ⟨d, j, hin d j hj, hj'⟩
  rw [State.byteAt, initialised_eq]
  exact (byte_initMem hw _ (hin .rx) _ (hout .rx)).trans (byte_initMem hw _ (hin .tx) _ (hout .tx))

theorem initialised_eq_answered (s : State) : initialised s = { answered s [] .ok .zero with
    regionValid := true, txClaimCur := 0, txReclaimCur := 0, txInflight := 0, rxCur := 0, devTxCur := 0, devRxCur := 0,
    devQuiesced := false, irqValid := true, life := .running, wstate := .waiting, mem := (initialised s).mem } := by
  rw [← result_eq_answered, initialised_eq]
  rfl

theorem stopFinish_eq (hl : s.life = .stopping) (ht : s.wstate = .terminated) : stopFinish s = .next (stopped s) := by
  rw [stopFinish, if_pos (stopFinishEnabled_iff.2 ⟨hl, ht⟩)]
  rfl

theorem stopFinish_refused (h : s.life ≠ .stopping ∨ s.wstate ≠ .terminated) : stopFinish s = .refused .notEnabled := by
  rw [stopFinish, if_neg (mt stopFinishEnabled_iff.1 (not_and_or.2 h))]
  rfl

theorem stopped_eq_answered (s : State) : stopped s =
    { answered s [.macEnSet false false, .regionRelease] .ok .zero with
      macConfig := (stopped s).macConfig, devQuiesced := true, regionValid := false, life := .stopped } := by
  simp [stopped_eq, answered]

/-- The second half of STOP turns both MAC enables off and leaves the other bits of their register (R228). -/
theorem stopped_mac (hw : s.cfg.wf = true) :
    (stopped s).macEn = (false, false) ∧
    ∀ k, k ≠ s.cfg.macTxBit → k ≠ s.cfg.macRxBit → (stopped s).macConfig.getLsbD k = s.macConfig.getLsbD k := by
  obtain ⟨htx, hrx, hkeep⟩ := macClear_getLsbD hw s.macConfig
  rw [stopped_eq]
  exact ⟨Prod.ext htx hrx, hkeep⟩

end Lifecycle

/-! ## The split point of QUEUE_TX (43_engine_facade.md R231) -/

section SplitPoint

variable {s t : State} {b : Bus}

/-- `s` with the operands on the bus given. -/
def withBus (b : Bus) (s : State) : State := { s with bus := b }

/-- What is left of QUEUE_TX after its split point, the doorbell and the answer (R229), with the operands on the bus given. -/
def doorbellOnBus (b : Bus) (s : State) : State := result .ok (emit .txDoorbell (withBus b s))

/-- No Device move reads or writes the output history, RESULT or the bus. -/
theorem runDevMove_doorbellOnBus {m : DevMove} (hw : s.cfg.wf = true) (h : runDevMove m s = .ok t) :
    runDevMove m (doorbellOnBus b s) = .ok (doorbellOnBus b t) := by
  rcases runDevMove_ok h with
    ⟨flags, rfl, ha, ho, rfl⟩ | ⟨data, len, flags, rfl, ha, ho, hf, rfl⟩ | ⟨bits, rfl, rfl⟩ | ⟨raw, rfl, rfl⟩
  · exact devTxComplete_eq (s := doorbellOnBus b s) hw ha ho flags
  · exact devRxFill_eq (s := doorbellOnBus b s) hw ha ho hf flags
  · rfl
  · rfl

/-- What commutes with every Device move commutes with all of them. -/
theorem runDevMoves_commute {f : State → State}
    (hf : ∀ {m u v}, u.cfg.wf = true → runDevMove m u = .ok v → runDevMove m (f u) = .ok (f v)) {ms : List DevMove}
    (hw : s.cfg.wf = true) (h : runDevMoves ms s = .ok t) : runDevMoves ms (f s) = .ok (f t) := by
  induction ms generalizing s with
  | nil =>
    simp only [runDevMoves, run_pure, Except.ok.injEq] at h ⊢
    rw [h]
  | cons m rest ih =>
    obtain ⟨u, hm, hrest⟩ := run_bind_ok.1 h
    exact run_bind_ok.2 ⟨_, hf hw hm, ih (by rw [runDevMove_cfg hm]; exact hw) hrest⟩

/-- Inside QUEUE_TX the slot is filled from the payload given, whatever stands on the bus. -/
theorem queued_withBus (payload : List Byte) (b : Bus) (s : State) :
    queued payload (withBus b s) = withBus b (queued payload s) := by
  rw [queued_eq, queued_eq]
  rfl

theorem queued_cfg (payload : List Byte) (s : State) : (queued payload s).cfg = s.cfg := by rw [queued_eq]

/-- The operands of a command with no Device move at its split point. -/
def unsplit (b : Bus) : Bus := { b with split := [] }

theorem sent_unsplit (payload : List Byte) (s : State) :
    sent payload (withBus (unsplit s.bus) s) = doorbellOnBus (unsplit s.bus) (queued payload s) := by
  rw [sent, queued_withBus]
  rfl

end SplitPoint

end Sys2Proof.Machine

namespace Sys2Proof

open Machine

/-- Settles O22: of the three answers of INIT the last leaves every descriptor as RING_INIT writes it. -/
theorem initBringsUpTheEngineOrNothing : Obligations.InitBringsUpTheEngineOrNothing := by
  intro s hw
  refine ⟨fun hl => ?_, fun hl ha => ?_, fun hl ha => ?_⟩
  · exact result_eq_answered .badState s ▸ execInit_again hl
  · exact result_eq_answered .noMemory s ▸ execInit_noMemory hl ha
  · exact ⟨_, execInit_eq hw hl ha, initialised_eq_answered s, fun _ => desc_initialised (d := .tx) hw,
      fun _ => desc_initialised (d := .rx) hw, initialised_keepsOutside hw⟩

/-- Settles O25: clearing the mask of the two enables is what the register sees. -/
theorem stopFinishQuiescesThenReleases : Obligations.StopFinishQuiescesThenReleases := fun s hw =>
  ⟨fun hl ht => ⟨_, stopFinish_eq hl ht, stopped_eq_answered s, stopped_mac hw⟩, stopFinish_refused⟩

/-- Settles O28: a command that fails reaches no split point; after it, the Device moves commute with the doorbell and the
answer. -/
theorem queueTxSplitPointCommutes : Obligations.QueueTxSplitPointCommutes := by
  intro s len t hw hx
  have failed {code : ResultCode} (hc : code ≠ .ok)
      (he : execQueueTx len (withBus (unsplit s.bus) s) = .next (result code (withBus (unsplit s.bus) s))) :
      ∃ u, execQueueTx len (withBus (unsplit s.bus) s) = .next u ∧
        (u.result.code = .ok → ∃ v, runDevMoves s.bus.split u = .ok v ∧ result code s = withBus s.bus v) ∧
        (u.result.code ≠ .ok → result code s = withBus s.bus u) :=
    ⟨_, he, fun hok => absurd hok hc, fun _ => rfl⟩
  rcases execQueueTx_ok hx with ⟨hl, rfl⟩ | ⟨hl, ho, rfl⟩ | ⟨hl, ho, hs, rfl⟩ | ⟨hl, ho, hs, hr, hown, rfl⟩ |
    ⟨hl, ho, hs, hr, hown, v, hv, rfl⟩
  · exact failed (by decide) (execQueueTx_notRunning hl)
  · exact failed (by decide) (execQueueTx_offline hl ho)
  · exact failed (by decide) (execQueueTx_oversize hl ho hs)
  · exact failed (by decide) (execQueueTx_full (s := withBus (unsplit s.bus) s) hw hl ho hs hr hown)
  · have hsent := execQueueTx_sent (s := withBus (unsplit s.bus) s) hw hl ho hs hr hown rfl
    have hmoves := runDevMoves_commute (runDevMove_doorbellOnBus (b := unsplit s.bus)) (by rw [queued_cfg]; exact hw) hv
    have hbus : v.bus = s.bus := by rw [runDevMoves_frame hv, queued_eq]
    refine ⟨_, hsent, fun _ => ⟨_, (congrArg _ (sent_unsplit _ s)).trans hmoves, ?_⟩, fun hne => absurd rfl hne⟩
    rw [← hbus]
    rfl

/-- Settles O23. -/
theorem startBindsOneClientAndPublishes : Obligations.StartBindsOneClientAndPublishes := fun s _ =>
  ⟨fun hl => result_eq_answered .badState s ▸ execStart_notRunning hl,
    fun hl hb => result_eq_answered .alreadyBound s ▸ execStart_alreadyBound hl hb, execStart_binds⟩

/-- Settles O24. -/
theorem stopBeginsTeardownOrAnswersOk : Obligations.StopBeginsTeardownOrAnswersOk := fun s =>
  ⟨fun hl => result_eq_answered .ok s ▸ execStop_notRunning hl, execStop_begins⟩

/-- Settles O26: the checks one after another, each past those before it. -/
theorem queueTxReportsTheFirstFailingCheck : Obligations.QueueTxReportsTheFirstFailingCheck := by
  intro s len hw
  rw [← result_eq_answered, ← result_eq_answered]
  exact ⟨execQueueTx_notRunning, execQueueTx_offline, execQueueTx_oversize, execQueueTx_full hw⟩

/-- Settles O29. -/
theorem queryAnswersTheConfiguredValues : Obligations.QueryAnswersTheConfiguredValues := by
  intro s
  have hx : exec .query s = .next (resultWith .ok (queryPayload s.cfg) s) := rfl
  rw [hx]
  simp [resultWith, queryPayload, emit, answered]

end Sys2Proof

/-! Proofs of the statements of 44_device_agent.md. -/

namespace Sys2Proof.Machine

/-! ## The Device moves where they are enabled (44_device_agent.md R253, R255) -/

section DeviceMoves

variable {s : State}

theorem bytesAt_eq (s : State) (a : Addr) (n : Nat) : s.bytesAt a n = bytesFrom s.mem a n := (bytesFrom_eq ..).symm

theorem DescSet.desc_same {t : State} {d : Dir} {k : Nat} {v : Desc} (h : DescSet d k v s t) (hk : k < ringLen s.cfg d) :
    t.desc d k = v :=
  (h.2 d k hk).trans (if_pos rfl)

theorem execDevTxComplete_eq (hw : s.cfg.wf = true) (ha : deviceActive s = true) (ho : s.own .tx s.devTxCur = true) :
    execDevTxComplete s = .next (txCompleted s.bus.devFlags s) :=
  finish_next.2 (devTxComplete_eq hw ha ho _)

theorem execDevRxFill_eq (hw : s.cfg.wf = true) (ha : deviceActive s = true) (ho : s.own .rx s.devRxCur = true)
    (hf : fillAllowed s.cfg s.bus.data s.bus.len = true) :
    execDevRxFill s = .next (rxFilled s.bus.data s.bus.len s.bus.devFlags s) :=
  finish_next.2 (devRxFill_eq hw ha ho hf _)

/-- Where the move is enabled, a draw outside the contract is what refuses it (R251 (b); log 10). -/
theorem execDevRxFill_outside (ha : deviceActive s = true) (ho : s.own .rx s.devRxCur = true)
    (hf : ¬fillAllowed s.cfg s.bus.data s.bus.len = true) : execDevRxFill s = .refused .outsideContract := by
  rw [execDevRxFill, devRxFill, if_pos (by simp [ha, ho]), if_neg hf]
  rfl

/-- DEV_TX_COMPLETE writes no byte outside the status word (R253). -/
theorem txCompleted_keepsOutside (hw : s.cfg.wf = true) (flags : Word) :
    keepsOutside (inWord (statusAddr s.cfg .tx s.devTxCur)) s (txCompleted flags s) :=
  fun _ hx => not_not.1 (mt (byte_of_txCompleted_ne hw) hx)

section Fill

variable {data : List Byte} {len : Nat} {flags : Word}

/-- Memory after DEV_RX_FILL, where the descriptor names its own slot (R255, 10_state.md R63). -/
theorem rxFilled_mem (hb : (s.desc .rx s.devRxCur).bufferAddress = baddr s.cfg .rx s.devRxCur) :
    (rxFilled data len flags s).mem = (s.mem.setBytes (baddr s.cfg .rx s.devRxCur) data).setWord
      (statusAddr s.cfg .rx s.devRxCur) (rxFillStatus s.cfg flags len) := by
  rw [← hb]
  rfl

/-- DEV_RX_FILL changes the status word of its descriptor alone (R255). -/
theorem desc_rxFilled (hw : s.cfg.wf = true) (hk : s.devRxCur < s.cfg.nRx)
    (hb : (s.desc .rx s.devRxCur).bufferAddress = baddr s.cfg .rx s.devRxCur) (hlen : data.length ≤ s.cfg.slotSize) :
    (rxFilled data len flags s).desc .rx s.devRxCur =
      { s.desc .rx s.devRxCur with status := rxFillStatus s.cfg flags len } :=
  (descSet_rxFilled hw hk hb hlen len flags).desc_same hk

/-- A filled slot is software-owned (R255). -/
theorem own_rxFilled (hw : s.cfg.wf = true) (hk : s.devRxCur < s.cfg.nRx)
    (hb : (s.desc .rx s.devRxCur).bufferAddress = baddr s.cfg .rx s.devRxCur) (hlen : data.length ≤ s.cfg.slotSize)
    (hfield : len < 2 ^ s.cfg.rxLenW) : (rxFilled data len flags s).own .rx s.devRxCur = false :=
  ((descSet_rxFilled hw hk hb hlen len flags).own_same hk).trans (rxFill_fields hw flags hfield).1

/-- The status word, written last, leaves the bytes of the slot as they were written (R255). -/
theorem slotBytes_rxFilled (hw : s.cfg.wf = true) (hk : s.devRxCur < s.cfg.nRx)
    (hb : (s.desc .rx s.devRxCur).bufferAddress = baddr s.cfg .rx s.devRxCur) (hlen : data.length ≤ s.cfg.slotSize) :
    (rxFilled data len flags s).slotBytes .rx s.devRxCur data.length = data := by
  have hk' : s.devRxCur < ringLen s.cfg .rx := hk
  rw [slotBytes_eq, rxFilled_mem hb, statusAddr_eq]
  exact (bytesFrom_setDescWord hw _ _ hk' hk' (by simp [wordOffset]) hlen).trans (bytesFrom_setSlot hw _ hk' hlen)

/-- DEV_RX_FILL writes no byte outside the status word and the bytes drawn (R255). -/
theorem rxFilled_keepsOutside (hw : s.cfg.wf = true) (hk : s.devRxCur < s.cfg.nRx)
    (hb : (s.desc .rx s.devRxCur).bufferAddress = baddr s.cfg .rx s.devRxCur) (hlen : data.length ≤ s.cfg.slotSize) :
    keepsOutside (fun x => inWord (statusAddr s.cfg .rx s.devRxCur) x ∨ inSlot s.cfg .rx s.devRxCur data.length x) s
      (rxFilled data len flags s) := by
  intro x hx
  obtain ⟨hst, hsl⟩ := not_or.1 hx
  rw [State.byteAt, rxFilled_mem hb, Memory.byte_setWord_notIn _ _ (statusAddr_aligned hw _ _) hst]
  exact Memory.byte_setSlot_notIn (d := .rx) hw _ hk hlen hsl

end Fill

end DeviceMoves

/-! ## A frame from the Client to the wire (43_engine_facade.md R229, 44_device_agent.md R253) -/

section Transmit

variable {s : State} {payload : List Byte}

/-- Where no TX slot is device-owned, the Device's cursor is at the claim cursor (10_state.md R61). -/
theorem devTxCur_of_idle (h : RingsOk s) (ha : Active s) (hfree : ∀ i, i < s.cfg.nTx → s.own .tx i = false) :
    s.devTxCur = s.txClaimCur := by
  obtain ⟨k, -, hd, hwin⟩ := h.txWindow ha
  obtain ⟨hc, -⟩ := h.cursorsOk ha
  obtain rfl : k = 0 := by
    by_contra hk
    have hown := (hwin _ (back_lt hc)).2 ⟨1, Nat.le_refl 1, Nat.one_le_iff_ne_zero.2 hk, rfl⟩
    exact absurd (hown.symm.trans (hfree _ (back_lt hc))) (by decide)
  rw [hd, back_eq hc (Nat.zero_le _), if_pos (Nat.zero_le _), Nat.sub_zero]

/-- The bytes a Client presents for the length of its word are the payload (10_state.md R50). -/
theorem payloadIn_presented (s : State) : payloadIn s s.bus.payload.length = s.bus.payload := by
  refine List.ext_getElem (payloadIn_length s _) fun j _ hj => ?_
  simp [payloadIn, payloadByte, List.getElem?_eq_getElem hj]

/-! What QUEUE_TX leaves alone and emits (43_engine_facade.md R229). -/

@[simp] theorem sent_cfg (payload : List Byte) (s : State) : (sent payload s).cfg = s.cfg := by rw [sent_eq]; rfl
@[simp] theorem sent_clientId (payload : List Byte) (s : State) : (sent payload s).clientId = s.clientId := by rw [sent_eq]; rfl
@[simp] theorem sent_sched (payload : List Byte) (s : State) : (sent payload s).sched = s.sched := by rw [sent_eq]; rfl
@[simp] theorem sent_wire (payload : List Byte) (s : State) : (sent payload s).wire = s.wire := by rw [sent_eq]; rfl
@[simp] theorem sent_devTxCur (payload : List Byte) (s : State) : (sent payload s).devTxCur = s.devTxCur := by rw [sent_eq]; rfl
@[simp] theorem sent_mem (payload : List Byte) (s : State) :
    (sent payload s).mem = submitMem s.cfg s.txClaimCur payload (txf s.cfg) s.mem := by rw [sent_eq]
@[simp] theorem sent_out (payload : List Byte) (s : State) :
    (sent payload s).out = s.out ++ [.txDoorbell, .result .ok .zero] := by
  rw [sent_eq]
  simp [answered]

/-- The frame DEV_TX_COMPLETE would send is `frame`: the Device's cursor is at a device-owned slot that holds it. -/
structure FrameAtDevice (frame : List Byte) (s : State) : Prop where
  owned : s.own .tx s.devTxCur = true
  frame_eq : s.bytesAt (s.desc .tx s.devTxCur).bufferAddress (sizeOf s.cfg (s.desc .tx s.devTxCur).control) = frame

theorem FrameAtDevice.wire_txCompleted {frame : List Byte} (h : FrameAtDevice frame s) (flags : Word) :
    (txCompleted flags s).wire = s.wire ++ [frame] := by
  rw [← h.frame_eq, bytesAt_eq]
  rfl

/-- A frame queued at the Device's cursor is the one it sends: SIZE is its length, and the bytes are those of the slot. -/
theorem frameAtDevice_sent (h : RingsOk s) (ha : Active s) (hd : s.devTxCur = s.txClaimCur)
    (hlen : payload.length ≤ s.cfg.slotSize) : FrameAtDevice payload (sent payload s) := by
  have hk := (h.cursorsOk ha).1
  have hset := descSet_sent h.cfgOk hk hlen
  have hbuf : (s.desc .tx s.txClaimCur).bufferAddress = baddr s.cfg .tx s.txClaimCur :=
    bufferAddress_of_active h ha (d := .tx) hk
  have hsize : sizeOf s.cfg (submitControl s.cfg (txf s.cfg) payload.length) = payload.length :=
    sizeOf_submitControl h.cfgOk hlen
  refine ⟨?_, ?_⟩
  · rw [sent_devTxCur, hd, hset.own_same hk]
    exact ownOf_txSubmit h.cfgOk
  · rw [sent_devTxCur, hd, hset.desc_same hk, sent_cfg]
    dsimp only
    rw [hbuf, hsize, bytesAt_eq, sent_mem, slot_submitMem h.cfgOk hk hlen]

end Transmit

/-! ## A frame from the Device to the client (44_device_agent.md R255, 41_interrupt_dispatcher.md R188, R189) -/

section Receive

variable {s t : State} {data : List Byte} {flags : Word}

/-- Where every RX slot is device-owned, the Device's cursor is at the RX cursor (10_state.md R62). -/
theorem devRxCur_of_idle (h : RingsOk s) (ha : Active s) (harmed : ∀ i, i < s.cfg.nRx → s.own .rx i = true) :
    s.devRxCur = s.rxCur := by
  obtain ⟨k, -, hd, hwin, -⟩ := h.rxWindow ha
  obtain ⟨-, -, -, hc, -⟩ := h.cursorsOk ha
  obtain rfl : k = 0 := by
    by_contra hk
    have hown := (hwin _ hc).2 ⟨0, Nat.pos_of_ne_zero hk, (Nat.mod_eq_of_lt hc).symm⟩
    exact absurd (hown.symm.trans (harmed _ hc)) (by decide)
  rw [hd, Nat.add_zero, Nat.mod_eq_of_lt hc]

/-- The next frame the Device fills in is the one the Worker takes next, and it goes to the bound client: the Worker is at a take
with RX_COMPLETE latched, and both cursors stand at a device-owned slot. -/
structure ReadyToDeliver (s : State) : Prop where
  inv : Inv s
  running : s.life = .running
  online : s.online = true
  bound : s.bound = true
  taking : s.wstate = .processing ∧ s.wphase = .rx
  noHold : s.rxHold = false
  latched : rxCompleteOf s.cfg s.isrLatch = true
  devAtCursor : s.devRxCur = s.rxCur
  armed : s.own .rx s.rxCur = true

/-- What `ReadyToDeliver` speaks of, but for the invariant and the OWN bit. -/
def deliverView (s : State) : (Config × Life × Bool × Bool) × (WState × WPhase × Bool) × (Word × Nat × Nat) :=
  ((s.cfg, s.life, s.online, s.bound), (s.wstate, s.wphase, s.rxHold), (s.isrLatch, s.devRxCur, s.rxCur))

theorem ReadyToDeliver.congr (h : ReadyToDeliver s) (hi : Inv t) (hv : deliverView t = deliverView s)
    (ho : t.own .rx s.rxCur = s.own .rx s.rxCur) : ReadyToDeliver t := by
  simp only [deliverView, Prod.mk.injEq] at hv
  obtain ⟨⟨hc, hl, hon, hb⟩, ⟨hws, hwp, hh⟩, hlatch, hdev, hcur⟩ := hv
  exact {
    inv := hi
    running := hl.trans h.running
    online := hon.trans h.online
    bound := hb.trans h.bound
    taking := ⟨hws.trans h.taking.1, hwp.trans h.taking.2⟩
    noHold := hh.trans h.noHold
    latched := by rw [hc, hlatch]; exact h.latched
    devAtCursor := by rw [hdev, hcur]; exact h.devAtCursor
    armed := by rw [hcur, ho]; exact h.armed }

theorem ReadyToDeliver.active (h : ReadyToDeliver s) : Active s := .inl h.running

theorem ReadyToDeliver.region (h : ReadyToDeliver s) : s.regionValid = true := region_of_active h.inv.lifeOk h.active

theorem ReadyToDeliver.rxCur_lt (h : ReadyToDeliver s) : s.rxCur < s.cfg.nRx := by
  obtain ⟨-, -, -, hc, -⟩ := h.inv.cursorsOk h.active
  exact hc

theorem ReadyToDeliver.deviceActive (h : ReadyToDeliver s) : deviceActive s = true := by
  obtain ⟨-, -, -, hquiet⟩ := (lifeOk_running h.running).1 h.inv.lifeOk
  exact deviceActive_iff.2 ⟨.inl h.running, hquiet⟩

theorem ReadyToDeliver.with_input (h : ReadyToDeliver s) (sched : List Entry) (bus : Bus) :
    ReadyToDeliver { s with sched := sched, bus := bus } :=
  h.congr (inv_input h.inv sched bus) rfl rfl

/-- A frame queued for transmission leaves the receiving side alone. -/
theorem ReadyToDeliver.after_sent (h : ReadyToDeliver s) {payload : List Byte} (hi : Inv (sent payload s))
    (hlen : payload.length ≤ s.cfg.slotSize) : ReadyToDeliver (sent payload s) :=
  h.congr hi (by rw [sent_eq]; rfl)
    ((descSet_sent h.inv.cfgOk (h.inv.cursorsOk h.active).1 hlen).own_ne (d' := .rx) h.rxCur_lt (by simp))

/-- A frame sent by the Device leaves the receiving side alone. -/
theorem ReadyToDeliver.after_txCompleted (h : ReadyToDeliver s) (hi : Inv (txCompleted flags s)) :
    ReadyToDeliver (txCompleted flags s) :=
  h.congr hi rfl
    ((descSet_txCompleted h.inv.cfgOk (devTxCur_lt h.inv.ringsOk h.active) flags).own_ne (d' := .rx) h.rxCur_lt (by simp))

/-- The Device fills the slot at the RX cursor. -/
theorem ReadyToDeliver.fills (h : ReadyToDeliver s) (hf : fillAllowed s.cfg s.bus.data s.bus.len = true) :
    exec .devRxFill s = .next (rxFilled s.bus.data s.bus.len s.bus.devFlags s) :=
  execDevRxFill_eq h.inv.cfgOk h.deviceActive (h.devAtCursor ▸ h.armed) hf

/-- RX_TAKE finds a frame filled in with its own length, whole (40_ring_primitives.md R161). -/
theorem ReadyToDeliver.take_filled (h : ReadyToDeliver s) (hf : fillAllowed s.cfg data data.length = true) :
    takeAnswer (rxFilled data data.length flags s) =
      ({ rxFilled data data.length flags s with rxHold := true }, .frame data) := by
  have hw := h.inv.cfgOk
  obtain ⟨hlen, hfield⟩ := fillAllowed_iff.1 hf
  have hk : s.devRxCur < s.cfg.nRx := h.devAtCursor ▸ h.rxCur_lt
  have hb := bufferAddress_of_active h.inv.ringsOk h.active (d := .rx) hk
  have hcur : (rxFilled data data.length flags s).rxCur = s.devRxCur := h.devAtCursor.symm
  have hstatus : rxStatus (rxFilled data data.length flags s) = rxFillStatus s.cfg flags data.length := by
    change ((rxFilled data data.length flags s).desc .rx (rxFilled data data.length flags s).rxCur).status = _
    rw [hcur, desc_rxFilled hw hk hb hlen]
  have hframe : frameLen (rxFilled data data.length flags s).cfg (rxStatus (rxFilled data data.length flags s)) =
      data.length := by
    rw [hstatus]
    exact (rxFill_fields hw flags hfield).2.1
  have hbytes : (rxFilled data data.length flags s).slotBytes .rx (rxFilled data data.length flags s).rxCur
      data.length = data := by
    rw [hcur, slotBytes_rxFilled hw hk hb hlen]
  rw [takeAnswer_frame (hcur ▸ own_rxFilled hw hk hb hlen hfield) (hframe.trans_le hlen), hframe, hbytes]

/-- RX_DRAIN hands a frame filled in with its own length to the bound client, byte for byte (R189). -/
theorem ReadyToDeliver.delivers (h : ReadyToDeliver s) (hf : fillAllowed s.cfg data data.length = true) :
    exec .rxDrain (rxFilled data data.length flags s) =
      .next (emit (.rxDeliver s.clientId data) { rxFilled data data.length flags s with rxHold := true }) :=
  (execRxDrain_take (s := rxFilled data data.length flags s) h.inv.cfgOk h.region h.taking h.noHold h.latched
    (h.take_filled hf)).trans (congrArg Host.Outcome.next (consume_delivers h.bound h.online))

end Receive

/-! ## The echo (44_device_agent.md R267) -/

section Echo

variable {s : State} {rest : List Entry}

theorem step_echoFill (hw : s.cfg.wf = true) (hs : s.sched = .echoFill :: rest) :
    step s = exec .devRxFill { s with sched := rest, bus := echoBus s } := by
  have hm : nextMove s = .run .devRxFill := by rw [nextMove, hs]
  have ha : afterFetch s = { s with sched := rest, bus := echoBus s } := by rw [afterFetch, hs]
  rw [step, if_pos hw, hm, ha]

theorem step_scheduledWorker {i : Instr} (hw : s.cfg.wf = true) (hs : s.sched = .worker :: rest)
    (hi : workerOp s = some i) : step s = exec i { s with sched := rest } := by
  have hm : nextMove s = .run i := by simp only [nextMove, hs, hi]
  have ha : afterFetch s = { s with sched := rest } := by rw [afterFetch, hs]
  rw [step, if_pos hw, hm, ha]

/-- The Worker step after a fill delivers its frame. -/
theorem step_take_filled {data : List Byte} {flags : Word} (h : ReadyToDeliver s) (hs : s.sched = .worker :: rest)
    (hf : fillAllowed s.cfg data data.length = true) :
    step (rxFilled data data.length flags s) = .next (emit (.rxDeliver s.clientId data)
      { rxFilled data data.length flags { s with sched := rest } with rxHold := true }) :=
  (step_scheduledWorker (s := rxFilled data data.length flags s) h.inv.cfgOk hs (workerOp_of_phase h.taking)).trans
    ((h.with_input rest s.bus).delivers hf)

/-- The frame last sent, filled in by the echo, is delivered by the Worker step after it. -/
theorem runSteps_echo_then_take {frame : List Byte} (h : ReadyToDeliver s) (hs : s.sched = .echoFill :: .worker :: rest)
    (hlast : s.wire.getLastD [] = frame) (hf : fillAllowed s.cfg frame frame.length = true) :
    ∃ t, runSteps 2 s = .next t ∧ t.sched = rest ∧ t.wire = s.wire ∧ t.out = s.out ++ [.rxDeliver s.clientId frame] := by
  subst hlast
  have hready := h.with_input (.worker :: rest) (echoBus s)
  have hfill := (step_echoFill h.inv.cfgOk hs).trans (hready.fills hf)
  have htake := step_take_filled (flags := 0#32) hready rfl hf
  exact ⟨_, (runSteps_succ 1 hfill).trans (runSteps_succ 0 htake), rfl, rfl, rfl⟩

/-- QUEUE_TX with the length of the bytes presented queues exactly them (10_state.md R50). -/
theorem step_queueTx_presented {b : Bus} (h : ReadyToDeliver s) (hown : s.own .tx s.txClaimCur = false)
    (hlen : b.payload.length ≤ s.cfg.slotSize) (harg : b.payload.length < 2 ^ 24) (hsplit : b.split = [])
    (hs : s.sched = .op ⟨.client, BitVec.ofNat 24 b.payload.length ++ 0x04#8, b⟩ :: rest) :
    step s = .next (sent b.payload { s with sched := rest, bus := b }) := by
  have hn : (BitVec.ofNat 24 b.payload.length).toNat = b.payload.length := by
    rw [BitVec.toNat_ofNat, Nat.mod_eq_of_lt harg]
  have hpayload : payloadIn { s with sched := rest, bus := b } b.payload.length = b.payload := payloadIn_presented _
  have hx := execQueueTx_sent (s := { s with sched := rest, bus := b }) (len := BitVec.ofNat 24 b.payload.length)
    h.inv.cfgOk h.running h.online (hn.trans_le hlen) h.region hown hsplit
  rw [hn, hpayload] at hx
  exact (step_issued h.inv.cfgOk hs (decode_append (.queueTx 0#24) _) rfl).trans hx

theorem step_devTxComplete {b : Bus} (h : ReadyToDeliver s) (hown : s.own .tx s.devTxCur = true)
    (hs : s.sched = .op ⟨.device, 0x00000030#32, b⟩ :: rest) :
    step s = .next (txCompleted b.devFlags { s with sched := rest, bus := b }) :=
  have hready := h.with_input rest b
  (step_issued h.inv.cfgOk hs (decode_encode .devTxComplete) rfl).trans
    (execDevTxComplete_eq hready.inv.cfgOk hready.deviceActive hown)

/-- The two entries of the schedule that queue a frame and send it. -/
theorem runSteps_queue_then_complete {b b' : Bus} (h : ReadyToDeliver s) (hfree : ∀ i, i < s.cfg.nTx → s.own .tx i = false)
    (hlen : b.payload.length ≤ s.cfg.slotSize) (harg : b.payload.length < 2 ^ 24) (hsplit : b.split = [])
    (hs : s.sched =
      .op ⟨.client, BitVec.ofNat 24 b.payload.length ++ 0x04#8, b⟩ :: .op ⟨.device, 0x00000030#32, b'⟩ :: rest) :
    ∃ t, (∀ n, runSteps (n + 2) s = runSteps n t) ∧ ReadyToDeliver t ∧ t.cfg = s.cfg ∧ t.clientId = s.clientId ∧
      t.sched = rest ∧ t.wire = s.wire ++ [b.payload] ∧ t.out = s.out ++ [.txDoorbell, .result .ok .zero] := by
  have hdev := devTxCur_of_idle h.inv.ringsOk h.active hfree
  have hqueue := step_queueTx_presented h (hfree _ (h.inv.cursorsOk h.active).1) hlen harg hsplit hs
  have hinput := h.with_input (.op ⟨.device, 0x00000030#32, b'⟩ :: rest) b
  have hsent := hinput.after_sent (stepKeepsTheInvariant _ _ h.inv hqueue) hlen
  have hframe := frameAtDevice_sent hinput.inv.ringsOk hinput.active hdev hlen
  have hcomplete := step_devTxComplete hsent hframe.owned (sent_sched _ _)
  have hdone := (hsent.with_input rest b').after_txCompleted (stepKeepsTheInvariant _ _ hsent.inv hcomplete)
  exact ⟨_, fun n => (runSteps_succ _ hqueue).trans (runSteps_succ _ hcomplete), hdone, sent_cfg b.payload _,
    sent_clientId b.payload _, rfl, (hframe.wire_txCompleted b'.devFlags).trans (by rw [sent_wire]), sent_out b.payload _⟩

end Echo

end Sys2Proof.Machine

namespace Sys2Proof

open Machine

/-- Settles O43: the frame is read at the descriptor's own buffer address, before the one word written. -/
theorem devTxCompleteSendsTheFrame : Obligations.DevTxCompleteSendsTheFrame := by
  intro s hw hl hq hk ho slot
  have hx : exec .devTxComplete s = _ := execDevTxComplete_eq hw (deviceActive_iff.2 ⟨hl, hq⟩) ho
  have hset := descSet_txCompleted hw hk s.bus.devFlags
  have hdesc := hset.desc_same hk
  obtain ⟨hown, hflags⟩ := txDone_getLsbD hw s.bus.devFlags
  refine ⟨_, hx, ?_, (hset.own_same hk).trans hown, fun k hk32 hne => ?_, ?_, txCompleted_keepsOutside hw _⟩
  · rw [bytesAt_eq]
    rfl
  · rw [hdesc]
    exact hflags k hk32 hne
  · rw [hdesc]

/-- Settles O44: the two tests of the contract, then the slot written through the descriptor's own buffer address. -/
theorem devRxFillStoresTheFrame : Obligations.DevRxFillStoresTheFrame := by
  intro s hw hl hq hk ho hstatic slot
  have ha : deviceActive s = true := deviceActive_iff.2 ⟨hl, hq⟩
  refine ⟨fun hlen hfield => ?_, fun hbad => execDevRxFill_outside ha ho fun hf => ?_⟩
  · have hb : (s.desc .rx s.devRxCur).bufferAddress = baddr s.cfg .rx s.devRxCur :=
      (hstatic (by rcases hl with e | e <;> simp [e]) .rx s.devRxCur hk).1
    have hdesc := desc_rxFilled (len := s.bus.len) (flags := s.bus.devFlags) hw hk hb hlen
    obtain ⟨-, hframe, hflags⟩ := rxFill_fields hw s.bus.devFlags hfield
    refine ⟨_, execDevRxFill_eq hw ha ho (fillAllowed_iff.2 ⟨hlen, hfield⟩), rfl, own_rxFilled hw hk hb hlen hfield, ?_,
      fun k hk32 hne hout => ?_, ?_, slotBytes_rxFilled hw hk hb hlen, rxFilled_keepsOutside hw hk hb hlen⟩
    · rw [hdesc]
      exact hframe
    · rw [hdesc]
      exact hflags k hk32 hne hout
    · rw [hdesc]
  · obtain ⟨hlen, hfield⟩ := fillAllowed_iff.1 hf
    omega

/-- Settles O54: the frame crosses the TX ring to the wire, then the RX ring to the client. -/
theorem echoedPayloadIsDelivered : Obligations.EchoedPayloadIsDelivered := by
  intro s b b' rest hi hl hon hb hws hwp hh hrx hfree harmed hlen hfield harg hsplit hs
  have ha : Active s := .inl hl
  obtain ⟨-, -, -, hcur, -⟩ := hi.cursorsOk ha
  have hready : ReadyToDeliver s :=
    ⟨hi, hl, hon, hb, ⟨hws, hwp⟩, hh, hrx, devRxCur_of_idle hi.ringsOk ha harmed, harmed _ hcur⟩
  obtain ⟨u, hrun, hu, hcfg, hid, hsched, hwire, hout⟩ := runSteps_queue_then_complete hready hfree hlen harg hsplit hs
  obtain ⟨t, hrun', hsched', hwire', hout'⟩ := runSteps_echo_then_take (frame := b.payload) hu hsched (by rw [hwire]; simp)
    (by rw [hcfg]; exact fillAllowed_iff.2 ⟨hlen, hfield⟩)
  refine ⟨t, (hrun 2).trans hrun', hsched', hwire'.trans hwire, ?_⟩
  rw [hout', hout, hid, List.append_assoc]
  rfl

/-- Settles O45: with no bit given neither the word nor the latch changes. -/
theorem devSetStatusRaisesTheInterrupt : Obligations.DevSetStatusRaisesTheInterrupt := by
  intro s
  have hx : exec .devSetStatus s = .next (devSetStatus s.bus.bits s) := rfl
  refine ⟨fun hne => ?_, fun he => ?_⟩
  · rw [hx, devSetStatus, decide_eq_true hne, Bool.or_true]
  · rw [hx, devSetStatus, he]
    simp

/-- Settles O46. -/
theorem devLinkSetStoresTheWord : Obligations.DevLinkSetStoresTheWord := fun _ => rfl

end Sys2Proof

/-! Proofs of the statements of 70_reset_and_hazards.md. -/

namespace Sys2Proof.Machine

section ResetInput

variable {s : State} {rest : List Entry}

/-- A reset entry is taken whatever the block was doing (R320). -/
theorem step_rst (hw : s.cfg.wf = true) (hs : s.sched = .rst :: rest) :
    step s = .next (applyRst { s with sched := rest }) := by
  have hm : nextMove s = .rst := by rw [nextMove, hs]
  have ha : afterFetch s = { s with sched := rest } := by rw [afterFetch, hs]
  rw [step, if_pos hw, hm, ha]

/-- The reset input turns both MAC enables off and leaves the other bits of their register (R320, R321). -/
theorem applyRst_mac (hw : s.cfg.wf = true) :
    (applyRst s).macEn = (false, false) ∧
    ∀ k, k ≠ s.cfg.macTxBit → k ≠ s.cfg.macRxBit → (applyRst s).macConfig.getLsbD k = s.macConfig.getLsbD k := by
  obtain ⟨htx, hrx, hkeep⟩ := macClear_getLsbD hw s.macConfig
  rw [applyRst_eq]
  exact ⟨Prod.ext htx hrx, hkeep⟩

end ResetInput

end Sys2Proof.Machine

namespace Sys2Proof

open Machine

/-- Settles O11: a reset entry is always taken, and what it leaves of the MAC register is `applyRst_mac`. -/
theorem resetInputRestoresTheRegisters : Obligations.ResetInputRestoresTheRegisters := fun s rest hw hs =>
  ⟨_, step_rst hw hs, rfl, applyRst_mac (s := { s with sched := rest }) hw⟩

end Sys2Proof
